-- ==== Sys2Proof/Word.lean ====
section
/-! DEFINITION. The one width of every wire field of the block: the byte (20_memory.md R62). -/

namespace Sys2Proof

/-- A byte: 8 bits, unsigned (00_scope.md R14). Its addition is the spec's `+₈`, its complement the spec's `~`. -/
abbrev Byte := BitVec 8

/-- The sync value, fixed and no parameter (30_encoding.md R81). -/
abbrev syncByte : Byte := 0xFF#8

end Sys2Proof
end

