-- ==== Sys2Proof/Config.lean ====
section
/-! DEFINITION. What an implementation fixes (00_scope.md R11), the requests and answers of the external ports
(44_dispatch.md R221, R223), the moves of the agents (20_memory.md R66), and the one free value: the next move
when none is fixed. -/

namespace Sys2Proof

/-- What a timer does at its top value, parameter `TIMER_OVF` (00_scope.md R11; 60_exceptions.md R262). -/
inductive TimerOverflow where
  | saturate
  | wrap
deriving DecidableEq, Repr, Inhabited

/-- The configuration arguments of 00_scope.md R11. `SYNC` is fixed and `receiveTimeout`, `sendTimeout` are
inputs that may change between comparisons (10_state.md R34), so they are not here. -/
structure Config where
  /-- `LOCAL_ID` -/
  localId : Byte
  /-- `BROADCAST_ID` -/
  broadcastId : Byte
  /-- `OP_PING` -/
  opPing : Byte
  /-- `OP_READ` -/
  opRead : Byte
  /-- `OP_WRITE` -/
  opWrite : Byte
  /-- `OP_RESET` -/
  opReset : Byte
  /-- `OP_BOOTLOAD` -/
  opBootload : Byte
  /-- `OP_AGG_READ` -/
  opAggRead : Byte
  /-- `MAX_AGG_DEVICES` -/
  maxAggDevices : Nat
  /-- `SCRATCH_CAP` -/
  scratchCap : Nat
  /-- `EGRESS_CAP` -/
  egressCap : Nat
  /-- `EGRESS_FRAME` -/
  egressFrame : Nat
  /-- `CAPTURE_CAP` -/
  captureCap : Nat
  /-- `MAX_OUT_FRAME` -/
  maxOutFrame : Nat
  /-- `RANGE_ERROR` -/
  rangeError : Byte
  /-- `TIMER_W` -/
  timerWidth : Nat
  /-- `TIMER_OVF` -/
  timerOvf : TimerOverflow
  /-- `BUS_TX_DEPTH` -/
  busTxDepth : Nat
deriving DecidableEq, Repr, Inhabited

/-- The reference configuration RC (00_scope.md R11, 92_eei_decisions.md D33). It is the configuration of the
reset state and of the opcode table; it is no claim about the real device. DESIGN CHOICE, log 1. -/
def Config.rc : Config where
  localId := 0x01#8
  broadcastId := 0xFE#8
  opPing := 0x01#8
  opRead := 0x02#8
  opWrite := 0x03#8
  opReset := 0x06#8
  opBootload := 0x08#8
  opAggRead := 0x84#8
  maxAggDevices := 8
  scratchCap := 15
  egressCap := 64
  egressFrame := 8
  captureCap := 16
  maxOutFrame := 32
  rangeError := 0x08#8
  timerWidth := 8
  timerOvf := .saturate
  busTxDepth := 2

/-- A request on the `store`, `agg` or `life` port with its arguments (44_dispatch.md R221). Addresses and
lengths are one byte each (20_memory.md R60). -/
inductive Call where
  /-- `store.local_read(address, length)` -/
  | localRead (address length : Byte)
  /-- `store.local_write(address, data, length)` -/
  | localWrite (address : Byte) (data : List Byte) (length : Byte)
  /-- `store.eraseConfiguration()` -/
  | eraseConfiguration
  /-- `agg.aggregatedRead(startAddress, perDeviceLength, deviceCount, ids)` -/
  | aggregatedRead (startAddress perDeviceLength deviceCount : Byte) (ids : List Byte)
  /-- `life.restart(intoBootloader)`, which never returns -/
  | restart (intoBootloader : Bool)
deriving DecidableEq, Repr, Inhabited

/-- The answer that ENV's `return` step carries (44_dispatch.md R223). -/
inductive CallResult where
  /-- `local_read`: an error byte and the data -/
  | read (err : Byte) (data : List Byte)
  /-- `local_write`: a status byte, which the block ignores -/
  | status (st : Byte)
  /-- `eraseConfiguration`: nothing -/
  | done
  /-- `aggregatedRead`: the byte sequence to queue for the host -/
  | bytes (r : List Byte)
deriving DecidableEq, Repr, Inhabited

/-- One event on a port, made by ENV (00_scope.md R10). -/
inductive EnvMove where
  /-- the `tx_done` pulse (42_arbiter.md R184) -/
  | txDone
  /-- one byte arrives at the host transport, to be counted by `bytesAvailable()` and taken by `receiveByte()` -/
  | hostByte (b : Byte)
  /-- the `host_connected` predicate changes (43_service_timeout.md R204) -/
  | setConnected (v : Bool)
  /-- the `isWriteReady()` predicate changes (41_egress.md R163) -/
  | setWriteReady (v : Bool)
  /-- the `cfg` inputs change (10_state.md R34) -/
  | setTimeouts (receive send : Nat)
  /-- `mode_set(v)` (42_arbiter.md R192) -/
  | modeSet (v : Bool)
  /-- the executor's `switchToTransmit()` on `dir_req` (42_arbiter.md R187) -/
  | dirTransmit
  /-- the executor's `switchToReceive()` on `dir_req` (42_arbiter.md R187) -/
  | dirReceive
  /-- the executor hands a byte to the bus transmitter (44_dispatch.md R222) -/
  | executorWrite (b : Byte)
  /-- the executor sets `cap_n <- 0` (44_dispatch.md R222) -/
  | clearCapture
  /-- the `return(result)` step of an outstanding Call (44_dispatch.md R221) -/
  | ret (r : CallResult)
deriving DecidableEq, Repr, Inhabited

/-- One atomic step of one agent, as the scheduler picks it (20_memory.md R66; 60_exceptions.md R260). -/
inductive Move where
  /-- MAIN's next micro-operation or phase step -/
  | main
  /-- one TICK handler invocation -/
  | tick
  /-- ENV offers one bus byte; BUSRX takes it if receive is enabled -/
  | busRx (b : Byte)
  /-- one ENV port event -/
  | env (e : EnvMove)
deriving DecidableEq, Repr, Inhabited

/-- The move at draw `n`, where the schedule held in the state fixes none: any agent, any input
(60_exceptions.md R260, 93_implementation_defined.md I17 to I20). A FREE VALUE: nothing is known of it. Log 2. -/
opaque Config.freeMove : Nat → Move

end Sys2Proof
end

