-- ==== Sys2Proof/Syntax.lean ====
section
/-! DEFINITION. The instructions of the block: one constructor per row of spec/opcode_table.json, with the
operands a frame carries (30_encoding.md R87 to R93; 40_classifier.md R122). -/

namespace Sys2Proof

/-- The two identifier classes whose frames the block keeps (30_encoding.md R86). -/
inductive Target where
  /-- the frame's id is `LOCAL_ID` -/
  | device
  /-- the frame's id is `BROADCAST_ID` -/
  | broadcast
deriving DecidableEq, Repr, Inhabited

/-- The kinds of `DISPATCH(kind, pkt)` (44_dispatch.md R220). -/
inductive Kind where
  | ping
  | reset
  | bootload
  | read
  | write
  | aggRead
deriving DecidableEq, Repr, Inhabited

/-- The accepted frame on the dispatch port, `pkt = (id, len, instr, params)` (44_dispatch.md R220). -/
structure Packet where
  id : Byte
  len : Byte
  instr : Byte
  params : List Byte
deriving DecidableEq, Repr, Inhabited

/-- The instructions, one constructor per row of the opcode table. The confirm-state instructions carry the
length byte their frame declared, because the block accepts every legal one (40_classifier.md R121). -/
inductive Instr where
  /-- `PING` (44_dispatch.md R230) -/
  | ping (len : Byte)
  /-- `READ`; the spec's operands are `[a, n]`, other counts raise a fault (44_dispatch.md R227) -/
  | read (target : Target) (params : List Byte)
  /-- `WRITE`; the spec's operands are `[a, d1, …, dm]`, fewer than two raise a fault (44_dispatch.md R228) -/
  | write (target : Target) (params : List Byte)
  /-- `RESET` (44_dispatch.md R231) -/
  | reset (len : Byte)
  /-- `BOOTLOAD` (44_dispatch.md R232) -/
  | bootload (len : Byte)
  /-- `AGG_READ`; the spec's operands are `[a, m, i1, …, iN]`, fewer than two raise a fault (44_dispatch.md R234) -/
  | aggRead (target : Target) (params : List Byte)
  /-- the `(reject)` row: an instruction byte no rule admits, after the prefix `FF FF id len` (40_classifier.md R122) -/
  | reject (id len code : Byte)
deriving DecidableEq, Repr, Inhabited

end Sys2Proof
end

