-- ==== Sys2Proof/WellFormed.lean ====
section
/-! DEFINITION. Which configurations run (00_scope.md R12) and which instructions a frame can carry
(30_encoding.md R85, R87). -/

namespace Sys2Proof

/-- Items 1 to 6 of 00_scope.md R12, the ones about the constant parameters. -/
def Config.wf (c : Config) : Bool :=
  c.localId != syncByte && c.broadcastId != syncByte && c.localId != c.broadcastId
    && decide ([c.opPing, c.opRead, c.opWrite, c.opReset, c.opBootload, c.opAggRead].Nodup)
    && decide (1 ≤ c.maxAggDevices ∧ c.maxAggDevices ≤ 252)
    && decide (c.maxAggDevices + 7 ≤ c.scratchCap)
    && decide (1 ≤ c.egressFrame ∧ c.egressFrame ≤ c.egressCap)
    && decide (1 ≤ c.captureCap ∧ 1 ≤ c.maxOutFrame ∧ 1 ≤ c.busTxDepth)

/-- Item 7 of 00_scope.md R12 for one threshold: it lies in `0 .. 2^TIMER_W − 2`. -/
def Config.thresholdOk (c : Config) (threshold : Nat) : Bool :=
  decide (threshold + 2 ≤ 2 ^ c.timerWidth)

/-- The declared lengths a retained frame may carry: `2 ≤ L ≤ MAX_AGG_DEVICES + 3` (30_encoding.md R85). -/
def Config.lengthRetained (c : Config) (l : Nat) : Bool :=
  decide (2 ≤ l ∧ l ≤ c.maxAggDevices + 3)

/-- The instruction codes admitted for identifier `id` (30_encoding.md R87, third and fourth columns). -/
def Config.codeAdmitted (c : Config) (id code : Byte) : Bool :=
  code == c.opRead || code == c.opWrite || code == c.opAggRead
    || (id == c.localId && (code == c.opPing || code == c.opReset || code == c.opBootload))

/-- An instruction that some frame carries: its declared length is legal and, for the reject row, its code is
one that the row is for. -/
def Instr.wf (c : Config) : Instr → Bool
  | .ping len => c.lengthRetained len.toNat
  | .reset len => c.lengthRetained len.toNat
  | .bootload len => c.lengthRetained len.toNat
  | .read _ params => c.lengthRetained (params.length + 2)
  | .write _ params => c.lengthRetained (params.length + 2)
  | .aggRead _ params => c.lengthRetained (params.length + 2)
  | .reject id len code =>
      (id == c.localId || id == c.broadcastId) && c.lengthRetained len.toNat && !c.codeAdmitted id code

/-- The parameter counts to which the source gives a meaning (30_encoding.md R89, R90, R93); another count
raises `DISPATCH_SHAPE` when the frame is dispatched. -/
def Instr.shapeOk : Instr → Bool
  | .read _ params => params.length == 2
  | .write _ params => decide (2 ≤ params.length)
  | .aggRead _ params => decide (2 ≤ params.length)
  | .ping _ | .reset _ | .bootload _ | .reject _ _ _ => true

end Sys2Proof
end

