-- ==== Sys2Proof/Decode.lean ====
section
/-! DEFINITION. The checksum law (30_encoding.md R84), the classes of identifiers, lengths and instruction codes
(R85 to R87), the decoder of a whole frame, the encoder beside it, and the decoding of a dispatched packet. -/

namespace Sys2Proof

/-- `Σ₈`: the sum of the bytes modulo 256 (00_scope.md R14). -/
def sum8 : List Byte → Byte
  | [] => 0#8
  | b :: bs => b + sum8 bs

/-- The checksum byte of the bytes from id to the last parameter: `~Σ₈` (30_encoding.md R84). -/
def checksumOf (bs : List Byte) : Byte := ~~~ (sum8 bs)

/-- A frame is checksum-valid when id, length, instruction, parameters and checksum sum to 0xFF
(30_encoding.md R84; 90_conflicts.md C1, C7). -/
def checksumValid (bs : List Byte) : Bool := sum8 bs == syncByte

/-- The identifier byte of a target (30_encoding.md R86). -/
def Config.idOf (c : Config) : Target → Byte
  | .device => c.localId
  | .broadcast => c.broadcastId

/-- The class of an identifier the block retains; `none` for a foreign one (30_encoding.md R86). -/
def Config.targetOf (c : Config) (id : Byte) : Option Target :=
  if id = c.localId then some .device
  else if id = c.broadcastId then some .broadcast
  else none

/-- The legal declared length of a retained frame, the open interval `(1, MAX_AGG_DEVICES + 4)`
(40_classifier.md R117; 90_conflicts.md C6). -/
def Config.lengthLegal (c : Config) (l : Byte) : Bool :=
  decide (1 < l.toNat ∧ l.toNat < c.maxAggDevices + 4)

/-- What `READ_INSTR` does with an instruction byte (40_classifier.md R120 to R122). -/
inductive InstrClass where
  /-- collect parameters (R120) -/
  | collect (k : Kind)
  /-- a confirm state (R121) -/
  | confirm (k : Kind)
  /-- rejected (R122) -/
  | rejected
deriving DecidableEq, Repr

/-- The instruction byte's class for a frame with identifier `id` (30_encoding.md R87). -/
def Config.classOf (c : Config) (id code : Byte) : InstrClass :=
  if id = c.localId ∨ id = c.broadcastId then
    if code = c.opRead then .collect .read
    else if code = c.opWrite then .collect .write
    else if code = c.opAggRead then .collect .aggRead
    else if id = c.localId then
      if code = c.opPing then .confirm .ping
      else if code = c.opReset then .confirm .reset
      else if code = c.opBootload then .confirm .bootload
      else .rejected
    else .rejected
  else .rejected

/-- `kind_of` of 40_classifier.md R129: the kind an instruction code in `COLLECT_PARAMS` stands for. -/
def Config.collectKindOf (c : Config) (code : Byte) : Option Kind :=
  if code = c.opRead then some .read
  else if code = c.opWrite then some .write
  else if code = c.opAggRead then some .aggRead
  else none

/-- The instruction code of a kind (30_encoding.md R87). -/
def Config.codeOf (c : Config) : Kind → Byte
  | .ping => c.opPing
  | .reset => c.opReset
  | .bootload => c.opBootload
  | .read => c.opRead
  | .write => c.opWrite
  | .aggRead => c.opAggRead

/-- The instruction of a kind with the operands its frame carries. -/
def Kind.instr (k : Kind) (t : Target) (len : Byte) (params : List Byte) : Instr :=
  match k with
  | .ping => .ping len
  | .reset => .reset len
  | .bootload => .bootload len
  | .read => .read t params
  | .write => .write t params
  | .aggRead => .aggRead t params

/-- The instruction that `DISPATCH(kind, pkt)` runs (44_dispatch.md R220). Only a packet whose id the block
retains is ever dispatched; another has no instruction. -/
def decodeDispatch (c : Config) (k : Kind) (p : Packet) : Option Instr :=
  (c.targetOf p.id).map fun t => k.instr t p.len p.params

/-- Why a byte sequence is no frame of this block. -/
inductive DecodeError where
  /-- the bytes end before the frame does -/
  | truncated
  /-- the first byte is not the sync byte (40_classifier.md R112) -/
  | noSync
  /-- the second byte is not the sync byte (40_classifier.md R113) -/
  | badSync2
  /-- a third sync byte: realignment, no identifier (40_classifier.md R114) -/
  | realign
  /-- the frame is addressed to another device (40_classifier.md R115) -/
  | foreign
  /-- the declared length is out of range (40_classifier.md R118) -/
  | lenRange
  /-- the checksum law fails (40_classifier.md R123, R129) -/
  | badChecksum
deriving DecidableEq, Repr

/-- The part of a retained frame after its instruction byte. -/
def decodeBody (c : Config) (t : Target) (id len code : Byte) (rest : List Byte) :
    Except DecodeError (Instr × List Byte) :=
  match c.classOf id code with
  | .rejected => .ok (.reject id len code, rest)
  | .confirm k =>
      match rest with
      | [] => .error .truncated
      | chk :: after =>
          if checksumValid [id, len, code, chk] then .ok (k.instr t len [], after) else .error .badChecksum
  | .collect k =>
      let params := rest.take (len.toNat - 2)
      match rest.drop (len.toNat - 2) with
      | [] => .error .truncated
      | chk :: after =>
          if checksumValid (id :: len :: code :: params ++ [chk]) then .ok (k.instr t len params, after)
          else .error .badChecksum

/-- Reads one frame of this block from the front of a byte sequence: the instruction it carries and the bytes
after it (30_encoding.md R82, R98). The bytes after a reject row's instruction byte are not part of it. -/
def decode (c : Config) : List Byte → Except DecodeError (Instr × List Byte)
  | s0 :: s1 :: id :: len :: code :: rest =>
      if s0 ≠ syncByte then .error .noSync
      else if s1 ≠ syncByte then .error .badSync2
      else if id = syncByte then .error .realign
      else
        match c.targetOf id with
        | none => .error .foreign
        | some t => if c.lengthLegal len then decodeBody c t id len code rest else .error .lenRange
  | _ => .error .truncated

/-- The bytes of a frame: `FRAME(id, op, p1, …, pk)` of 30_encoding.md R101, with the length byte given, since
a confirm-state frame may declare any legal one. -/
def frameBytes (id len code : Byte) (params : List Byte) : List Byte :=
  syncByte :: syncByte :: id :: len :: code :: params ++ [checksumOf (id :: len :: code :: params)]

/-- The bytes of an instruction's frame (30_encoding.md R82, R88 to R93; the reject row: R87). -/
def encode (c : Config) : Instr → List Byte
  | .ping len => frameBytes c.localId len c.opPing []
  | .reset len => frameBytes c.localId len c.opReset []
  | .bootload len => frameBytes c.localId len c.opBootload []
  | .read t params => frameBytes (c.idOf t) (BitVec.ofNat 8 (params.length + 2)) c.opRead params
  | .write t params => frameBytes (c.idOf t) (BitVec.ofNat 8 (params.length + 2)) c.opWrite params
  | .aggRead t params => frameBytes (c.idOf t) (BitVec.ofNat 8 (params.length + 2)) c.opAggRead params
  | .reject id len code => [syncByte, syncByte, id, len, code]

/-- Byte `i` of an `nbits`-wide word of the opcode table, bit 0 the least significant bit of its first byte. -/
def wordByte (nbits w i : Nat) : Byte := BitVec.ofNat 8 (w % 2 ^ nbits / 256 ^ i)

/-- The parameter bytes of an opcode-table word: the table gives a row its instruction byte only, so the
parameters are the bytes of `w` above it and zeros beyond `nbits`. `READ`, `WRITE` and `AGG_READ` take at
least two parameters, the confirm-state instructions none (30_encoding.md R88 to R93). DESIGN CHOICE, log 14. -/
def tableParams (c : Config) (nbits w : Nat) : List Byte :=
  match c.classOf c.localId (wordByte nbits w 0) with
  | .collect _ => (List.range (max 2 (nbits / 8 - 1))).map fun i => wordByte nbits w (i + 1)
  | .confirm _ | .rejected => []

/-- The packet of an opcode-table word, device-addressed. -/
def tablePacket (c : Config) (nbits w : Nat) : Packet where
  id := c.localId
  len := BitVec.ofNat 8 ((tableParams c nbits w).length + 2)
  instr := wordByte nbits w 0
  params := tableParams c nbits w

/-- The instruction this decoder reads from the frame of an opcode-table word (30_encoding.md R87, under the
codes of the table, which are RC's). -/
def decodeTableWord (nbits w : Nat) : Option Instr :=
  let p := tablePacket Config.rc nbits w
  match decode Config.rc (frameBytes p.id p.len p.instr p.params) with
  | .ok (i, _) => some i
  | .error _ => none

end Sys2Proof
end

