-- ==== Sys2Proof/Machine/State.lean ====
section
/-! DEFINITION. The state of the block as plain data (10_state.md), its reset value (70_reset_and_hazards.md R280),
and the reasons a step can stop. -/

namespace Sys2Proof.Machine

/-- The ten legal values of the classifier state register `cstate` (10_state.md R20). A confirm state is named
by its own constructor; the 4-bit codes are `CState.code` in Machine/Operands.lean. Log 10. -/
inductive CState where
  | seekSync1
  | seekSync2
  | readId
  | readLen
  | readInstr
  | resetConfirm
  | bootloadConfirm
  | pingConfirm
  | collectParams
  | relayRemainder
deriving DecidableEq, Repr

/-- The Action that `consume` returns, in the register `last_action` (10_state.md R25). -/
inductive Action where
  | buffered
  | passedThrough
  | frameComplete
  | frameRejected
deriving DecidableEq, Repr

/-- The bus direction register (10_state.md R30). -/
inductive Dir where
  | rx
  | tx
deriving DecidableEq, Repr

/-- The codes of the sticky fault record (60_exceptions.md R255). -/
inductive FaultCode where
  | egressOverflow
  | captureOverflow
  | dispatchShape
  | scratchOverflow
deriving DecidableEq, Repr

/-- The terminal record (10_state.md R37). -/
inductive HaltReason where
  | reset
  | bootload
deriving DecidableEq, Repr

/-- The reasons of rejections and abandonments (60_exceptions.md R251). -/
inductive RejectReason where
  | badSync2
  | lenRange
  | badInstr
  | checksum
  | rxTimeout
deriving DecidableEq, Repr

/-- The phases of MAIN's service cycle (10_state.md R38; 43_service_timeout.md R200). -/
inductive MainPhase where
  | waitConn
  | rxReturn
  | consume
  | timeout
  | flush
  | dispatch
deriving DecidableEq, Repr

/-- A request of the aggregation executor that the bus transmitter can make it wait for (42_arbiter.md R182, R183,
R187; 44_dispatch.md R222). -/
inductive BusRequest where
  /-- `switchToReceive()` -/
  | switchToReceive
  /-- `BusWrite(b)` -/
  | busWrite (b : Byte)
deriving DecidableEq, Repr

/-- The micro-operations MAIN has still to perform (10_state.md R38). The first four are the table of
43_service_timeout.md R201; the others are the first line of the CONSUME phase (R200, R203), the lines of the flush
(41_egress.md R164 to R168), the second call of 44_dispatch.md R231, and the end of a phase or dispatch (R200,
R210). Log 8. -/
inductive Uop where
  /-- `BusWrite(b)` (42_arbiter.md R183) -/
  | busWrite (b : Byte)
  /-- `Enqueue(b)` (41_egress.md R161) -/
  | enqueue (b : Byte)
  /-- `REJECT(reason)` (60_exceptions.md R251) -/
  | reject (r : RejectReason)
  /-- `DISPATCH(kind, pkt)` (44_dispatch.md R220) -/
  | dispatch (k : Kind) (p : Packet)
  /-- `consume_left <- bytesAvailable()` (43_service_timeout.md R200, R203) -/
  | countInput
  /-- `tryFlush()`'s snapshot and selection (41_egress.md R164) -/
  | tryFlush
  /-- `b <- Dequeue() ; HostWriteByte(b)` (41_egress.md R166, R167) -/
  | flushByte
  /-- `HostCommit()` (41_egress.md R166 to R168) -/
  | hostCommit
  /-- `send_timer <- 0` (41_egress.md R166, R167) -/
  | resetSendTimer
  /-- `zlp_owed <- 1` (41_egress.md R166) -/
  | oweEmptyFrame
  /-- `zlp_owed <- 0` (41_egress.md R168) -/
  | clearEmptyFrame
  /-- `Call life.restart(b)` after `eraseConfiguration` returned (44_dispatch.md R231) -/
  | restart (intoBootloader : Bool)
  /-- the phase's or dispatch's work is done: go on in phase `p` (43_service_timeout.md R200, R210) -/
  | enterPhase (p : MainPhase)
deriving DecidableEq, Repr

/-- The state of the block. Names are the spec's; INVENTORY.md lists each with its rule. -/
structure State where
  /-- the configuration arguments (00_scope.md R11); no step writes them. Log 1. -/
  cfg : Config
  /-- `cstate` (10_state.md R20) -/
  cstate : CState
  /-- `scratch[0 .. scratch_n)` (R21); `scratch_n` is its length. Log 12. -/
  scratch : List Byte
  /-- `chk` (R23) -/
  chk : Byte
  /-- `rem` (R24), 0..255. Log 11. -/
  rem : Nat
  /-- `last_action` (R25) -/
  lastAction : Action
  /-- `rx_timer` (R26), `TIMER_W` bits. Log 11. -/
  rxTimer : Nat
  /-- `send_timer` (R26) -/
  sendTimer : Nat
  /-- `bus_timer` (R26, R27) -/
  busTimer : Nat
  /-- `eq`, the host egress queue, oldest byte first (R28) -/
  egress : List Byte
  /-- `zlp_owed` (R29) -/
  zlpOwed : Bool
  /-- `dir` (R30) -/
  dir : Dir
  /-- `bus_tx_pending` (R31) -/
  busTxPending : Nat
  /-- `passthrough`, the mode flag (R32) -/
  passthrough : Bool
  /-- `cap[0 .. cap_n)` (R33); `cap_n` is its length. Log 12. -/
  cap : List Byte
  /-- the `cfg` input `receiveTimeout`, current value (R34) -/
  receiveTimeout : Nat
  /-- the `cfg` input `sendTimeout`, current value (R34) -/
  sendTimeout : Nat
  /-- `fault`, the sticky fault record (R36) -/
  fault : Option FaultCode
  /-- `halted`, the terminal record (R37) -/
  halted : Option HaltReason
  /-- `main_phase` (R38) -/
  mainPhase : MainPhase
  /-- `consume_left` (R38) -/
  consumeLeft : Nat
  /-- `uops` (R38) -/
  uops : List Uop
  /-- the Call that MAIN holds in (44_dispatch.md R221) -/
  pendingCall : Option Call
  /-- the bus request in which the aggregation executor holds (42_arbiter.md R182, R187; 44_dispatch.md R222).
  Log 29. -/
  executorHold : Option BusRequest
  /-- the bytes written to the host transport since its last commit (41_egress.md R163). Log 22. -/
  hostFrame : List Byte
  /-- the host input bytes behind `bytesAvailable()` and `receiveByte()` (00_scope.md R10) -/
  hostIn : List Byte
  /-- the `host_connected` predicate (00_scope.md R10) -/
  hostConnected : Bool
  /-- the `isWriteReady()` predicate (00_scope.md R10) -/
  writeReady : Bool
  /-- history `bus_out` (10_state.md R39) -/
  busOut : List Byte
  /-- history `host_out` (R39) -/
  hostOut : List (List Byte)
  /-- history `calls` (R39) -/
  calls : List Call
  /-- history `rejects` (R39) -/
  rejects : List RejectReason
  /-- the model's own: the moves already fixed, next one first. Log 2. -/
  moves : List Move
  /-- the model's own: where the next free move is drawn. Log 2. -/
  fresh : Nat
deriving DecidableEq, Repr

/-- Why a step stops: the block is in a state from which no agent takes a step. -/
inductive Fault where
  /-- Raised by `step` on a state whose fault record is set: no agent takes a further step, and nothing clears
  the record (60_exceptions.md R256). Safe. -/
  | stopped (code : FaultCode)
  /-- Raised by `step` on a halted state: the run has ended (44_dispatch.md R233). Safe. -/
  | halted (reason : HaltReason)
deriving DecidableEq, Repr

/-- Why the model gives no meaning. -/
inductive Refusal where
  /-- An instruction without a meaning yet, by its mnemonic. Raised by `exec` only. Safe. -/
  | notModelled (mnemonic : String)
  /-- The configuration breaks 00_scope.md R12; a model refuses it. Raised by `step`. Safe. -/
  | illFormedConfig
  /-- A move ENV does not have in this state: outside the liberties and duties of 44_dispatch.md R222 and R223,
  a `tx_done` with nothing pending (42_arbiter.md R184), a threshold out of range (00_scope.md R12). Raised by
  ENV moves. Safe: no claim is made about a run that contains it. Log 4. -/
  | noSuchMove
  /-- Classifier contents no rule speaks of: an unwritten field view (10_state.md R22) or a `rem` the state's
  rules exclude (40_classifier.md R131). Raised by `consume`. Safe, unreachable. Log 13. -/
  | noRule
  /-- A counted host byte is not there, against ENV's duty (43_service_timeout.md R203). Raised by `consume`'s
  caller. Safe, unreachable. Log 25. -/
  | hostByteMissing
  /-- A dispatched packet whose id the block does not retain. Raised by MAIN's `DISPATCH`. Safe, unreachable. -/
  | packetNotRetained
  /-- A `Dequeue` on an empty queue, against its precondition (41_egress.md R162). Raised by the flush. Safe,
  unreachable. -/
  | dequeueEmpty
deriving DecidableEq, Repr

/-- What one step answers. -/
abbrev Result := Host.Outcome State Fault Refusal

/-- The state right after reset (70_reset_and_hazards.md R280), under the reference configuration (log 1). The
ports' inputs, for which the spec gives no value, are as log 6 says. -/
def State.reset : State where
  cfg := Config.rc
  cstate := .seekSync1
  scratch := []
  chk := 0#8
  rem := 0
  lastAction := .buffered
  rxTimer := 0
  sendTimer := 0
  busTimer := 0
  egress := []
  zlpOwed := false
  dir := .rx
  busTxPending := 0
  passthrough := true
  cap := []
  receiveTimeout := 3
  sendTimeout := 2
  fault := none
  halted := none
  mainPhase := .waitConn
  consumeLeft := 0
  uops := []
  pendingCall := none
  executorHold := none
  hostFrame := []
  hostIn := []
  hostConnected := false
  writeReady := false
  busOut := []
  hostOut := []
  calls := []
  rejects := []
  moves := []
  fresh := 0

end Sys2Proof.Machine
end

