-- ==== Sys2Proof/Machine/Flags.lean ====
section
/-! DEFINITION. The conditions the rules test and the timer arithmetic: capacities, timeouts, the aggregated-read
bounds, the checksum test of the running sum, and the count of a timer. -/

namespace Sys2Proof.Machine

open Sys2Proof

/-- Whether the running checksum accepts the checksum byte: `chk +₈ b = 0xFF` (40_classifier.md R123, R129). -/
def checksumAccepts (chk b : Byte) : Bool := chk + b == syncByte

/-- `RxTimedOut()`: not idle and strictly past the threshold (43_service_timeout.md R205). -/
def rxTimedOut (s : State) : Bool := s.cstate != .seekSync1 && decide (s.receiveTimeout < s.rxTimer)

/-- `SendTimedOut()`: strictly past the threshold (41_egress.md R165). -/
def sendTimedOut (s : State) : Bool := decide (s.sendTimeout < s.sendTimer)

/-- The bounds check of an aggregated read, product exact (44_dispatch.md R235; 20_memory.md R63). -/
def aggregateFits (c : Config) (perDevice : Byte) (deviceCount : Nat) : Bool :=
  decide (1 ≤ perDevice.toNat ∧ perDevice.toNat ≤ c.captureCap ∧ perDevice.toNat * deviceCount ≤ c.maxOutFrame)

/-- One TICK on one timer (60_exceptions.md R262). -/
def countTimer (c : Config) (t : Nat) : Nat :=
  match c.timerOvf with
  | .saturate => min (t + 1) (2 ^ c.timerWidth - 1)
  | .wrap => (t + 1) % 2 ^ c.timerWidth

/-- The egress queue holds `EGRESS_CAP` bytes (41_egress.md R161). -/
def egressFull (s : State) : Bool := decide (s.cfg.egressCap ≤ s.egress.length)

/-- The capture buffer holds `CAPTURE_CAP` bytes (42_arbiter.md R190). -/
def captureFull (s : State) : Bool := decide (s.cfg.captureCap ≤ s.cap.length)

/-- The scratch buffer holds `SCRATCH_CAP` bytes (40_classifier.md R127). -/
def scratchFull (s : State) : Bool := decide (s.cfg.scratchCap ≤ s.scratch.length)

/-- The bus transmitter holds `BUS_TX_DEPTH` bytes (42_arbiter.md R183). -/
def busTxFull (s : State) : Bool := decide (s.cfg.busTxDepth ≤ s.busTxPending)

/-- The configuration is well-formed, thresholds included (00_scope.md R12; 70_reset_and_hazards.md R283). -/
def configOk (s : State) : Bool :=
  s.cfg.wf && s.cfg.thresholdOk s.receiveTimeout && s.cfg.thresholdOk s.sendTimeout

end Sys2Proof.Machine
end

