-- ==== Sys2Proof/Machine/Operands.lean ====
section
/-! DEFINITION. How the rules read their operands: the field views of the scratch buffer (10_state.md R22), the
parameter layouts (30_encoding.md R89, R90, R93), the enables that follow from the direction (R30), and the
numeric codes of the registers and records. -/

namespace Sys2Proof.Machine

open Sys2Proof

/-- `ID = scratch[2]`, once written (10_state.md R22). -/
def idView (sc : List Byte) : Option Byte := sc[2]?

/-- `LEN = scratch[3]`, once written (10_state.md R22). -/
def lenView (sc : List Byte) : Option Byte := sc[3]?

/-- `INSTR = scratch[4]`, once written (10_state.md R22). -/
def instrView (sc : List Byte) : Option Byte := sc[4]?

/-- The packet of an accepted frame, from its scratch buffer without the checksum byte
(40_classifier.md R123, R129). -/
def packetView (sc params : List Byte) : Option Packet :=
  match idView sc, lenView sc, instrView sc with
  | some id, some len, some instr => some { id, len, instr, params }
  | _, _, _ => none

/-- `READ`'s operands: exactly an address and a byte count (44_dispatch.md R227). -/
def readOperands : List Byte → Option (Byte × Byte)
  | [a, n] => some (a, n)
  | _ => none

/-- `WRITE`'s operands: an address and at least one data byte (44_dispatch.md R228). -/
def writeOperands : List Byte → Option (Byte × List Byte)
  | a :: d :: ds => some (a, d :: ds)
  | _ => none

/-- `AGG_READ`'s operands: start address, per-device length, device identifiers (44_dispatch.md R234). -/
def aggOperands : List Byte → Option (Byte × Byte × List Byte)
  | a :: m :: ids => some (a, m, ids)
  | _ => none

/-- The confirm state of a fixed-shape instruction (40_classifier.md R121); the other kinds collect parameters. -/
def stateAfterInstr : Kind → CState
  | .ping => .pingConfirm
  | .reset => .resetConfirm
  | .bootload => .bootloadConfirm
  | .read | .write | .aggRead => .collectParams

/-- `rx_enable` and `rx_int_enable` (10_state.md R30). -/
def rxEnable (s : State) : Bool := s.dir == .rx

/-- `tx_enable` (10_state.md R30). -/
def txEnable (s : State) : Bool := s.dir == .tx

/-- The 4-bit code of a classifier state (10_state.md R20). -/
def CState.code : CState → BitVec 4
  | .seekSync1 => 0#4
  | .seekSync2 => 1#4
  | .readId => 2#4
  | .readLen => 3#4
  | .readInstr => 4#4
  | .resetConfirm => 5#4
  | .bootloadConfirm => 6#4
  | .pingConfirm => 7#4
  | .collectParams => 8#4
  | .relayRemainder => 9#4

/-- The classifier state a 4-bit code stands for. Codes 10 to 15 stand for none: a model refuses a state that
holds one (10_state.md R20). -/
def cstateOfCode (v : BitVec 4) : Option CState :=
  [CState.seekSync1, .seekSync2, .readId, .readLen, .readInstr, .resetConfirm, .bootloadConfirm, .pingConfirm,
    .collectParams, .relayRemainder][v.toNat]?

/-- The 2-bit code of an Action (10_state.md R25). -/
def Action.code : Action → BitVec 2
  | .buffered => 0#2
  | .passedThrough => 1#2
  | .frameComplete => 2#2
  | .frameRejected => 3#2

/-- The bit of a direction (10_state.md R30). -/
def Dir.code : Dir → BitVec 1
  | .rx => 0#1
  | .tx => 1#1

/-- The code of a reject reason (60_exceptions.md R251). -/
def RejectReason.code : RejectReason → Nat
  | .badSync2 => 1
  | .lenRange => 2
  | .badInstr => 3
  | .checksum => 4
  | .rxTimeout => 5

/-- The code of a fault (60_exceptions.md R255). -/
def FaultCode.code : FaultCode → Nat
  | .egressOverflow => 1
  | .captureOverflow => 2
  | .dispatchShape => 3
  | .scratchOverflow => 4

end Sys2Proof.Machine
end

