-- ==== Sys2Proof/Machine/Ops.lean ====
section
/-! DEFINITION. The named operations over the state that the instructions, the classifier, the flush and the
interrupt contexts share: raising a fault, the queues, the bus, the status frame, calls, and the resync. -/

namespace Sys2Proof.Machine

open Sys2Proof

/-- `raise Fault(code)`: sets the sticky record and writes nothing else (60_exceptions.md R255). This is the
block's one form of exception entry; there is no saved state, no vector and no return (R250, R261). -/
def raise (code : FaultCode) (s : State) : State := { s with fault := some code }

/-- Why no agent takes a further step, if that is so (60_exceptions.md R256; 44_dispatch.md R233). -/
def stopReason (s : State) : Option Fault :=
  match s.fault, s.halted with
  | some code, _ => some (.stopped code)
  | none, some reason => some (.halted reason)
  | none, none => none

/-! ### Egress queue -/

/-- The write of `Enqueue(b)` into a queue with room (41_egress.md R161). -/
def pushEgress (b : Byte) (s : State) : State := { s with egress := s.egress ++ [b], sendTimer := 0 }

/-- `Enqueue(b)` (41_egress.md R161). -/
def enqueue (b : Byte) (s : State) : State :=
  if egressFull s then raise .egressOverflow s else pushEgress b s

/-- `b <- Dequeue() ; HostWriteByte(b)` (41_egress.md R162, R166); `none` where the precondition fails. -/
def flushOne (s : State) : Option State :=
  match s.egress with
  | [] => none
  | b :: rest => some { s with egress := rest, hostFrame := s.hostFrame ++ [b] }

/-- `HostCommit()`: the bytes written since the last commit become one host-transport frame (41_egress.md R163). -/
def hostCommit (s : State) : State := { s with hostOut := s.hostOut ++ [s.hostFrame], hostFrame := [] }

/-! ### Bus -/

/-- `switchToTransmit()` (42_arbiter.md R181). -/
def switchToTransmit (s : State) : State := { s with dir := .tx }

/-- `switchToReceive()`; `none` while its caller holds (42_arbiter.md R182). -/
def switchToReceive (s : State) : Option State :=
  match s.dir with
  | .rx => some s
  | .tx => if s.busTxPending = 0 then some { s with dir := .rx } else none

/-- The hand-over of `BusWrite(b)` to a transmitter with room: the direction is TX after it (42_arbiter.md R183). -/
def sendBus (b : Byte) (s : State) : State :=
  { s with dir := .tx, busTxPending := s.busTxPending + 1, busOut := s.busOut ++ [b] }

/-- `BusWrite(b)`; `none` while its caller holds (42_arbiter.md R183). -/
def busWrite (b : Byte) (s : State) : Option State :=
  if busTxFull s then none else some (sendBus b s)

/-- The opportunistic return to receive (42_arbiter.md R185). -/
def returnToReceive (s : State) : State :=
  if s.dir = .tx ∧ s.busTxPending = 0 then { s with dir := .rx } else s

/-! ### Status frames -/

/-- The bytes of a status frame (30_encoding.md R94): error in the instruction slot, id always `LOCAL_ID`. -/
def statusFrame (c : Config) (err : Byte) (payload : List Byte) : List Byte :=
  frameBytes c.localId (BitVec.ofNat 8 (payload.length + 2)) err payload

/-- The largest status payload, so that its length byte fits (30_encoding.md R94, R95). -/
def maxPayload : Nat := 253

/-- The micro-operations of `EmitStatus(err, payload)`, one `Enqueue` a byte (30_encoding.md R95). -/
def emitStatus (c : Config) (err : Byte) (payload : List Byte) : List Uop :=
  (statusFrame c err payload).map .enqueue

/-! ### Dispatch and calls -/

/-- The common start of the dispatch stage: `main_phase <- DISPATCH`, the `DISPATCH` micro-operation is taken
off, and the rule's own micro-operations stand in its place (44_dispatch.md R220; 43_service_timeout.md R210). -/
def beginDispatch (us : List Uop) (s : State) : State :=
  { s with mainPhase := .dispatch, uops := us ++ s.uops.tail }

/-- The first half of `Call port.op(args)`: the request is recorded and MAIN holds (44_dispatch.md R221). -/
def issueCall (call : Call) (s : State) : State :=
  { s with calls := s.calls ++ [call], pendingCall := some call }

/-- `Call life.restart(b)`, which never returns: the same step records the request and halts the block
(44_dispatch.md R231 to R233). -/
def restartBlock (intoBootloader : Bool) (s : State) : State :=
  { s with
    calls := s.calls ++ [.restart intoBootloader]
    halted := some (if intoBootloader then .bootload else .reset) }

/-- A dispatch rule that is one `EmitStatus`, then done (44_dispatch.md R230, R236). A payload over 253 bytes
raises `DISPATCH_SHAPE` and enqueues nothing (30_encoding.md R95). -/
def dispatchStatus (err : Byte) (payload : List Byte) (s : State) : State :=
  if payload.length ≤ maxPayload then
    beginDispatch (emitStatus s.cfg err payload ++ [.enterPhase .consume]) s
  else raise .dispatchShape s

/-! ### Receiving and rejecting a host byte -/

/-- What every consumed byte does first: `receiveByte()`, one byte fewer to consume, `rx_timer <- 0`,
`uops <- []` (40_classifier.md R110; 43_service_timeout.md R201). -/
def received (s : State) : State :=
  { s with hostIn := s.hostIn.tail, consumeLeft := s.consumeLeft - 1, rxTimer := 0, uops := [] }

/-- The state with byte `b` received and appended to the scratch buffer (40_classifier.md R110). -/
def appended (b : Byte) (s : State) : State := { received s with scratch := s.scratch ++ [b] }

/-- `Append(b)` first, then the rest of the transition; a full scratch buffer raises `SCRATCH_OVERFLOW` and
writes nothing (40_classifier.md R110, R127). -/
def withAppend (b : Byte) (s : State) (k : State → Result) : Result :=
  if scratchFull s then .next (raise .scratchOverflow s) else k (appended b s)

/-- The part of the buffered prefix that a resync relays (40_classifier.md R111). -/
def resyncRelayed (sc : List Byte) : List Byte :=
  if sc.getLast? = some syncByte then sc.dropLast else sc

/-- The part of the buffered prefix that a resync keeps: a final sync byte (40_classifier.md R111). -/
def resyncKept (sc : List Byte) : List Byte :=
  if sc.getLast? = some syncByte then [syncByte] else []

/-- `Resync(reason)` on a state whose scratch buffer holds the rejected byte (40_classifier.md R111). -/
def resync (reason : RejectReason) (s : State) : State :=
  { s with
    uops := s.uops ++ .reject reason :: (resyncRelayed s.scratch).map .busWrite
    scratch := resyncKept s.scratch
    cstate := if s.scratch.getLast? = some syncByte then .seekSync2 else .seekSync1
    rxTimer := if s.scratch.getLast? = some syncByte then 0 else s.rxTimer
    chk := 0#8
    rem := 0
    lastAction := .frameRejected }

/-- The rejected instruction byte (40_classifier.md R119, R122). `chk` and `rem`, which R119 seeds, are cleared
by the resync of the same step. -/
def rejectInstrByte (code : Byte) (s : State) : Result :=
  withAppend code s fun t => .next (resync .badInstr t)

end Sys2Proof.Machine
end

