-- ==== Sys2Proof/Machine/Aggregated.lean ====
section
/-! DEFINITION. The aggregated multi-device read AGG_READ (44_dispatch.md R234 to R238). -/

namespace Sys2Proof.Machine

open Sys2Proof

/-- `AGG_READ`: fewer than two parameters raise `DISPATCH_SHAPE` (44_dispatch.md R234); a failed bounds check is
answered with a range-error status (R235, R236); otherwise `Call agg.aggregatedRead(a, m, N, ids)`, whose bytes
are queued unchanged when it returns (R237). -/
def execAggRead (_target : Target) (params : List Byte) (s : State) : Result :=
  match aggOperands params with
  | some (a, m, ids) =>
      if aggregateFits s.cfg m ids.length then
        .next (issueCall (.aggregatedRead a m (BitVec.ofNat 8 ids.length) ids)
          (beginDispatch [.enterPhase .consume] s))
      else .next (dispatchStatus s.cfg.rangeError [] s)
  | none => .next (raise .dispatchShape s)

end Sys2Proof.Machine
end

