-- ==== Sys2Proof/Machine/FixedShape.lean ====
section
/-! DEFINITION. The fixed-shape instructions PING, RESET and BOOTLOAD (44_dispatch.md R229 to R233). Each meaning
is the atomic step of MAIN that performs the `DISPATCH` micro-operation at the head of `uops`. -/

namespace Sys2Proof.Machine

open Sys2Proof

/-- `PING`: `EmitStatus(0x00, [])` (44_dispatch.md R230). The declared length plays no part. -/
def execPing (_len : Byte) (s : State) : Result := .next (dispatchStatus 0x00#8 [] s)

/-- `RESET`: `Call store.eraseConfiguration()`, after whose return `Call life.restart(false)` halts the block
(44_dispatch.md R231). -/
def execReset (_len : Byte) (s : State) : Result :=
  .next (issueCall .eraseConfiguration (beginDispatch [.restart false] s))

/-- `BOOTLOAD`: `Call life.restart(true)`, which halts the block in the same step (44_dispatch.md R232). -/
def execBootload (_len : Byte) (s : State) : Result := .next (restartBlock true (beginDispatch [] s))

end Sys2Proof.Machine
end

