-- ==== Sys2Proof/Machine/Register.lean ====
section
/-! DEFINITION. The register instructions READ and WRITE (44_dispatch.md R225, R227, R228). A broadcast frame is
dispatched exactly like a device-addressed one, so the target plays no part. -/

namespace Sys2Proof.Machine

open Sys2Proof

/-- `READ`: `Call store.local_read(a, n)`; the answer becomes a status frame when it returns
(44_dispatch.md R227). Another parameter count raises `DISPATCH_SHAPE`. -/
def execRead (_target : Target) (params : List Byte) (s : State) : Result :=
  match readOperands params with
  | some (a, n) => .next (issueCall (.localRead a n) (beginDispatch [.enterPhase .consume] s))
  | none => .next (raise .dispatchShape s)

/-- `WRITE`: `Call store.local_write(a, d, P − 1)`, no status frame (44_dispatch.md R228). Fewer than two
parameters raise `DISPATCH_SHAPE`. -/
def execWrite (_target : Target) (params : List Byte) (s : State) : Result :=
  match writeOperands params with
  | some (a, ds) =>
      .next (issueCall (.localWrite a ds (BitVec.ofNat 8 ds.length)) (beginDispatch [.enterPhase .consume] s))
  | none => .next (raise .dispatchShape s)

end Sys2Proof.Machine
end

