-- ==== Sys2Proof/Machine/Reject.lean ====
section
/-! DEFINITION. The reject row of the opcode table (40_classifier.md R122). -/

namespace Sys2Proof.Machine

open Sys2Proof

/-- `(reject)`: MAIN consumes the instruction byte in `READ_INSTR`, appends it and resyncs with `BAD_INSTR`
(40_classifier.md R119, R122). The prefix relayed is the one the scratch buffer holds (log 23). -/
def execReject (_id _len code : Byte) (s : State) : Result := rejectInstrByte code s

end Sys2Proof.Machine
end

