-- ==== Sys2Proof/Machine/Dispatch.lean ====
section
/-! DEFINITION. One arm per instruction (44_dispatch.md R220; 40_classifier.md R122). -/

namespace Sys2Proof.Machine

open Sys2Proof

def exec (i : Instr) (s : State) : Host.Outcome State Fault Refusal :=
  match i with
  | .ping len => Sys2Proof.Machine.execPing len s
  | .read target params => Sys2Proof.Machine.execRead target params s
  | .write target params => Sys2Proof.Machine.execWrite target params s
  | .reset len => Sys2Proof.Machine.execReset len s
  | .bootload len => Sys2Proof.Machine.execBootload len s
  | .aggRead target params => Sys2Proof.Machine.execAggRead target params s
  | .reject id len code => Sys2Proof.Machine.execReject id len code s

end Sys2Proof.Machine
end

