-- ==== Sys2Proof/Machine/Env.lean ====
section
/-! DEFINITION. The moves of ENV: the port events, the executor's liberties during an aggregated read, and the
returns of calls (00_scope.md R10; 42_arbiter.md R184, R187, R192; 44_dispatch.md R221 to R223). -/

namespace Sys2Proof.Machine

open Sys2Proof

/-- MAIN holds in `agg.aggregatedRead`, the only call with liberties beyond TICK and BUSRX (44_dispatch.md R222). -/
def inAggregatedRead (s : State) : Bool :=
  match s.pendingCall with
  | some (.aggregatedRead _ _ _ _) => true
  | _ => false

/-- The executor may move: MAIN holds in `agg.aggregatedRead` (44_dispatch.md R222), and the executor itself does
not hold in a bus request (42_arbiter.md R182, R187). -/
def executorFree (s : State) : Bool := inAggregatedRead s && s.executorHold.isNone

/-- A liberty that R222 grants the executor; where the executor may not move ENV has no such move. -/
def executorMove (s t : State) : Result :=
  if executorFree s then .next t else .refused .noSuchMove

/-- A bus request, where the transmitter lets it through (42_arbiter.md R182, R183). -/
def attempt : BusRequest → State → Option State
  | .switchToReceive, s => switchToReceive s
  | .busWrite b, s => busWrite b s

/-- The executor makes a bus request, or makes it again: it completes, or the executor holds in it
(42_arbiter.md R182, R183, R187). -/
def requestBus (r : BusRequest) (s : State) : State :=
  match attempt r s with
  | some t => { t with executorHold := none }
  | none => { s with executorHold := some r }

/-- The request in which the executor holds is tested again (42_arbiter.md R182: "only ENV's `tx_done` steps
release it"). -/
def retryHeld (s : State) : State :=
  match s.executorHold with
  | some r => requestBus r s
  | none => s

/-- `tx_done`: the oldest byte has left the transmitter (42_arbiter.md R184), which releases an executor that holds
for it, in the same step (R182's example). Log 29. -/
def txDone (s : State) : State := retryHeld { s with busTxPending := s.busTxPending - 1 }

/-- The `return(result)` step of the outstanding call, after which MAIN goes on (44_dispatch.md R221, R223):
`local_read`'s answer becomes the micro-operations of a status frame (R227), `aggregatedRead`'s bytes one
`Enqueue` each (R237), and it may return only with pass-through restored and while the executor does not hold
(42_arbiter.md R187). -/
def returnCall (r : CallResult) (s : State) : Result :=
  match s.pendingCall, r with
  | some (.localRead _ _), .read err data =>
      if data.length ≤ maxPayload then
        .next { s with pendingCall := none, uops := emitStatus s.cfg err data ++ s.uops }
      else .next (raise .dispatchShape s)
  | some (.localWrite _ _ _), .status _ => .next { s with pendingCall := none }
  | some .eraseConfiguration, .done => .next { s with pendingCall := none }
  | some (.aggregatedRead _ _ _ _), .bytes bs =>
      if s.passthrough && s.executorHold.isNone then
        .next { s with pendingCall := none, uops := bs.map .enqueue ++ s.uops }
      else .refused .noSuchMove
  | _, _ => .refused .noSuchMove

/-- One ENV move. Where ENV has no such move the model refuses (log 4). -/
def envMove (e : EnvMove) (s : State) : Result :=
  match e with
  | .txDone =>
      if 1 ≤ s.busTxPending then .next (txDone s) else .refused .noSuchMove
  | .hostByte b => .next { s with hostIn := s.hostIn ++ [b] }
  | .setConnected v => .next { s with hostConnected := v }
  | .setWriteReady v => .next { s with writeReady := v }
  | .setTimeouts receive send =>
      if s.cfg.thresholdOk receive && s.cfg.thresholdOk send then
        .next { s with receiveTimeout := receive, sendTimeout := send }
      else .refused .noSuchMove
  | .modeSet v => executorMove s { s with passthrough := v }
  | .dirTransmit => executorMove s (switchToTransmit s)
  | .dirReceive => executorMove s (requestBus .switchToReceive s)
  | .executorWrite b => executorMove s (requestBus (.busWrite b) s)
  | .clearCapture => executorMove s { s with cap := [] }
  | .ret r => returnCall r s

end Sys2Proof.Machine
end

