-- ==== Sys2Proof/Machine/Interrupts.lean ====
section
/-! DEFINITION. The two interrupt contexts, each handler invocation one atomic step (60_exceptions.md R258 to R262;
42_arbiter.md R189 to R191). -/

namespace Sys2Proof.Machine

open Sys2Proof

/-- The TICK handler: all three timers advance in one step (60_exceptions.md R262). -/
def tick (s : State) : State :=
  { s with
    rxTimer := countTimer s.cfg s.rxTimer
    sendTimer := countTimer s.cfg s.sendTimer
    busTimer := countTimer s.cfg s.busTimer }

/-- The write of a captured byte into a buffer with room (42_arbiter.md R190). -/
def pushCapture (b : Byte) (s : State) : State := { s with cap := s.cap ++ [b], busTimer := 0 }

/-- A bus byte offered by ENV. With `dir = TX` there is no BUSRX step and the byte is lost (42_arbiter.md R186);
in pass-through mode it is enqueued for the host (R189); in capture mode it is captured (R190). -/
def busRx (b : Byte) (s : State) : State :=
  match s.dir with
  | .tx => s
  | .rx =>
      if s.passthrough then enqueue b s
      else if captureFull s then raise .captureOverflow s
      else pushCapture b s

end Sys2Proof.Machine
end

