-- ==== Sys2Proof/Machine/Classifier.lean ====
section
/-! DEFINITION. The inbound packet classifier: one transition per consumed host byte, one definition per rule of
40_classifier.md (R110 to R130). Each is one atomic step of MAIN; the output micro-operations it leaves in `uops`
are performed afterwards. -/

namespace Sys2Proof.Machine

open Sys2Proof

/-- `SEEK_SYNC1` (40_classifier.md R112). -/
def consumeSeekSync1 (b : Byte) (s : State) : Result :=
  let t := received s
  if b = syncByte then
    .next { t with scratch := [syncByte], cstate := .seekSync2, lastAction := .buffered }
  else .next { t with uops := [.busWrite b], lastAction := .passedThrough }

/-- `SEEK_SYNC2` (40_classifier.md R113). -/
def consumeSeekSync2 (b : Byte) (s : State) : Result :=
  withAppend b s fun t =>
    if b = syncByte then .next { t with cstate := .readId, lastAction := .buffered }
    else .next (resync .badSync2 t)

/-- `READ_ID`, with the three-sync rule (40_classifier.md R114). -/
def consumeReadId (b : Byte) (s : State) : Result :=
  withAppend b s fun t =>
    if b = syncByte then
      match t.scratch with
      | b0 :: b1 :: _ =>
          .next { t with uops := [.busWrite b0], scratch := [b0, b1], lastAction := .buffered }
      | _ => .refused .noRule
    else .next { t with cstate := .readLen, lastAction := .buffered }

/-- `READ_LEN`, foreign identifier: the prefix is relayed and the rest of the frame counted down; `L = 0` owes
nothing (40_classifier.md R115, R116). -/
def relayForeign (b : Byte) (t : State) : State :=
  { t with
    uops := t.scratch.map .busWrite
    scratch := []
    cstate := if b = 0#8 then .seekSync1 else .relayRemainder
    rem := if b = 0#8 then t.rem else b.toNat
    lastAction := .passedThrough }

/-- `READ_LEN`, local or broadcast identifier, length out of range: one range-error status, then the resync
(40_classifier.md R118). -/
def rejectLength (t : State) : State :=
  resync .lenRange { t with uops := emitStatus t.cfg t.cfg.rangeError [] }

/-- `READ_LEN` (40_classifier.md R115 to R118). -/
def consumeReadLen (b : Byte) (s : State) : Result :=
  match idView s.scratch with
  | none => .refused .noRule
  | some id =>
      withAppend b s fun t =>
        if (s.cfg.targetOf id).isNone then .next (relayForeign b t)
        else if s.cfg.lengthLegal b then .next { t with cstate := .readInstr, lastAction := .buffered }
        else .next (rejectLength t)

/-- `READ_INSTR`, admitted instruction: the checksum and the count are seeded and the next state is the kind's
(40_classifier.md R119 to R121). -/
def acceptInstrByte (k : Kind) (id len b : Byte) (t : State) : State :=
  { t with
    chk := id + len + b
    rem := len.toNat - 1
    cstate := stateAfterInstr k
    lastAction := .buffered }

/-- `READ_INSTR` (40_classifier.md R119 to R122). -/
def consumeReadInstr (b : Byte) (s : State) : Result :=
  match idView s.scratch, lenView s.scratch with
  | some id, some len =>
      match s.cfg.classOf id b with
      | .collect k => withAppend b s fun t => .next (acceptInstrByte k id len b t)
      | .confirm k => withAppend b s fun t => .next (acceptInstrByte k id len b t)
      | .rejected => rejectInstrByte b s
  | _, _ => .refused .noRule

/-- A checksum byte that accepts: the scratch state is reset and the packet goes to the dispatch stage
(40_classifier.md R123, R129). -/
def acceptFrame (k : Kind) (p : Packet) (t : State) : State :=
  { t with
    scratch := []
    chk := 0#8
    rem := 0
    cstate := .seekSync1
    uops := [.dispatch k p]
    lastAction := .frameComplete }

/-- The confirm states: exactly one byte is read, whatever `LEN` declared (40_classifier.md R123 to R126). -/
def consumeConfirm (k : Kind) (b : Byte) (s : State) : Result :=
  withAppend b s fun t =>
    if checksumAccepts s.chk b then
      match packetView s.scratch [] with
      | some p => .next (acceptFrame k p t)
      | none => .refused .noRule
    else .next (resync .checksum t)

/-- `COLLECT_PARAMS`: a parameter byte while `rem ≥ 2` (40_classifier.md R128), the checksum byte at `rem = 1`
(R129). -/
def consumeCollect (b : Byte) (s : State) : Result :=
  match s.rem with
  | 0 => .refused .noRule
  | 1 =>
      withAppend b s fun t =>
        if checksumAccepts s.chk b then
          match packetView s.scratch (s.scratch.drop 5) with
          | some p =>
              match s.cfg.collectKindOf p.instr with
              | some k => .next (acceptFrame k p t)
              | none => .refused .noRule
          | none => .refused .noRule
        else .next (resync .checksum t)
  | n + 2 =>
      withAppend b s fun t => .next { t with rem := n + 1, chk := s.chk + b, lastAction := .buffered }

/-- `RELAY_REMAINDER` (40_classifier.md R130). -/
def consumeRelay (b : Byte) (s : State) : Result :=
  match s.rem with
  | 0 => .refused .noRule
  | n + 1 =>
      .next { received s with
        uops := [.busWrite b]
        rem := n
        cstate := if n = 0 then .seekSync1 else .relayRemainder
        lastAction := .passedThrough }

/-- `consume(b)`: one classifier transition (40_classifier.md R110). -/
def consume (b : Byte) (s : State) : Result :=
  match s.cstate with
  | .seekSync1 => consumeSeekSync1 b s
  | .seekSync2 => consumeSeekSync2 b s
  | .readId => consumeReadId b s
  | .readLen => consumeReadLen b s
  | .readInstr => consumeReadInstr b s
  | .resetConfirm => consumeConfirm .reset b s
  | .bootloadConfirm => consumeConfirm .bootload b s
  | .pingConfirm => consumeConfirm .ping b s
  | .collectParams => consumeCollect b s
  | .relayRemainder => consumeRelay b s

end Sys2Proof.Machine
end

