-- ==== Sys2Proof/Machine/Egress.lean ====
section
/-! DEFINITION. The flush policy `tryFlush` of the host egress queue (41_egress.md R163 to R169). -/

namespace Sys2Proof.Machine

open Sys2Proof

/-- The micro-operations of `FlushFull()` (41_egress.md R166), then the end of the phase. -/
def flushFullUops (frame : Nat) : List Uop :=
  List.replicate frame .flushByte ++ [.hostCommit, .resetSendTimer, .oweEmptyFrame, .enterPhase .waitConn]

/-- The micro-operations of `FlushPartial(n)` (41_egress.md R167), then the end of the phase. -/
def flushPartialUops (n : Nat) : List Uop :=
  List.replicate n .flushByte ++ [.hostCommit, .resetSendTimer, .enterPhase .waitConn]

/-- The micro-operations of `FlushEmpty()` (41_egress.md R168; 43_service_timeout.md R201), then the end of the
phase. -/
def flushEmptyUops : List Uop := [.hostCommit, .clearEmptyFrame, .enterPhase .waitConn]

/-- `tryFlush()`: one atomic snapshot of the count, the send timer and the obligation, and the choice of the first
case that applies (41_egress.md R164); where none does, nothing is flushed and the phase ends (R169). -/
def tryFlush (s : State) : State :=
  if s.cfg.egressFrame ≤ s.egress.length then { s with uops := flushFullUops s.cfg.egressFrame ++ s.uops }
  else if 1 ≤ s.egress.length ∧ sendTimedOut s then { s with uops := flushPartialUops s.egress.length ++ s.uops }
  else if s.egress.length = 0 ∧ s.zlpOwed then { s with uops := flushEmptyUops ++ s.uops }
  else { s with mainPhase := .waitConn }

end Sys2Proof.Machine
end

