-- ==== Sys2Proof/Machine/Service.lean ====
section
/-! DEFINITION. MAIN's service cycle: the phases, the micro-operations, and the timeout recovery
(43_service_timeout.md). -/

namespace Sys2Proof.Machine

open Sys2Proof

/-- Abandonment of a partial frame: the classifier goes idle and every buffered byte is relayed as plain data
(43_service_timeout.md R206, R207). `last_action` is not written. -/
def abandon (s : State) : State :=
  { s with
    uops := .reject .rxTimeout :: s.scratch.map .busWrite ++ [.enterPhase .flush]
    scratch := []
    chk := 0#8
    rem := 0
    cstate := .seekSync1 }

/-- MAIN's step between micro-operations (43_service_timeout.md R200). `RX_RETURN` is the one atomic step of
42_arbiter.md R185; `CONSUME` then begins with the micro-operation that counts the host bytes (R203). The `FLUSH`
phase calls `tryFlush` only if `isWriteReady()` (41_egress.md R163): DESIGN CHOICE, the spec does not say whether
that test and `tryFlush`'s snapshot (R164) are one atomic step or two, and the model makes them two, so that other
agents may move between them. Log 7, log 9, log 27. -/
def phaseStep (s : State) : Result :=
  match s.mainPhase with
  | .waitConn => if s.hostConnected then .next { s with mainPhase := .rxReturn } else .next s
  | .rxReturn => .next { returnToReceive s with mainPhase := .consume, uops := [.countInput] }
  | .consume =>
      if s.consumeLeft = 0 then .next { s with mainPhase := .timeout }
      else
        match s.hostIn with
        | b :: _ => consume b s
        | [] => .refused .hostByteMissing
  | .timeout => if rxTimedOut s then .next (abandon s) else .next { s with mainPhase := .flush }
  | .flush => if s.writeReady then .next { s with uops := [.tryFlush] } else .next { s with mainPhase := .waitConn }
  | .dispatch => .next { s with mainPhase := .consume }

/-- One micro-operation of MAIN, `rest` standing after it; where it holds nothing changes, where it faults only
the fault record does (43_service_timeout.md R201). -/
def performUop (u : Uop) (rest : List Uop) (s : State) : Result :=
  let t : State := { s with uops := rest }
  match u with
  | .busWrite b => .next ((busWrite b t).getD s)
  | .enqueue b => if egressFull s then .next (raise .egressOverflow s) else .next (pushEgress b t)
  | .reject r => .next { t with rejects := s.rejects ++ [r] }
  | .dispatch _ _ => .refused .packetNotRetained
  | .countInput => .next { t with consumeLeft := s.hostIn.length }
  | .tryFlush => .next (tryFlush t)
  | .flushByte =>
      match flushOne t with
      | some t' => .next t'
      | none => .refused .dequeueEmpty
  | .hostCommit => .next (hostCommit t)
  | .resetSendTimer => .next { t with sendTimer := 0 }
  | .oweEmptyFrame => .next { t with zlpOwed := true }
  | .clearEmptyFrame => .next { t with zlpOwed := false }
  | .restart b => .next (restartBlock b t)
  | .enterPhase p => .next { t with mainPhase := p }

/-- MAIN's next step where it runs no instruction: it holds in an outstanding call (44_dispatch.md R221), or
performs its next micro-operation, or takes its next phase step. -/
def mainMicroStep (s : State) : Result :=
  match s.pendingCall with
  | some _ => .next s
  | none =>
      match s.uops with
      | u :: rest => performUop u rest s
      | [] => phaseStep s

end Sys2Proof.Machine
end

