-- ==== Sys2Proof/Machine/Fetch.lean ====
section
/-! DEFINITION. Which instruction MAIN's next step runs, and the scheduler's pick (20_memory.md R66). -/

namespace Sys2Proof.Machine

open Sys2Proof

/-- The reject-row instruction whose code is the next host byte, where MAIN is about to consume it in
`READ_INSTR` and no rule admits it (40_classifier.md R122). -/
def fetchRejected (s : State) : Option Instr :=
  match s.mainPhase, s.cstate, s.consumeLeft, s.hostIn, idView s.scratch, lenView s.scratch with
  | .consume, .readInstr, _ + 1, b :: _, some id, some len =>
      if s.cfg.classOf id b = .rejected then some (.reject id len b) else none
  | _, _, _, _, _, _ => none

/-- The instruction that MAIN's next step runs, if it runs one: the `DISPATCH` micro-operation at the head of
`uops` (44_dispatch.md R220), or a rejected instruction byte. While MAIN holds in a call it runs none (R221). -/
def fetch (s : State) : Option Instr :=
  match s.pendingCall with
  | some _ => none
  | none =>
      match s.uops with
      | .dispatch k p :: _ => decodeDispatch s.cfg k p
      | _ :: _ => none
      | [] => fetchRejected s

/-- The move the scheduler picks: the next one fixed, or else a free one (60_exceptions.md R260). Log 2. -/
def nextMove (s : State) : Move :=
  match s.moves with
  | m :: _ => m
  | [] => Config.freeMove s.fresh

/-- The state with that move taken off the schedule. -/
def takeMove (s : State) : State :=
  { s with moves := s.moves.tail, fresh := if s.moves.isEmpty then s.fresh + 1 else s.fresh }

/-- The state in which MAIN's next step runs the device-addressed instruction of an opcode-table word: the
accepted packet stands in `uops`, or, for a rejected code, the byte is about to be consumed in `READ_INSTR`
after the prefix `FF FF LOCAL_ID 02`. The block is running and MAIN moves next. Log 15. -/
def placeTableWord (s : State) (nbits w : Nat) : State :=
  let p := tablePacket s.cfg nbits w
  let ready : State :=
    { s with fault := none, halted := none, pendingCall := none, mainPhase := .consume, moves := .main :: s.moves }
  match s.cfg.classOf p.id p.instr with
  | .collect k => { ready with uops := [.dispatch k p] }
  | .confirm k => { ready with uops := [.dispatch k p] }
  | .rejected =>
      { ready with
        uops := []
        cstate := .readInstr
        scratch := [syncByte, syncByte, p.id, p.len]
        hostIn := p.instr :: s.hostIn
        consumeLeft := s.consumeLeft + 1 }

end Sys2Proof.Machine
end

