-- ==== Sys2Proof/Machine/Step.lean ====
section
/-! DEFINITION. One step of the machine: one atomic step of one agent (20_memory.md R66). -/

namespace Sys2Proof.Machine

open Sys2Proof

/-- MAIN's step: the instruction it fetches, or else its next micro-operation. -/
def mainStep (s : State) : Result :=
  match fetch s with
  | some i => exec i s
  | none => mainMicroStep s

/-- The step of the agent that the move names. -/
def runMove (m : Move) (s : State) : Result :=
  match m with
  | .main => mainStep s
  | .tick => .next (tick s)
  | .busRx b => .next (busRx b s)
  | .env e => envMove e s

/-- One atomic step. A faulted or halted block takes none (60_exceptions.md R256; 44_dispatch.md R233), and an
ill-formed configuration is refused (00_scope.md R12). -/
def step (s : State) : Host.Outcome State Fault Refusal :=
  match stopReason s with
  | some reason => .fault reason
  | none => if configOk s then runMove (nextMove s) (takeMove s) else .refused .illFormedConfig

/-- `s` with the instruction of an opcode-table word placed where MAIN's next step runs it. -/
def State.withFetchWord (s : State) (nbits w : Nat) : State := placeTableWord s nbits w

end Sys2Proof.Machine
end

