-- ==== Sys2Proof/Safety.lean ====
section
/-! DEFINITION. The terms in which claims speak of the machine: running states, the invariant, the byte streams a
rule orders, and the named premises about infinite runs (70_reset_and_hazards.md R287, R297). -/

namespace Sys2Proof.Machine

open Sys2Proof

/-- A state from which agents take steps: nothing stopped it and its configuration is well-formed
(60_exceptions.md R259; 00_scope.md R12). -/
def Running (s : State) : Prop := stopReason s = none ∧ configOk s = true

/-- `n` moves of MAIN in a row. -/
def mains (n : Nat) : List Move := List.replicate n .main

/-- `n` steps, stopping at the first fault or refusal: `Host.Core.run Sys2Proof.core` at its own types. -/
def runSteps : Nat → State → Result
  | 0, s => .next s
  | n + 1, s =>
      match step s with
      | .next t => runSteps n t
      | .fault r => .fault r
      | .refused r => .refused r

/-- Which kind of answer belongs to which call (44_dispatch.md R223); `life.restart` has none. -/
def answers : Call → CallResult → Bool
  | .localRead _ _, .read _ _ => true
  | .localWrite _ _ _, .status _ => true
  | .eraseConfiguration, .done => true
  | .aggregatedRead _ _ _ _, .bytes _ => true
  | _, _ => false

/-! ### Byte streams -/

/-- The bytes that the micro-operations of a list hand to the bus, in order. -/
def relayed : List Uop → List Byte
  | [] => []
  | .busWrite b :: us => b :: relayed us
  | _ :: us => relayed us

/-- The bytes that the micro-operations of a list queue for the host, in order. -/
def queued : List Uop → List Byte
  | [] => []
  | .enqueue b :: us => b :: queued us
  | _ :: us => queued us

/-- How many bytes the micro-operations of a list still take from the egress queue. -/
def flushesPending : List Uop → Nat
  | [] => 0
  | .flushByte :: us => flushesPending us + 1
  | _ :: us => flushesPending us

/-- Every byte that a list of micro-operations still writes to the host is committed later in it
(41_egress.md R166, R167). -/
def writesCommitted : List Uop → Bool
  | [] => true
  | .flushByte :: us => us.contains .hostCommit && writesCommitted us
  | _ :: us => writesCommitted us

/-- The micro-operations that may stand before others in the work left of a phase (43_service_timeout.md R200, R201,
R206; 41_egress.md R166 to R168). -/
def mayPrecede : MainPhase → Uop → Bool
  | .consume, .busWrite _ | .consume, .enqueue _ | .consume, .reject _ => true
  | .timeout, .busWrite _ | .timeout, .reject _ => true
  | .flush, .flushByte | .flush, .hostCommit | .flush, .resetSendTimer | .flush, .oweEmptyFrame
  | .flush, .clearEmptyFrame => true
  | .dispatch, .enqueue _ => true
  | _, _ => false

/-- The micro-operations that may stand last: in `CONSUME` any of a transition's, elsewhere the one that ends the
phase, the dispatch or the run (43_service_timeout.md R200, R201, R210; 44_dispatch.md R231). -/
def mayEnd : MainPhase → Uop → Bool
  | .consume, .busWrite _ | .consume, .enqueue _ | .consume, .reject _ | .consume, .dispatch _ _
  | .consume, .countInput => true
  | .timeout, .enterPhase .flush => true
  | .flush, .tryFlush | .flush, .enterPhase .waitConn => true
  | .dispatch, .enterPhase .consume | .dispatch, .restart false => true
  | _, _ => false

/-- The work left in `uops` is work of the phase: each micro-operation belongs to it, and the last one ends it. -/
def workOk (p : MainPhase) : List Uop → Bool
  | [] => true
  | [u] => mayEnd p u
  | u :: v :: us => mayPrecede p u && workOk p (v :: us)

/-- The bytes that BUSRX is offered in a schedule. -/
def offered : List Move → List Byte
  | [] => []
  | .busRx b :: ms => b :: offered ms
  | _ :: ms => offered ms

/-- Every byte ever queued for the host, in order: committed, written, or still queued (41_egress.md R172). -/
def hostStream (s : State) : List Byte := s.hostOut.flatten ++ s.hostFrame ++ s.egress

/-! ### The invariant -/

/-- A confirm state's frame: local, of legal length, with its running sum and count seeded
(40_classifier.md R119, R121). -/
def confirmOk (s : State) (code : Byte) : Bool :=
  match s.scratch with
  | [s0, s1, id, len, op] =>
      s0 == syncByte && s1 == syncByte && id == s.cfg.localId && s.cfg.lengthLegal len && op == code
        && s.chk == id + len + op && s.rem + 1 == len.toNat
  | _ => false

/-- A parameter-collecting frame: retained, of legal length, with its running sum so far and the bytes it still
owes (40_classifier.md R119, R120, R128, R131). -/
def collectOk (s : State) : Bool :=
  match s.scratch with
  | s0 :: s1 :: id :: len :: op :: ps =>
      s0 == syncByte && s1 == syncByte && (s.cfg.targetOf id).isSome && s.cfg.lengthLegal len
        && (s.cfg.collectKindOf op).isSome && s.chk == sum8 (id :: len :: op :: ps)
        && decide (1 ≤ s.rem) && s.rem + ps.length + 1 == len.toNat
  | _ => false

/-- An identifier that may stand in the scratch buffer, and, once the length stands there too, a retained
identifier with a legal length (40_classifier.md R114 to R117). -/
def headerOk (s : State) : Bool :=
  match s.scratch with
  | [s0, s1, id] => s0 == syncByte && s1 == syncByte && id != syncByte
  | [s0, s1, id, len] => s0 == syncByte && s1 == syncByte && (s.cfg.targetOf id).isSome && s.cfg.lengthLegal len
  | _ => false

/-- What each classifier state says of the scratch buffer, `chk` and `rem` (40_classifier.md R112 to R131). -/
def classifierOk (s : State) : Bool :=
  match s.cstate with
  | .seekSync1 => s.scratch == [] && s.chk == 0#8 && s.rem == 0
  | .seekSync2 => s.scratch == [syncByte] && s.chk == 0#8 && s.rem == 0
  | .readId => s.scratch == [syncByte, syncByte] && s.chk == 0#8 && s.rem == 0
  | .readLen => headerOk s && s.scratch.length == 3 && s.chk == 0#8 && s.rem == 0
  | .readInstr => headerOk s && s.scratch.length == 4 && s.chk == 0#8 && s.rem == 0
  | .pingConfirm => confirmOk s s.cfg.opPing
  | .resetConfirm => confirmOk s s.cfg.opReset
  | .bootloadConfirm => confirmOk s s.cfg.opBootload
  | .collectParams => collectOk s
  | .relayRemainder => s.scratch == [] && s.chk == 0#8 && decide (1 ≤ s.rem ∧ s.rem ≤ 255)

/-- What a packet must be to reach the dispatch stage as kind `k` (44_dispatch.md R220, R229). -/
def packetOk (c : Config) (k : Kind) (p : Packet) : Bool :=
  p.instr == c.codeOf k && c.lengthLegal p.len
    && match k with
      | .ping | .reset | .bootload => p.id == c.localId && p.params.isEmpty
      | .read | .write | .aggRead => (c.targetOf p.id).isSome && p.params.length + 2 == p.len.toNat

/-- The invariant of the machine: what the spec says of every reachable state, in the model's terms. Clauses that rest
on a choice of the model or on an inference that the spec marks as its own say so. -/
structure Inv (s : State) : Prop where
  /-- the configuration is well-formed (00_scope.md R12) -/
  config : configOk s = true
  /-- the classifier's registers fit its state (40_classifier.md R112 to R130; that they always do is R131, which the
  spec marks as its own inference) -/
  classifier : classifierOk s = true
  /-- each timer fits its width (10_state.md R26; that it is held as a number is log 11) -/
  rxTimer : s.rxTimer < 2 ^ s.cfg.timerWidth
  sendTimer : s.sendTimer < 2 ^ s.cfg.timerWidth
  busTimer : s.busTimer < 2 ^ s.cfg.timerWidth
  /-- the queue and the capture buffer fit their capacities (20_memory.md R76) -/
  egress : s.egress.length ≤ s.cfg.egressCap
  cap : s.cap.length ≤ s.cfg.captureCap
  /-- the transmitter fits its depth (10_state.md R31) -/
  busTx : s.busTxPending ≤ s.cfg.busTxDepth
  /-- nothing is in flight while the block listens (42_arbiter.md R180, which the spec marks as its own inference) -/
  listening : s.dir = .rx → s.busTxPending = 0
  /-- a flush in progress has its bytes in the queue (41_egress.md R162; the flush micro-operations are log 8) -/
  flushes : flushesPending s.uops ≤ s.egress.length
  /-- a flush in progress ends in its commit (41_egress.md R166, R167; the uncommitted bytes are log 22, the
  micro-operations log 8) -/
  commits : writesCommitted s.uops = true
  /-- bytes stand uncommitted only during a flush (41_egress.md R163; the field is log 22) -/
  uncommitted : Uop.hostCommit ∈ s.uops ∨ s.hostFrame = []
  /-- only validated packets wait for dispatch (44_dispatch.md R220) -/
  packets : ∀ k p, Uop.dispatch k p ∈ s.uops → packetOk s.cfg k p = true
  /-- every counted host byte is there (43_service_timeout.md R203; the list is log 19) -/
  counted : s.consumeLeft ≤ s.hostIn.length
  /-- the micro-operations left are those of the phase (43_service_timeout.md R200, R201), the model's markers among
  them (log 8) -/
  work : workOk s.mainPhase s.uops = true
  /-- MAIN calls out only in the DISPATCH phase (42_arbiter.md R192), which goes on when the call returns
  (43_service_timeout.md R210) by a micro-operation that the model left in `uops` (log 8) -/
  callPhase : s.pendingCall ≠ none → s.mainPhase = .dispatch ∧ s.uops ≠ []
  /-- the executor holds only in its own poll, and only while a byte is in flight (42_arbiter.md R182, R183, R187);
  that no state lies between the draining and its release is the fused `tx_done` step of log 29 -/
  held : s.executorHold ≠ none → inAggregatedRead s = true ∧ 1 ≤ s.busTxPending
  /-- capture mode is set only during an aggregated read (44_dispatch.md R222, R223) -/
  modeFlag : s.passthrough = false → inAggregatedRead s = true
  /-- a run ends in one way (70_reset_and_hazards.md R298) -/
  oneEnd : s.fault = none ∨ s.halted = none

/-! ### Infinite runs and the named premises about them -/

/-- A run as the sequence of its states (70_reset_and_hazards.md R298), the schedule given beside it: the step from
`tr n` is that of the move `sched n`. Log 18. -/
def IsRun (sched : Nat → Move) (tr : Nat → State) : Prop :=
  ∀ n, step { tr n with moves := [sched n] } = .next (tr (n + 1))

/-- `EgressProvisioned`: no step enqueues into a full queue (70_reset_and_hazards.md R287). -/
def EgressProvisioned (tr : Nat → State) : Prop := ∀ n, (tr n).fault ≠ some .egressOverflow

/-- `FairMain` (70_reset_and_hazards.md R297). -/
def FairMain (sched : Nat → Move) : Prop := ∀ n, ∃ m, n ≤ m ∧ sched m = .main

/-- `FairTick` (R297). -/
def FairTick (sched : Nat → Move) : Prop := ∀ n, ∃ m, n ≤ m ∧ sched m = .tick

/-- `FairDrain` (R297; 42_arbiter.md R188). -/
def FairDrain (sched : Nat → Move) (tr : Nat → State) : Prop :=
  ∀ n, 1 ≤ (tr n).busTxPending → ∃ m, n ≤ m ∧ sched m = .env .txDone

/-- `FairCall` (R297): every call except `life.restart`, which is never pending, returns. -/
def FairCall (tr : Nat → State) : Prop :=
  ∀ n, (tr n).pendingCall ≠ none → ∃ m, n ≤ m ∧ (tr m).pendingCall = none

/-- MAIN has completed a whole service cycle between the states `m` and `k` of a run: it left `WAIT_CONN` and came
back to it (43_service_timeout.md R200). -/
def CycleDone (tr : Nat → State) (m k : Nat) : Prop :=
  ∃ i j, m ≤ i ∧ i < j ∧ j ≤ k ∧ (tr i).mainPhase = .waitConn ∧ (tr (i + 1)).mainPhase = .rxReturn
    ∧ (tr j).mainPhase = .waitConn

/-- `FairConn` (R297): again and again the host connects and stays connected until a cycle is complete. It is a
premise about ENV alone: where MAIN completes no cycle, the host stays connected for ever. Log 18. -/
def FairConn (tr : Nat → State) : Prop :=
  ∀ n, ∃ m, n ≤ m ∧ ∀ k, m ≤ k → ¬ CycleDone tr m k → (tr k).hostConnected = true

/-- `FairReady` (R297): in infinitely many `FLUSH` phases the step that tests `isWriteReady()` finds it true. -/
def FairReady (sched : Nat → Move) (tr : Nat → State) : Prop :=
  ∀ n, ∃ m, n ≤ m ∧ (tr m).mainPhase = .flush ∧ (tr m).uops = [] ∧ sched m = .main ∧ (tr m).writeReady = true

end Sys2Proof.Machine
end

