-- ==== Sys2Proof/Certificates/Slice0/Obligations.lean ====
section
/-! DEFINITION. The statements for the provers, from the numbered rules of spec/. OBLIGATIONS.json says of each
what it claims and which rules it cites. A run is `runSteps`, the host's `Core.run` at
the machine's own types. -/

open Sys2Proof Sys2Proof.Machine

/-! ### Encoding -/

/-- Decoding the frame of a well-formed instruction gives that instruction and leaves the bytes after it.
(30_encoding.md R82, R84 to R87.) -/
def Obligations.DecodeInvertsEncode : Prop :=
  ∀ (c : Config) (i : Instr) (rest : List Byte), c.wf = true → i.wf c = true →
    decode c (encode c i ++ rest) = .ok (i, rest)

/-- A byte sequence the decoder accepts is the frame of a well-formed instruction, and of no other.
(30_encoding.md R82, R84 to R87.) -/
def Obligations.DecodedBytesAreTheEncodedFrame : Prop :=
  ∀ (c : Config) (bs : List Byte) (i : Instr) (rest : List Byte), c.wf = true →
    decode c bs = .ok (i, rest) → i.wf c = true ∧ bs = encode c i ++ rest

/-- The checksum law: the sum of id to checksum is 0xFF exactly when the checksum is the complement of the sum of
the bytes before it. (30_encoding.md R84.) -/
def Obligations.ChecksumValidExactlyForTheComplement : Prop :=
  ∀ (bs : List Byte) (chk : Byte),
    (checksumValid (bs ++ [chk]) = true ↔ sum8 (bs ++ [chk]) = 0xFF#8)
      ∧ (checksumValid (bs ++ [chk]) = true ↔ chk = ~~~ (sum8 bs))

/-- Words written out from the encodings of the spec: the example frames of 30_encoding.md and a rejected code.
(30_encoding.md R87 to R93, with RC's codes (log 1).) -/
def Obligations.SpecExampleFramesDecode : Prop :=
  decode Config.rc [0xFF#8, 0xFF#8, 0x01#8, 0x02#8, 0x01#8, 0xFB#8] = .ok (.ping 0x02#8, [])
    ∧ decode Config.rc [0xFF#8, 0xFF#8, 0x01#8, 0x04#8, 0x02#8, 0x2B#8, 0x01#8, 0xCC#8]
        = .ok (.read .device [0x2B#8, 0x01#8], [])
    ∧ decode Config.rc [0xFF#8, 0xFF#8, 0x01#8, 0x04#8, 0x03#8, 0x1E#8, 0x05#8, 0xD4#8]
        = .ok (.write .device [0x1E#8, 0x05#8], [])
    ∧ decode Config.rc [0xFF#8, 0xFF#8, 0x01#8, 0x02#8, 0x06#8, 0xF6#8] = .ok (.reset 0x02#8, [])
    ∧ decode Config.rc [0xFF#8, 0xFF#8, 0x01#8, 0x02#8, 0x08#8, 0xF4#8] = .ok (.bootload 0x02#8, [])
    ∧ decode Config.rc [0xFF#8, 0xFF#8, 0xFE#8, 0x06#8, 0x84#8, 0x24#8, 0x02#8, 0x03#8, 0x04#8, 0x4A#8]
        = .ok (.aggRead .broadcast [0x24#8, 0x02#8, 0x03#8, 0x04#8], [])
    ∧ decode Config.rc [0xFF#8, 0xFF#8, 0xFE#8, 0x02#8, 0x01#8, 0xFE#8]
        = .ok (.reject 0xFE#8 0x02#8 0x01#8, [0xFE#8])

/-- The codes of the registers and records: the ten classifier states 0 to 9, each code naming its state and 10 to 15
naming none; the Actions 0 to 3; the directions 0 and 1; the reject reasons 1 to 5; the faults 1 to 4. (10_state.md
R20, R25, R30; 60_exceptions.md R251, R255; that no other state can be held is log 10.) -/
def Obligations.RegisterAndRecordCodes : Prop :=
  [CState.seekSync1, .seekSync2, .readId, .readLen, .readInstr, .resetConfirm, .bootloadConfirm, .pingConfirm,
      .collectParams, .relayRemainder].map (fun c => c.code.toNat) = [0, 1, 2, 3, 4, 5, 6, 7, 8, 9]
    ∧ (∀ c : CState, cstateOfCode c.code = some c)
    ∧ (∀ v : BitVec 4, cstateOfCode v = none ↔ 10 ≤ v.toNat)
    ∧ [Action.buffered, .passedThrough, .frameComplete, .frameRejected].map (fun a => a.code.toNat) = [0, 1, 2, 3]
    ∧ [Dir.rx, .tx].map (fun d => d.code.toNat) = [0, 1]
    ∧ [RejectReason.badSync2, .lenRange, .badInstr, .checksum, .rxTimeout].map (·.code) = [1, 2, 3, 4, 5]
    ∧ [FaultCode.egressOverflow, .captureOverflow, .dispatchShape, .scratchOverflow].map (·.code) = [1, 2, 3, 4]

/-! ### From host bytes to the instruction that runs -/

/-- MAIN's step at a `DISPATCH` micro-operation is `exec` of the instruction its packet decodes to, on the state
with the move taken off the schedule, which changes no other field. (44_dispatch.md R220; the schedule fields are
the model's (log 2).) -/
def Obligations.StepRunsTheDispatchedInstruction : Prop :=
  ∀ (s : State) (k : Kind) (p : Packet) (rest : List Uop) (i : Instr),
    Running s → nextMove s = .main → s.pendingCall = none → s.uops = .dispatch k p :: rest →
    decodeDispatch s.cfg k p = some i →
      step s = exec i (takeMove s)
        ∧ takeMove s = { s with moves := (takeMove s).moves, fresh := (takeMove s).fresh }

/-- MAIN's step in the CONSUME phase is the classifier's transition on the next host byte; in `READ_INSTR`, where
no rule admits the byte, it is `exec` of the reject row. (40_classifier.md R110, R122; the schedule fields are the
model's (log 2).) -/
def Obligations.StepConsumesTheNextHostByte : Prop :=
  ∀ (s : State) (b : Byte) (rest : List Byte),
    Running s → nextMove s = .main → s.pendingCall = none → s.uops = [] → s.mainPhase = .consume →
    1 ≤ s.consumeLeft → s.hostIn = b :: rest →
      step s = consume b (takeMove s)
        ∧ ∀ id len : Byte, s.cstate = .readInstr → s.scratch = [0xFF#8, 0xFF#8, id, len] →
            s.cfg.classOf id b = .rejected → step s = exec (.reject id len b) (takeMove s)

/-- From idle, MAIN consumes the frame of a well-formed instruction byte by byte and arrives, with nothing relayed
or queued, nothing stopped and one `DISPATCH` left to do, at the state whose next step runs exactly that
instruction. (40_classifier.md R110 to R129.) -/
def Obligations.ClassifierDeliversTheEncodedInstruction : Prop :=
  ∀ (s : State) (i : Instr) (rest : List Byte) (ms : List Move),
    Running s → s.pendingCall = none → s.uops = [] → s.mainPhase = .consume → s.cstate = .seekSync1 →
    i.wf s.cfg = true → (∀ id len code, i ≠ .reject id len code) →
    s.hostIn = encode s.cfg i ++ rest → (encode s.cfg i).length ≤ s.consumeLeft →
    s.moves = mains (encode s.cfg i).length ++ ms →
      ∃ t : State, runSteps (encode s.cfg i).length s = .next t
        ∧ fetch t = some i ∧ (∃ k p, t.uops = [.dispatch k p]) ∧ stopReason t = none
        ∧ t.moves = ms ∧ t.hostIn = rest ∧ t.consumeLeft = s.consumeLeft - (encode s.cfg i).length
        ∧ t.cstate = .seekSync1 ∧ t.scratch = [] ∧ t.lastAction = .frameComplete
        ∧ t.busOut = s.busOut ∧ t.egress = s.egress ∧ t.rejects = s.rejects ∧ t.calls = s.calls

/-- From idle, MAIN consumes the prefix of a frame whose instruction byte no rule admits and arrives at the state
whose next step runs the reject row on that byte. (40_classifier.md R112 to R117, R122.) -/
def Obligations.ClassifierDeliversTheRejectedByte : Prop :=
  ∀ (s : State) (id len code : Byte) (rest : List Byte) (ms : List Move),
    Running s → s.pendingCall = none → s.uops = [] → s.mainPhase = .consume → s.cstate = .seekSync1 →
    (Instr.reject id len code).wf s.cfg = true →
    s.hostIn = encode s.cfg (.reject id len code) ++ rest → 5 ≤ s.consumeLeft → s.moves = mains 5 ++ ms →
      ∃ t : State, runSteps 4 s = .next t
        ∧ fetch t = some (.reject id len code) ∧ t.hostIn = code :: rest ∧ t.moves = .main :: ms
        ∧ t.scratch = [0xFF#8, 0xFF#8, id, len] ∧ t.busOut = s.busOut ∧ t.egress = s.egress

/-- A frame whose checksum byte is wrong runs nothing and queues nothing: it is rejected with CHECKSUM, and its
bytes are relayed, but for a final 0xFF, which is kept. (40_classifier.md R111, R123, R129.) -/
def Obligations.WrongChecksumFrameIsResynced : Prop :=
  ∀ (s : State) (i : Instr) (bad : Byte) (rest : List Byte) (ms : List Move),
    Running s → s.pendingCall = none → s.uops = [] → s.mainPhase = .consume → s.cstate = .seekSync1 →
    i.wf s.cfg = true → (∀ id len code, i ≠ .reject id len code) →
    (encode s.cfg i).getLast? ≠ some bad →
    s.hostIn = (encode s.cfg i).dropLast ++ bad :: rest → (encode s.cfg i).length ≤ s.consumeLeft →
    s.moves = mains (encode s.cfg i).length ++ ms →
      ∃ t : State, runSteps (encode s.cfg i).length s = .next t
        ∧ t.uops = .reject .checksum :: (relayed t.uops).map .busWrite
        ∧ relayed t.uops ++ t.scratch = (encode s.cfg i).dropLast ++ [bad]
        ∧ t.scratch = (if bad = 0xFF#8 then [0xFF#8] else [])
        ∧ t.cstate = (if bad = 0xFF#8 then .seekSync2 else .seekSync1)
        ∧ t.lastAction = .frameRejected ∧ t.egress = s.egress ∧ t.calls = s.calls

/-! ### The instructions -/

/-- PING completes in every state: the dispatch step puts the six `Enqueue`s of the status frame `FF FF LOCAL_ID
02 00 chk` before what MAIN had still to do, and changes nothing else. (44_dispatch.md R230; the granularity and
the marker `enterPhase` are the model's (log 7, log 8).) -/
def Obligations.PingDispatchesItsStatus : Prop :=
  ∀ (s : State) (len : Byte),
    exec (.ping len) s = .next { s with
      mainPhase := .dispatch
      uops := [.enqueue 0xFF#8, .enqueue 0xFF#8, .enqueue s.cfg.localId, .enqueue 0x02#8, .enqueue 0x00#8,
        .enqueue (~~~ (s.cfg.localId + 0x02#8)), .enterPhase .consume] ++ s.uops.tail }

/-- RESET completes in every state: the dispatch step records `eraseConfiguration()`, holds in it, and leaves
`restart(false)` to follow; nothing else changes. (44_dispatch.md R231; the granularity and the micro-operation
`restart` are the model's (log 7, log 8).) -/
def Obligations.ResetDispatchErasesFirst : Prop :=
  ∀ (s : State) (len : Byte),
    exec (.reset len) s = .next { s with
      mainPhase := .dispatch
      uops := .restart false :: s.uops.tail
      calls := s.calls ++ [.eraseConfiguration]
      pendingCall := some .eraseConfiguration }

/-- BOOTLOAD completes in every state: the dispatch step records `restart(true)` and halts the block; nothing else
changes. (44_dispatch.md R232; the granularity is the model's (log 7, log 26).) -/
def Obligations.BootloadDispatchHalts : Prop :=
  ∀ (s : State) (len : Byte),
    exec (.bootload len) s = .next { s with
      mainPhase := .dispatch
      uops := s.uops.tail
      calls := s.calls ++ [.restart true]
      halted := some .bootload }

/-- READ with its two operands completes in every state, for both targets: the dispatch step records
`local_read(a, n)` and holds in it; nothing else changes. (44_dispatch.md R227; the granularity and the marker
`enterPhase` are the model's (log 7, log 8).) -/
def Obligations.ReadDispatchCallsTheStore : Prop :=
  ∀ (s : State) (tgt : Target) (a n : Byte),
    exec (.read tgt [a, n]) s = .next { s with
      mainPhase := .dispatch
      uops := .enterPhase .consume :: s.uops.tail
      calls := s.calls ++ [.localRead a n]
      pendingCall := some (.localRead a n) }

/-- WRITE with an address and at least one data byte completes in every state, for both targets: the dispatch step
records `local_write(a, d, m)` and holds in it; nothing else changes. (44_dispatch.md R228; the granularity and
the marker `enterPhase` are the model's (log 7, log 8), the byte count log 16.) -/
def Obligations.WriteDispatchCallsTheStore : Prop :=
  ∀ (s : State) (tgt : Target) (a : Byte) (ds : List Byte), 1 ≤ ds.length →
    exec (.write tgt (a :: ds)) s = .next { s with
      mainPhase := .dispatch
      uops := .enterPhase .consume :: s.uops.tail
      calls := s.calls ++ [.localWrite a ds (BitVec.ofNat 8 ds.length)]
      pendingCall := some (.localWrite a ds (BitVec.ofNat 8 ds.length)) }

/-- AGG_READ completes in every state, for both targets. Within the bounds the dispatch step records
`aggregatedRead(a, m, N, ids)` and holds in it; outside them it puts the range-error status frame before what MAIN
had still to do, with no call. Nothing else changes. (44_dispatch.md R235 to R237; the granularity and the marker
`enterPhase` are the model's (log 7, log 8), the device count log 16.) -/
def Obligations.AggReadDispatchChecksItsBounds : Prop :=
  ∀ (s : State) (tgt : Target) (a m : Byte) (ids : List Byte),
    if 1 ≤ m.toNat ∧ m.toNat ≤ s.cfg.captureCap ∧ m.toNat * ids.length ≤ s.cfg.maxOutFrame then
      exec (.aggRead tgt (a :: m :: ids)) s = .next { s with
        mainPhase := .dispatch
        uops := .enterPhase .consume :: s.uops.tail
        calls := s.calls ++ [.aggregatedRead a m (BitVec.ofNat 8 ids.length) ids]
        pendingCall := some (.aggregatedRead a m (BitVec.ofNat 8 ids.length) ids) }
    else
      exec (.aggRead tgt (a :: m :: ids)) s = .next { s with
        mainPhase := .dispatch
        uops := [.enqueue 0xFF#8, .enqueue 0xFF#8, .enqueue s.cfg.localId, .enqueue 0x02#8,
          .enqueue s.cfg.rangeError, .enqueue (~~~ (s.cfg.localId + 0x02#8 + s.cfg.rangeError)),
          .enterPhase .consume] ++ s.uops.tail }

/-- The reject row, in every state. With room in the scratch buffer the byte is consumed, the rejection recorded
as BAD_INSTR, and the buffered prefix relayed with the byte, or without it where it is 0xFF, which is kept as a
new candidate frame; nothing else changes. With the buffer full the append raises SCRATCH_OVERFLOW and writes
nothing. (40_classifier.md R111, R122, R127; log 23.) -/
def Obligations.RejectRowResyncs : Prop :=
  ∀ (s : State) (id len code : Byte),
    if s.scratch.length < s.cfg.scratchCap then
      exec (.reject id len code) s = .next { s with
        hostIn := s.hostIn.tail
        consumeLeft := s.consumeLeft - 1
        rxTimer := 0
        chk := 0#8
        rem := 0
        lastAction := .frameRejected
        cstate := if code = 0xFF#8 then .seekSync2 else .seekSync1
        scratch := if code = 0xFF#8 then [0xFF#8] else []
        uops := .reject .badInstr ::
          (if code = 0xFF#8 then s.scratch else s.scratch ++ [code]).map .busWrite }
    else exec (.reject id len code) s = .next { s with fault := some .scratchOverflow }

/-- A READ with other than two parameters, and a WRITE or AGG_READ with fewer than two, raise DISPATCH_SHAPE and
write nothing else. (44_dispatch.md R227, R228, R234; the form of a fault step is log 5 and log 24.) -/
def Obligations.WrongShapeRaisesDispatchShape : Prop :=
  ∀ (s : State) (tgt : Target) (params : List Byte),
    (params.length ≠ 2 → exec (.read tgt params) s = .next { s with fault := some .dispatchShape })
      ∧ (params.length < 2 → exec (.write tgt params) s = .next { s with fault := some .dispatchShape })
      ∧ (params.length < 2 → exec (.aggRead tgt params) s = .next { s with fault := some .dispatchShape })

/-- The frame of the dispatch stage: whatever one of the six instructions does in its step, it leaves the
classifier, the timers, the egress queue, the bus, the mode flag, the capture buffer, the ports' inputs and the
histories other than `calls` as they were. (44_dispatch.md R220, R227 to R234.) -/
def Obligations.DispatchLeavesTheRestAlone : Prop :=
  ∀ (i : Instr) (s t : State), (∀ id len code, i ≠ .reject id len code) → exec i s = .next t →
    t = { s with
      mainPhase := t.mainPhase
      uops := t.uops
      calls := t.calls
      pendingCall := t.pendingCall
      halted := t.halted
      fault := t.fault }
    ∧ (t.halted ≠ s.halted → ∃ len, i = .bootload len)
    ∧ (t.fault ≠ s.fault → i.shapeOk = false)

/-- The dispatch stage never relays a byte of the accepted frame: it adds no bus write to what MAIN had still to
do, and hands no byte to the bus. (44_dispatch.md R224, which the spec marks as its own inference.) -/
def Obligations.DispatchNeverRelays : Prop :=
  ∀ (i : Instr) (s t : State) (k : Kind) (p : Packet) (rest : List Uop),
    (∀ id len code, i ≠ .reject id len code) → s.uops = .dispatch k p :: rest → exec i s = .next t →
      t.busOut = s.busOut ∧ relayed t.uops = relayed rest

/-- From the dispatch of a ping to its end: eight moves of MAIN queue exactly the six status bytes for the host
and resume the CONSUME phase, with nothing else changed. (44_dispatch.md R230; the number of moves is the model's
(log 7, log 8).) -/
def Obligations.PingRunQueuesExactlyItsStatus : Prop :=
  ∀ (s : State) (p : Packet) (rest : List Uop) (ms : List Move),
    Running s → s.pendingCall = none → s.uops = .dispatch .ping p :: rest → (s.cfg.targetOf p.id).isSome = true →
    s.egress.length + 6 ≤ s.cfg.egressCap → s.moves = mains 8 ++ ms →
      runSteps 8 s = .next { s with
        moves := ms
        uops := rest
        mainPhase := .consume
        sendTimer := 0
        egress := s.egress
          ++ [0xFF#8, 0xFF#8, s.cfg.localId, 0x02#8, 0x00#8, ~~~ (s.cfg.localId + 0x02#8)] }

/-- When the store answers a READ with at most 253 bytes, MAIN queues exactly the status frame of the answer, one
byte a move. (44_dispatch.md R227; the number of moves is the model's (log 7).) -/
def Obligations.ReadAnswerIsQueuedAsAStatus : Prop :=
  ∀ (s : State) (a n err : Byte) (data : List Byte) (ms : List Move),
    Running s → s.pendingCall = some (.localRead a n) → data.length ≤ 253 →
    s.egress.length + data.length + 6 ≤ s.cfg.egressCap →
    s.moves = .env (.ret (.read err data)) :: mains (data.length + 6) ++ ms →
      runSteps (data.length + 7) s = .next { s with
        moves := ms
        pendingCall := none
        sendTimer := 0
        egress := s.egress
          ++ [0xFF#8, 0xFF#8, s.cfg.localId, BitVec.ofNat 8 (data.length + 2), err] ++ data
          ++ [~~~ (sum8 (s.cfg.localId :: BitVec.ofNat 8 (data.length + 2) :: err :: data))] }

/-- When the executor answers an AGG_READ with pass-through restored, MAIN queues its bytes unchanged, one a move;
with pass-through off, or while the executor holds in a bus request, there is no such answer. (44_dispatch.md R223,
R237; 42_arbiter.md R187; the refusal is the model's (log 4).) -/
def Obligations.AggregateAnswerIsQueuedUnchanged : Prop :=
  ∀ (s : State) (a m n : Byte) (ids r : List Byte) (ms : List Move),
    Running s → s.pendingCall = some (.aggregatedRead a m n ids) →
    s.egress.length + r.length ≤ s.cfg.egressCap →
    s.moves = .env (.ret (.bytes r)) :: mains r.length ++ ms →
      (s.passthrough = true → s.executorHold = none → runSteps (r.length + 1) s = .next { s with
        moves := ms
        pendingCall := none
        sendTimer := if r = [] then s.sendTimer else 0
        egress := s.egress ++ r })
      ∧ (s.passthrough = false ∨ s.executorHold ≠ none → step s = .refused .noSuchMove)

/-- MAIN holds in an outstanding call: its step changes nothing but the schedule, whatever the call, until the
answer that belongs to it; another answer, or one without a call, is no move. The answers that queue nothing: a
WRITE's status is ignored, the erase's return goes on, and read data over 253 bytes raises DISPATCH_SHAPE.
(44_dispatch.md R221, R223, R228, R231; 30_encoding.md R95 with log 17; that a hold is a step is log 3, the refusal
log 4.) -/
def Obligations.CallsHoldMainUntilTheMatchingAnswer : Prop :=
  ∀ (s : State) (r : CallResult) (a n st err : Byte) (d data : List Byte), Running s →
    (s.pendingCall ≠ none → nextMove s = .main → step s = .next (takeMove s))
    ∧ (nextMove s = .env (.ret r) → (∀ c, s.pendingCall = some c → answers c r = false) →
      step s = .refused .noSuchMove)
    ∧ (s.pendingCall = some (.localWrite a d n) → nextMove s = .env (.ret (.status st)) →
      step s = .next { takeMove s with pendingCall := none })
    ∧ (s.pendingCall = some .eraseConfiguration → nextMove s = .env (.ret .done) →
      step s = .next { takeMove s with pendingCall := none })
    ∧ (s.pendingCall = some (.localRead a n) → nextMove s = .env (.ret (.read err data)) → 253 < data.length →
      step s = .next { takeMove s with fault := some .dispatchShape })

/-- RESET and BOOTLOAD from their dispatch to the end of the run: the calls in order and the terminal record,
nothing else touched. That no step follows is `StoppedBlockTakesNoStep`. (44_dispatch.md R231, R232; the number of
moves is the model's (log 7), and that nothing else is touched is log 26.) -/
def Obligations.RestartInstructionsEndTheRun : Prop :=
  ∀ (s : State) (p : Packet) (rest : List Uop) (ms : List Move),
    Running s → s.pendingCall = none → (s.cfg.targetOf p.id).isSome = true →
    (s.uops = .dispatch .reset p :: rest → s.moves = [.main, .env (.ret .done), .main] ++ ms →
      runSteps 3 s = .next { s with
          moves := ms
          uops := rest
          mainPhase := .dispatch
          calls := s.calls ++ [.eraseConfiguration, .restart false]
          halted := some .reset })
    ∧ (s.uops = .dispatch .bootload p :: rest → s.moves = .main :: ms →
      runSteps 1 s = .next { s with
          moves := ms
          uops := rest
          mainPhase := .dispatch
          calls := s.calls ++ [.restart true]
          halted := some .bootload })

/-- The layout of a status frame, for every payload that a length byte can count. (30_encoding.md R94.) -/
def Obligations.StatusFrameLayout : Prop :=
  ∀ (c : Config) (err : Byte) (payload : List Byte), payload.length ≤ 253 →
    ∃ len : Byte, len.toNat = payload.length + 2
      ∧ statusFrame c err payload
          = [0xFF#8, 0xFF#8, c.localId, len, err] ++ payload ++ [~~~ (sum8 (c.localId :: len :: err :: payload))]
      ∧ (statusFrame c err payload).length = payload.length + 6
      ∧ checksumValid ((statusFrame c err payload).drop 2) = true

/-! ### Whole-machine rules -/

/-- Every step, of any agent, keeps the invariant. Each clause of `Inv` names its rule; R131 and R180, which two
clauses rest on, the spec marks as its own inferences. The model's own part of it: the clauses on the work left in
`uops` and after a call speak of the markers and flush micro-operations of log 8, those on uncommitted bytes of the
field of log 22, the counted bytes of the list of log 19, and a holding executor has a byte in flight by the fused
release of log 29. -/
def Obligations.EveryStepKeepsTheInvariant : Prop :=
  ∀ s t : State, Inv s → step s = .next t → Inv t

/-- The reset state has the values of the reset table. (70_reset_and_hazards.md R280.) -/
def Obligations.ResetStateHasTheTableValues : Prop :=
  State.reset.cstate = .seekSync1 ∧ State.reset.scratch = [] ∧ State.reset.chk = 0#8 ∧ State.reset.rem = 0
    ∧ State.reset.lastAction = .buffered ∧ State.reset.rxTimer = 0 ∧ State.reset.sendTimer = 0
    ∧ State.reset.busTimer = 0 ∧ State.reset.egress = [] ∧ State.reset.zlpOwed = false ∧ State.reset.dir = .rx
    ∧ State.reset.busTxPending = 0 ∧ State.reset.passthrough = true ∧ State.reset.cap = []
    ∧ State.reset.fault = none ∧ State.reset.halted = none ∧ State.reset.mainPhase = .waitConn
    ∧ State.reset.consumeLeft = 0 ∧ State.reset.uops = []
    ∧ State.reset.busOut = [] ∧ State.reset.hostOut = [] ∧ State.reset.calls = [] ∧ State.reset.rejects = []

/-- The reset state has the invariant. It rests on the model's reset configuration and port inputs (log 1,
log 6). -/
def Obligations.ResetStateHasTheInvariant : Prop := Inv State.reset

/-- In a state with the invariant that nothing has stopped, a picked MAIN, TICK or BUSRX is answered by a next state:
no classifier state, byte or micro-operation is without a rule. (40_classifier.md R131, which the spec marks as its
own inference. That MAIN's pick while it holds and a bus byte offered in TX are steps, where the spec gives none
(00_scope.md R15; 42_arbiter.md R191), is log 3.) -/
def Obligations.AgentsNeverLackARule : Prop :=
  ∀ s : State, Inv s → stopReason s = none →
    nextMove s = .main ∨ nextMove s = .tick ∨ (∃ b, nextMove s = .busRx b) → ∃ t, step s = .next t

/-- The append into a full scratch buffer is unreachable: from the invariant no step raises SCRATCH_OVERFLOW.
(40_classifier.md R127.) -/
def Obligations.ScratchNeverOverflows : Prop :=
  ∀ s t : State, Inv s → step s = .next t → t.fault ≠ some .scratchOverflow

/-- Host frames never reorder, duplicate or lose bytes: the bytes committed, written and queued for the host,
taken together in order, only ever grow at the end, by at most one byte a step. (41_egress.md R172, which the spec
marks as its own inference.) -/
def Obligations.HostStreamOnlyGrowsAtItsEnd : Prop :=
  ∀ s t : State, step s = .next t → ∃ added : List Byte, added.length ≤ 1 ∧ hostStream t = hostStream s ++ added

/-- No agent switches the bus to receive while a byte is pending: the switch leaves none pending, and where one was
before the step, the step is the `tx_done` that drains it and releases an executor holding in `switchToReceive`.
(70_reset_and_hazards.md R284; 42_arbiter.md R182; that the release is in the `tx_done` step is log 29.) -/
def Obligations.NoSwitchToReceiveBeforeDrain : Prop :=
  ∀ s t : State, step s = .next t → s.dir = .tx → t.dir = .rx →
    t.busTxPending = 0
      ∧ (s.busTxPending = 0
        ∨ s.busTxPending = 1 ∧ nextMove s = .env .txDone ∧ s.executorHold = some .switchToReceive)

/-- The output histories only grow at their ends, by at most one entry a step, and no step writes the
configuration. (10_state.md R39; that the configuration is constant is log 1.) -/
def Obligations.HistoriesOnlyGrow : Prop :=
  ∀ s t : State, step s = .next t →
    (∃ bo, t.busOut = s.busOut ++ bo ∧ bo.length ≤ 1) ∧ (∃ ho, t.hostOut = s.hostOut ++ ho ∧ ho.length ≤ 1)
      ∧ (∃ ca, t.calls = s.calls ++ ca ∧ ca.length ≤ 1) ∧ (∃ re, t.rejects = s.rejects ++ re ∧ re.length ≤ 1)
      ∧ t.cfg = s.cfg

/-- A faulted or halted block takes no step, whatever move is picked, and an ill-formed configuration none either.
(60_exceptions.md R256; 44_dispatch.md R233; 00_scope.md R12. The outcomes `fault` and `refused` are the model's
(log 5, log 28).) -/
def Obligations.StoppedBlockTakesNoStep : Prop :=
  ∀ s : State,
    (∀ code, s.fault = some code → step s = .fault (.stopped code))
      ∧ (∀ reason, s.fault = none → s.halted = some reason → step s = .fault (.halted reason))
      ∧ (s.fault = none → s.halted = none → configOk s = false → step s = .refused .illFormedConfig)

/-- Only MAIN's `restart` call halts the block, in the step that records it, with the record its argument names.
(44_dispatch.md R233.) -/
def Obligations.OnlyARestartHalts : Prop :=
  ∀ (s t : State) (reason : HaltReason), step s = .next t → t.halted = some reason →
    nextMove s = .main ∧ ∃ b, t.calls = s.calls ++ [.restart b] ∧ reason = (if b then .bootload else .reset)

/-- The step that raises a fault writes the fault record and nothing else. (60_exceptions.md R255; the used-up
move is the model's (log 24).) -/
def Obligations.FaultStepWritesOnlyTheRecord : Prop :=
  ∀ (s t : State) (code : FaultCode), step s = .next t → t.fault = some code →
    t = { takeMove s with fault := some code }

/-- Only `mode_set`, during an aggregated read, writes the mode flag; only the executor, during one, empties the
capture buffer. (42_arbiter.md R192; 44_dispatch.md R222.) -/
def Obligations.ModeFlagChangesOnlyDuringAnAggregatedRead : Prop :=
  ∀ s t : State, step s = .next t →
    (t.passthrough ≠ s.passthrough → inAggregatedRead s = true ∧ nextMove s = .env (.modeSet t.passthrough))
      ∧ (¬ s.cap <+: t.cap → inAggregatedRead s = true ∧ nextMove s = .env .clearCapture)

/-- What TICK, BUSRX and ENV may not touch: the classifier, MAIN's phase and count, the empty-frame flag, the host
frames, and the histories that only MAIN writes. (10_state.md R20; 44_dispatch.md R222; 60_exceptions.md R261.) -/
def Obligations.OnlyMainWritesTheClassifier : Prop :=
  ∀ s t : State, step s = .next t → nextMove s ≠ .main →
    t.cstate = s.cstate ∧ t.scratch = s.scratch ∧ t.chk = s.chk ∧ t.rem = s.rem ∧ t.lastAction = s.lastAction
      ∧ t.mainPhase = s.mainPhase ∧ t.consumeLeft = s.consumeLeft ∧ t.zlpOwed = s.zlpOwed
      ∧ t.hostFrame = s.hostFrame ∧ t.hostOut = s.hostOut ∧ t.calls = s.calls ∧ t.rejects = s.rejects
      ∧ t.halted = s.halted

/-! ### The classifier -/

/-- The three states that seek a frame. `SEEK_SYNC1`: a sync byte starts a frame, any other byte is relayed at once
and the state does not advance. `SEEK_SYNC2`: a second sync byte advances, any other relays both bytes and goes idle.
`READ_ID`: a third sync byte relays one sync byte and keeps the other two pending; any other byte is the identifier.
(40_classifier.md R112, R113, R114.) -/
def Obligations.SyncBytesStartAFrame : Prop :=
  ∀ (s : State) (b : Byte),
    (s.cstate = .seekSync1 → consume b s = .next
      (if b = 0xFF#8 then
        { s with
          hostIn := s.hostIn.tail, consumeLeft := s.consumeLeft - 1, rxTimer := 0, uops := []
          scratch := [0xFF#8], cstate := .seekSync2, lastAction := .buffered }
      else
        { s with
          hostIn := s.hostIn.tail, consumeLeft := s.consumeLeft - 1, rxTimer := 0, uops := [.busWrite b]
          lastAction := .passedThrough }))
    ∧ (s.cfg.wf = true → s.cstate = .seekSync2 → s.scratch = [0xFF#8] → consume b s = .next
      (if b = 0xFF#8 then
        { s with
          hostIn := s.hostIn.tail, consumeLeft := s.consumeLeft - 1, rxTimer := 0, uops := []
          scratch := [0xFF#8, 0xFF#8], cstate := .readId, lastAction := .buffered }
      else
        { s with
          hostIn := s.hostIn.tail, consumeLeft := s.consumeLeft - 1, rxTimer := 0
          uops := [.reject .badSync2, .busWrite 0xFF#8, .busWrite b]
          scratch := [], cstate := .seekSync1, chk := 0#8, rem := 0, lastAction := .frameRejected }))
    ∧ (s.cfg.wf = true → s.cstate = .readId → s.scratch = [0xFF#8, 0xFF#8] → consume b s = .next
      (if b = 0xFF#8 then
        { s with
          hostIn := s.hostIn.tail, consumeLeft := s.consumeLeft - 1, rxTimer := 0, uops := [.busWrite 0xFF#8]
          lastAction := .buffered }
      else
        { s with
          hostIn := s.hostIn.tail, consumeLeft := s.consumeLeft - 1, rxTimer := 0, uops := []
          scratch := [0xFF#8, 0xFF#8, b], cstate := .readLen, lastAction := .buffered }))

/-- `READ_LEN`, foreign identifier: the prefix is relayed whatever the length, and a nonzero length is counted
down in `RELAY_REMAINDER`. (40_classifier.md R115, R116.) -/
def Obligations.ForeignPrefixIsRelayed : Prop :=
  ∀ (s : State) (id b : Byte), s.cfg.wf = true → s.cstate = .readLen → s.scratch = [0xFF#8, 0xFF#8, id] →
    id ≠ s.cfg.localId → id ≠ s.cfg.broadcastId →
      consume b s = .next
        { s with
          hostIn := s.hostIn.tail, consumeLeft := s.consumeLeft - 1, rxTimer := 0
          uops := [.busWrite 0xFF#8, .busWrite 0xFF#8, .busWrite id, .busWrite b]
          scratch := [], lastAction := .passedThrough
          cstate := if b = 0#8 then .seekSync1 else .relayRemainder
          rem := if b = 0#8 then s.rem else b.toNat }

/-- `READ_LEN`, local or broadcast identifier: a length in the open interval `(1, MAX_AGG_DEVICES + 4)` advances;
any other queues one range-error status and resyncs. Both with the whole next state. (40_classifier.md R117, R118;
R110, R111.) -/
def Obligations.RetainedLengthIsRangeChecked : Prop :=
  ∀ (s : State) (id b : Byte), s.cfg.wf = true → s.cstate = .readLen → s.scratch = [0xFF#8, 0xFF#8, id] →
    id = s.cfg.localId ∨ id = s.cfg.broadcastId →
      if 1 < b.toNat ∧ b.toNat < s.cfg.maxAggDevices + 4 then
        consume b s = .next
          { s with
            hostIn := s.hostIn.tail, consumeLeft := s.consumeLeft - 1, rxTimer := 0, uops := []
            scratch := [0xFF#8, 0xFF#8, id, b], cstate := .readInstr, lastAction := .buffered }
      else
        consume b s = .next
          { s with
            hostIn := s.hostIn.tail, consumeLeft := s.consumeLeft - 1, rxTimer := 0
            uops := [.enqueue 0xFF#8, .enqueue 0xFF#8, .enqueue s.cfg.localId, .enqueue 0x02#8,
                .enqueue s.cfg.rangeError, .enqueue (~~~ (s.cfg.localId + 0x02#8 + s.cfg.rangeError)),
                .reject .lenRange, .busWrite 0xFF#8, .busWrite 0xFF#8, .busWrite id]
              ++ (if b = 0xFF#8 then [] else [.busWrite b])
            scratch := if b = 0xFF#8 then [0xFF#8] else []
            cstate := if b = 0xFF#8 then .seekSync2 else .seekSync1
            chk := 0#8, rem := 0, lastAction := .frameRejected }

/-- `READ_INSTR`, admitted instruction: the checksum is seeded with id, length and instruction, the count with the
bytes still owed, and the state is the instruction's; the confirm-state instructions only for `LOCAL_ID`.
(40_classifier.md R119 to R121.) -/
def Obligations.AdmittedInstructionSeedsTheFrame : Prop :=
  ∀ (s : State) (k : Kind) (id len : Byte), s.cfg.wf = true → s.cstate = .readInstr →
    s.scratch = [0xFF#8, 0xFF#8, id, len] → id = s.cfg.localId ∨ id = s.cfg.broadcastId →
    (k = .ping ∨ k = .reset ∨ k = .bootload → id = s.cfg.localId) →
      consume (s.cfg.codeOf k) s = .next
        { s with
          hostIn := s.hostIn.tail, consumeLeft := s.consumeLeft - 1, rxTimer := 0, uops := []
          scratch := [0xFF#8, 0xFF#8, id, len, s.cfg.codeOf k]
          chk := id + len + s.cfg.codeOf k
          rem := len.toNat - 1
          lastAction := .buffered
          cstate := match k with
            | .ping => .pingConfirm
            | .reset => .resetConfirm
            | .bootload => .bootloadConfirm
            | .read | .write | .aggRead => .collectParams }

/-- `COLLECT_PARAMS` and `RELAY_REMAINDER`: a parameter byte is held and summed, 0xFF included; a byte of a
foreign frame is relayed and counted, and the last one goes idle. (40_classifier.md R128, R130.) -/
def Obligations.BodyBytesAreHeldOrRelayed : Prop :=
  ∀ (s : State) (b : Byte),
    (s.cstate = .collectParams → 2 ≤ s.rem → s.scratch.length < s.cfg.scratchCap →
      consume b s = .next
        { s with
          hostIn := s.hostIn.tail, consumeLeft := s.consumeLeft - 1, rxTimer := 0, uops := []
          scratch := s.scratch ++ [b], rem := s.rem - 1, chk := s.chk + b, lastAction := .buffered })
    ∧ (s.cstate = .relayRemainder → 1 ≤ s.rem →
      consume b s = .next
        { s with
          hostIn := s.hostIn.tail, consumeLeft := s.consumeLeft - 1, rxTimer := 0, uops := [.busWrite b]
          rem := s.rem - 1, lastAction := .passedThrough
          cstate := if s.rem = 1 then .seekSync1 else .relayRemainder })

/-- Every consumed byte is relayed exactly once, or held in the scratch buffer, or part of an accepted frame, and
relayed bytes keep their order. An accepted frame leaves the classifier idle and empty; a rejected one leaves it idle,
or with a final 0xFF pending. And the frame of a transition: the byte is taken, `rx_timer` is 0, and nothing but the
classifier's registers, `last_action` and `uops` changes. (40_classifier.md R110, R111, R123, R129; R133, which the
spec marks as its own inference; that the bytes are a list is log 19.) -/
def Obligations.ConsumedBytesAreNeverLost : Prop :=
  ∀ (s t : State) (b : Byte), Inv s → consume b s = .next t →
    (if t.lastAction = .frameComplete then
      relayed t.uops = [] ∧ t.scratch = [] ∧ t.cstate = .seekSync1 ∧ t.chk = 0#8 ∧ t.rem = 0
        ∧ ∃ k p, t.uops = [.dispatch k p] ∧ packetOk t.cfg k p = true
    else relayed t.uops ++ t.scratch = s.scratch ++ [b])
    ∧ (t.lastAction = .frameRejected →
      t.cstate = (if b = 0xFF#8 then .seekSync2 else .seekSync1)
        ∧ t.scratch = (if b = 0xFF#8 then [0xFF#8] else []) ∧ t.chk = 0#8 ∧ t.rem = 0)
    ∧ t = { s with
        hostIn := s.hostIn.tail
        consumeLeft := s.consumeLeft - 1
        rxTimer := 0
        uops := t.uops
        scratch := t.scratch
        cstate := t.cstate
        chk := t.chk
        rem := t.rem
        lastAction := t.lastAction }

/-! ### Timers, interrupts and the bus -/

/-- TICK advances all three timers in one step, saturating or wrapping as configured, and writes nothing else.
(60_exceptions.md R262.) -/
def Obligations.TickAdvancesEveryTimer : Prop :=
  ∀ s : State, Running s → nextMove s = .tick →
    ∃ f : Nat → Nat,
      (s.cfg.timerOvf = .saturate → ∀ n, f n = min (n + 1) (2 ^ s.cfg.timerWidth - 1))
        ∧ (s.cfg.timerOvf = .wrap → ∀ n, f n = (n + 1) % 2 ^ s.cfg.timerWidth)
        ∧ step s = .next { takeMove s with
            rxTimer := f s.rxTimer, sendTimer := f s.sendTimer, busTimer := f s.busTimer }

/-- A bus byte: lost while transmitting; queued for the host in pass-through mode, with the send timer reset;
captured otherwise, with the bus timer reset; a full queue or buffer raises its fault. (42_arbiter.md R186, R189,
R190; that the offer of a lost byte is a step is log 3.) -/
def Obligations.BusByteGoesWhereTheModeSays : Prop :=
  ∀ (s : State) (b : Byte), Running s → nextMove s = .busRx b →
    step s = .next
      (if s.dir = .tx then takeMove s
      else if s.passthrough = true then
        if s.egress.length < s.cfg.egressCap then
          { takeMove s with egress := s.egress ++ [b], sendTimer := 0 }
        else { takeMove s with fault := some .egressOverflow }
      else if s.cap.length < s.cfg.captureCap then { takeMove s with cap := s.cap ++ [b], busTimer := 0 }
      else { takeMove s with fault := some .captureOverflow })

/-- MAIN's `Enqueue` micro-operation: the byte joins the queue and the send timer is reset, or, with the queue
full, EGRESS_OVERFLOW is raised and nothing is dropped or overwritten. Its `REJECT(reason)` micro-operation: exactly
that reason joins the history, and nothing else changes. (41_egress.md R161; 43_service_timeout.md R201;
60_exceptions.md R251.) -/
def Obligations.EnqueueAndRejectMicroOperations : Prop :=
  ∀ (s : State) (b : Byte) (r : RejectReason) (rest : List Uop),
    Running s → nextMove s = .main → s.pendingCall = none →
      (s.uops = .enqueue b :: rest → step s = .next
        (if s.egress.length < s.cfg.egressCap then
          { takeMove s with uops := rest, egress := s.egress ++ [b], sendTimer := 0 }
        else { takeMove s with fault := some .egressOverflow }))
      ∧ (s.uops = .reject r :: rest → step s = .next { takeMove s with uops := rest, rejects := s.rejects ++ [r] })

/-- MAIN's `BusWrite` micro-operation: it holds while the transmitter is full, and otherwise switches to transmit
and hands the byte over in one step. (42_arbiter.md R183; that a hold is a step is log 3.) -/
def Obligations.BusWriteSwitchesToTransmitOrHolds : Prop :=
  ∀ (s : State) (b : Byte) (rest : List Uop),
    Running s → nextMove s = .main → s.pendingCall = none → s.uops = .busWrite b :: rest →
      step s = .next
        (if s.busTxPending < s.cfg.busTxDepth then
          { takeMove s with
            uops := rest, dir := .tx, busTxPending := s.busTxPending + 1, busOut := s.busOut ++ [b] }
        else takeMove s)

/-- Under the drain schedule, in which each hand-over is followed by its `tx_done`, the relayed bytes reach the
bus in the order of their micro-operations. That the executor holds only during its own call is part of the
invariant. (20_memory.md R70, which the spec marks as its own inference.) -/
def Obligations.RelayedBytesReachTheBusInOrder : Prop :=
  ∀ (s : State) (bs : List Byte) (rest : List Uop) (ms : List Move),
    Running s → s.pendingCall = none → s.executorHold = none → s.busTxPending = 0 →
    s.uops = bs.map .busWrite ++ rest →
    s.moves = bs.flatMap (fun _ => [.main, .env .txDone]) ++ ms →
      runSteps (2 * bs.length) s = .next { s with
        moves := ms
        uops := rest
        dir := if bs = [] then s.dir else .tx
        busOut := s.busOut ++ bs }

/-- The return to receive. MAIN's `RX_RETURN` step switches exactly when nothing is pending, never holds, and goes on
to count the host bytes. `tx_done` takes one pending byte off, and with none pending there is no such move; where the
executor holds in `switchToReceive`, the one that drains the transmitter switches to receive and releases it; where
it holds in a full `BusWrite`, the byte is handed over. (42_arbiter.md R182, R183, R184, R185, R187; that the release
is in the `tx_done` step is log 29, the refusal log 4, the marker `countInput` log 8.) -/
def Obligations.ReturnToReceiveNeedsADrainedBus : Prop :=
  ∀ (s : State) (b : Byte), Running s →
    (nextMove s = .main → s.pendingCall = none → s.uops = [] → s.mainPhase = .rxReturn →
      step s = .next { takeMove s with
        mainPhase := .consume
        uops := [.countInput]
        dir := if s.busTxPending = 0 then .rx else s.dir })
    ∧ (nextMove s = .env .txDone → s.busTxPending = 0 → step s = .refused .noSuchMove)
    ∧ (nextMove s = .env .txDone → 1 ≤ s.busTxPending → s.executorHold = none →
      step s = .next { takeMove s with busTxPending := s.busTxPending - 1 })
    ∧ (nextMove s = .env .txDone → s.dir = .tx → s.busTxPending = 1 → s.executorHold = some .switchToReceive →
      step s = .next { takeMove s with busTxPending := 0, dir := .rx, executorHold := none })
    ∧ (nextMove s = .env .txDone → s.dir = .tx → 2 ≤ s.busTxPending → s.executorHold = some .switchToReceive →
      step s = .next { takeMove s with busTxPending := s.busTxPending - 1 })
    ∧ (nextMove s = .env .txDone → 1 ≤ s.busTxPending → s.busTxPending ≤ s.cfg.busTxDepth →
      s.executorHold = some (.busWrite b) →
      step s = .next { takeMove s with dir := .tx, busOut := s.busOut ++ [b], executorHold := none })

/-- The executor's liberties: while MAIN holds in an aggregated read and the executor itself does not hold, the mode
flag, the direction, the transmitter and the capture buffer change as asked; `switchToReceive` with a byte pending,
and a byte for a full transmitter, make the executor hold. Outside a read, or while it holds, there is no such move.
(44_dispatch.md R222; 42_arbiter.md R181, R182, R183, R187, R192; the refusal is the model's (log 4), the held
request log 29.) -/
def Obligations.ExecutorActsOnlyDuringAnAggregatedRead : Prop :=
  ∀ (s : State) (e : EnvMove) (v : Bool) (b : Byte),
    Running s → nextMove s = .env e → e ∈ [.modeSet v, .dirTransmit, .dirReceive, .executorWrite b, .clearCapture] →
      step s =
        if inAggregatedRead s = false ∨ s.executorHold ≠ none then .refused .noSuchMove
        else .next
          (if e = .modeSet v then { takeMove s with passthrough := v }
          else if e = .dirTransmit then { takeMove s with dir := .tx }
          else if e = .clearCapture then { takeMove s with cap := [] }
          else if e = .dirReceive then
            if s.dir = .rx ∨ s.busTxPending = 0 then { takeMove s with dir := .rx }
            else { takeMove s with executorHold := some .switchToReceive }
          else if s.busTxPending < s.cfg.busTxDepth then
            { takeMove s with dir := .tx, busTxPending := s.busTxPending + 1, busOut := s.busOut ++ [b] }
          else { takeMove s with executorHold := some (.busWrite b) })

/-! ### The flush and the timeout -/

/-- The service cycle around the bytes: MAIN holds in WAIT_CONN until the host is connected, counts the available
bytes once at the start of CONSUME, consumes one counted byte a step, and leaves CONSUME for TIMEOUT once they are
consumed; a byte that arrives later is not counted in the cycle it arrives in. The other inputs: the connection and
readiness predicates and the thresholds each change by their own port event, which writes nothing else, and thresholds
outside `0 .. 2^TIMER_W - 2` are no move. (43_service_timeout.md R200, R203, R204; 00_scope.md R10, R12; 10_state.md
R34; 70_reset_and_hazards.md R283; that a hold is a step is log 3, the refusal log 4 and log 21, the marker `countInput`
log 8, `bytesAvailable()` as a list's length log 19.) -/
def Obligations.ServiceCycleWaitsAndCounts : Prop :=
  ∀ (s : State) (b : Byte) (v : Bool) (receive send : Nat) (rest : List Uop), Running s →
    (nextMove s = .main → s.pendingCall = none → s.uops = [] → s.mainPhase = .waitConn →
      step s = .next { takeMove s with mainPhase := if s.hostConnected = true then .rxReturn else .waitConn })
    ∧ (nextMove s = .main → s.pendingCall = none → s.uops = .countInput :: rest →
      step s = .next { takeMove s with uops := rest, consumeLeft := s.hostIn.length })
    ∧ (Inv s → nextMove s = .main → s.pendingCall = none → s.uops = [] → s.mainPhase = .consume → 1 ≤ s.consumeLeft →
      ∃ (c : Byte) (t : State), step s = .next t ∧ s.hostIn = c :: t.hostIn ∧ s.consumeLeft = t.consumeLeft + 1
        ∧ t.mainPhase = .consume)
    ∧ (nextMove s = .main → s.pendingCall = none → s.uops = [] → s.mainPhase = .consume → s.consumeLeft = 0 →
      step s = .next { takeMove s with mainPhase := .timeout })
    ∧ (nextMove s = .env (.hostByte b) → step s = .next { takeMove s with hostIn := s.hostIn ++ [b] })
    ∧ (nextMove s = .env (.setConnected v) → step s = .next { takeMove s with hostConnected := v })
    ∧ (nextMove s = .env (.setWriteReady v) → step s = .next { takeMove s with writeReady := v })
    ∧ (nextMove s = .env (.setTimeouts receive send) → step s =
        if receive + 2 ≤ 2 ^ s.cfg.timerWidth ∧ send + 2 ≤ 2 ^ s.cfg.timerWidth then
          .next { takeMove s with receiveTimeout := receive, sendTimeout := send }
        else .refused .noSuchMove)

/-- The choice of `tryFlush`: nothing without a ready host; nothing while a short queue has not timed out, and nothing
from an empty queue that owes nothing; the owed empty frame only from an empty queue, without touching the send timer.
(41_egress.md R163 to R165, R168, R169; the numbers of moves are the model's (log 7, log 8).) -/
def Obligations.FlushSendsNothingOrTheOwedEmptyFrame : Prop :=
  ∀ (s : State) (ms : List Move), Running s → s.pendingCall = none → s.uops = [] → s.mainPhase = .flush →
    (s.writeReady = false → s.moves = mains 1 ++ ms → runSteps 1 s = .next { s with moves := ms, mainPhase := .waitConn })
    ∧ (s.writeReady = true → s.egress.length < s.cfg.egressFrame → s.egress ≠ [] → s.sendTimer ≤ s.sendTimeout →
        s.moves = mains 2 ++ ms → runSteps 2 s = .next { s with moves := ms, mainPhase := .waitConn })
    ∧ (s.writeReady = true → s.egress = [] → s.zlpOwed = false →
        s.moves = mains 2 ++ ms → runSteps 2 s = .next { s with moves := ms, mainPhase := .waitConn })
    ∧ (s.writeReady = true → s.egress = [] → s.zlpOwed = true → s.hostFrame = [] →
        s.moves = mains 5 ++ ms → runSteps 5 s = .next { s with
          moves := ms, mainPhase := .waitConn, zlpOwed := false, hostOut := s.hostOut ++ [[]] })

/-- A full flush: exactly `EGRESS_FRAME` bytes leave the queue as one host frame, the send timer is reset, and an
empty frame is owed. (41_egress.md R166; the number of moves is the model's (log 7, log 8).) -/
def Obligations.FullFlushSendsOneFrame : Prop :=
  ∀ (s : State) (ms : List Move),
    Running s → s.pendingCall = none → s.uops = [] → s.mainPhase = .flush → s.writeReady = true →
    s.hostFrame = [] → s.cfg.egressFrame ≤ s.egress.length → s.moves = mains (s.cfg.egressFrame + 6) ++ ms →
      runSteps (s.cfg.egressFrame + 6) s = .next { s with
        moves := ms
        egress := s.egress.drop s.cfg.egressFrame
        hostOut := s.hostOut ++ [s.egress.take s.cfg.egressFrame]
        sendTimer := 0
        zlpOwed := true
        mainPhase := .waitConn }

/-- A partial flush: once the send timer has passed its threshold, exactly the bytes queued at the snapshot leave as
one host frame, wherever among the flush's moves BUSRX queues further bytes, which stay queued; the send timer is
reset, and whether an empty frame is owed stays as it was. (41_egress.md R164, R167; the number of moves is the
model's (log 7, log 8).) -/
def Obligations.PartialFlushSendsExactlyTheSnapshot : Prop :=
  ∀ (s : State) (sched ms : List Move),
    Running s → s.pendingCall = none → s.uops = [] → s.mainPhase = .flush → s.writeReady = true →
    s.hostFrame = [] → s.egress ≠ [] → s.egress.length < s.cfg.egressFrame → s.sendTimeout < s.sendTimer →
    (∀ m ∈ sched, m = .main ∨ ∃ b, m = .busRx b) → sched.count .main = s.egress.length + 3 →
    (offered sched = [] ∨ s.dir = .rx ∧ s.passthrough = true) →
    s.egress.length + (offered sched).length ≤ s.cfg.egressCap → s.moves = mains 2 ++ sched ++ ms →
      runSteps (2 + sched.length) s = .next { s with
        moves := ms
        egress := offered sched
        hostOut := s.hostOut ++ [s.egress]
        sendTimer := 0
        mainPhase := .waitConn }

/-- The timeout check: strictly past the threshold in a state other than idle, the partial frame is abandoned and
every buffered byte is to be relayed as plain data, a final 0xFF included; otherwise nothing is.
(43_service_timeout.md R205, R206; the marker `enterPhase` is the model's (log 8).) -/
def Obligations.TimeoutAbandonsThePartialFrame : Prop :=
  ∀ s : State, Running s → nextMove s = .main → s.pendingCall = none → s.uops = [] → s.mainPhase = .timeout →
    step s = .next
      (if s.cstate ≠ .seekSync1 ∧ s.receiveTimeout < s.rxTimer then
        { takeMove s with
          scratch := [], chk := 0#8, rem := 0, cstate := .seekSync1
          uops := .reject .rxTimeout :: s.scratch.map .busWrite ++ [.enterPhase .flush] }
      else { takeMove s with mainPhase := .flush })

/-- No wedge: with saturating timers and no host byte, `receiveTimeout + 1` ticks and the first five steps of a
cycle bring the classifier back to idle, with every buffered byte to be relayed. (43_service_timeout.md R208,
which the spec marks as its own inference; the number of moves is the model's (log 7).) -/
def Obligations.PartialFrameNeverWedges : Prop :=
  ∀ (s : State) (ms : List Move),
    Inv s → stopReason s = none → s.cfg.timerOvf = .saturate → s.pendingCall = none → s.uops = [] →
    s.mainPhase = .waitConn → s.hostConnected = true → s.hostIn = [] →
    s.moves = List.replicate (s.receiveTimeout + 1) .tick ++ mains 5 ++ ms →
      ∃ t : State, runSteps (s.receiveTimeout + 6) s = .next t
        ∧ t.cstate = .seekSync1 ∧ t.scratch = [] ∧ relayed t.uops = s.scratch ∧ t.moves = ms

/-! ### What happens in the end, under the named premises -/

/-- No wedge, over a whole run: under fairness and with saturating timers, once no more host bytes arrive, the
classifier comes back to idle and stays there with nothing buffered. (43_service_timeout.md R208, which the spec
marks as its own inference; 70_reset_and_hazards.md R297; the premises are as log 18 reads them.) -/
def Obligations.ClassifierIsIdleInTheEnd : Prop :=
  ∀ (sched : Nat → Move) (tr : Nat → State) (n : Nat),
    IsRun sched tr → Inv (tr 0) → (tr 0).cfg.timerOvf = .saturate →
    FairMain sched → FairTick sched → FairDrain sched tr → FairCall tr → FairConn tr →
    (∀ m, n ≤ m → ∀ b, sched m ≠ .env (.hostByte b)) →
      ∃ m, n ≤ m ∧ ∀ k, m ≤ k → (tr k).cstate = .seekSync1 ∧ (tr k).scratch = []

/-- A partial write, over a whole run: under fairness and with saturating timers, bytes fewer than a frame that are
queued outside a flush, with no further byte queued, are in the end sent, all of them in one host frame.
(41_egress.md R170, which the spec marks as its own inference; 70_reset_and_hazards.md R297; the premises are as
log 18 reads them.) -/
def Obligations.ShortQueueIsSentInTheEnd : Prop :=
  ∀ (sched : Nat → Move) (tr : Nat → State) (n : Nat),
    IsRun sched tr → Inv (tr 0) → (tr 0).cfg.timerOvf = .saturate →
    FairMain sched → FairTick sched → FairReady sched tr →
    (tr n).mainPhase ≠ .flush → (tr n).egress ≠ [] → (tr n).egress.length < (tr n).cfg.egressFrame →
    (∀ m, n ≤ m → hostStream (tr m) = hostStream (tr n)) →
      ∃ m, n ≤ m ∧ (tr m).egress = [] ∧ (tr m).hostOut = (tr n).hostOut ++ [(tr n).egress]
end

