-- ==== Sys2Proof/Laws/Decode.lean ====
section
/-! SUPPORT. The small lemmas of the checksum, of the identifier and instruction classes, and of the frame bytes. -/

namespace Sys2Proof

@[simp] theorem sum8_nil : sum8 [] = 0#8 := rfl

@[simp] theorem sum8_cons (b : Byte) (bs : List Byte) : sum8 (b :: bs) = b + sum8 bs := rfl

theorem sum8_append (xs ys : List Byte) : sum8 (xs ++ ys) = sum8 xs + sum8 ys := by
  induction xs with
  | nil => simp
  | cons x xs ih => simp [ih, BitVec.add_assoc]

/-- A byte and a second one sum to 0xFF exactly when the second is the complement of the first. -/
theorem add_eq_sync_iff (x y : Byte) : x + y = syncByte ↔ y = ~~~ x := by
  constructor
  · intro h
    have : y = syncByte - x := by rw [← h]; simp
    rw [this]
    apply BitVec.eq_of_toNat_eq
    have hx := x.isLt
    simp [BitVec.toNat_sub, BitVec.toNat_not]
    omega
  · rintro rfl
    apply BitVec.eq_of_toNat_eq
    have hx := x.isLt
    simp

theorem checksumValid_append (bs : List Byte) (chk : Byte) :
    checksumValid (bs ++ [chk]) = true ↔ chk = checksumOf bs := by
  simp only [checksumValid, beq_iff_eq, sum8_append, sum8_cons, sum8_nil, BitVec.add_zero, checksumOf]
  exact add_eq_sync_iff _ _

namespace Config

variable (c : Config)

/-- The conditions of a well-formed configuration, one by one (00_scope.md R12). -/
theorem wf_iff : c.wf = true ↔
    c.localId ≠ syncByte ∧ c.broadcastId ≠ syncByte ∧ c.localId ≠ c.broadcastId
      ∧ [c.opPing, c.opRead, c.opWrite, c.opReset, c.opBootload, c.opAggRead].Nodup
      ∧ (1 ≤ c.maxAggDevices ∧ c.maxAggDevices ≤ 252) ∧ c.maxAggDevices + 7 ≤ c.scratchCap
      ∧ (1 ≤ c.egressFrame ∧ c.egressFrame ≤ c.egressCap)
      ∧ (1 ≤ c.captureCap ∧ 1 ≤ c.maxOutFrame ∧ 1 ≤ c.busTxDepth) := by
  simp only [wf, Bool.and_eq_true, bne_iff_ne, decide_eq_true_eq, and_assoc]

theorem targetOf_idOf (h : c.wf = true) (t : Target) : c.targetOf (c.idOf t) = some t := by
  have h := ((c.wf_iff).1 h).2.2.1
  cases t <;> simp [targetOf, idOf, h.symm]

theorem idOf_of_targetOf {id : Byte} {t : Target} (h : c.targetOf id = some t) : id = c.idOf t := by
  unfold targetOf at h
  split at h
  · cases h; assumption
  · split at h
    · cases h; assumption
    · cases h

theorem targetOf_isSome_iff (id : Byte) :
    (c.targetOf id).isSome = true ↔ id = c.localId ∨ id = c.broadcastId := by
  unfold targetOf
  split
  · simp [*]
  · split <;> simp [*]

theorem idOf_ne_sync (h : c.wf = true) (t : Target) : c.idOf t ≠ syncByte := by
  have h := (c.wf_iff).1 h
  cases t
  · exact h.1
  · exact h.2.1

theorem lengthLegal_iff (l : Byte) : c.lengthLegal l = true ↔ c.lengthRetained l.toNat = true := by
  simp only [lengthLegal, lengthRetained, decide_eq_true_eq]
  omega

/-- The codes are pairwise distinct, read off one at a time (00_scope.md R12). -/
theorem codeOf_injective (h : c.wf = true) {j k : Kind} (hjk : c.codeOf j = c.codeOf k) : j = k := by
  have h := ((c.wf_iff).1 h).2.2.2.1
  simp only [List.nodup_cons, List.mem_cons, List.not_mem_nil, or_false, not_or] at h
  cases j <;> cases k <;> simp_all [codeOf]

theorem codeOf_eq_codeOf (h : c.wf = true) (j k : Kind) : c.codeOf j = c.codeOf k ↔ j = k :=
  ⟨c.codeOf_injective h, fun e => e ▸ rfl⟩

/-- The class of an identifier and a code, by kind (30_encoding.md R87). -/
theorem classOf_codeOf_collect (h : c.wf = true) (t : Target) {k : Kind}
    (hk : k = .read ∨ k = .write ∨ k = .aggRead) : c.classOf (c.idOf t) (c.codeOf k) = .collect k := by
  have e := c.codeOf_eq_codeOf h
  have hid : c.idOf t = c.localId ∨ c.idOf t = c.broadcastId := by cases t <;> simp [idOf]
  rw [classOf, if_pos hid]
  change (if c.codeOf k = c.codeOf .read then _ else if c.codeOf k = c.codeOf .write then _ else
    if c.codeOf k = c.codeOf .aggRead then _ else _) = _
  rcases hk with rfl | rfl | rfl <;> simp [e]

theorem classOf_codeOf_confirm (h : c.wf = true) {k : Kind}
    (hk : k = .ping ∨ k = .reset ∨ k = .bootload) : c.classOf c.localId (c.codeOf k) = .confirm k := by
  have e := c.codeOf_eq_codeOf h
  rw [classOf, if_pos (.inl rfl)]
  change (if c.codeOf k = c.codeOf .read then _ else if c.codeOf k = c.codeOf .write then _ else
    if c.codeOf k = c.codeOf .aggRead then _ else if c.localId = c.localId then
      if c.codeOf k = c.codeOf .ping then _ else if c.codeOf k = c.codeOf .reset then _ else
        if c.codeOf k = c.codeOf .bootload then _ else _ else _) = _
  rcases hk with rfl | rfl | rfl <;> simp [e]

/-- What a class says of the identifier, the code and the kind. -/
theorem classOf_collect {id code : Byte} {k : Kind} (h : c.classOf id code = .collect k) :
    (k = .read ∨ k = .write ∨ k = .aggRead) ∧ code = c.codeOf k ∧ (id = c.localId ∨ id = c.broadcastId) := by
  unfold classOf at h
  repeat' split at h
  all_goals first | (cases h; done) | (cases h; simp_all [codeOf])

theorem classOf_confirm {id code : Byte} {k : Kind} (h : c.classOf id code = .confirm k) :
    (k = .ping ∨ k = .reset ∨ k = .bootload) ∧ code = c.codeOf k ∧ id = c.localId := by
  unfold classOf at h
  repeat' split at h
  all_goals first | (cases h; done) | (cases h; simp_all [codeOf])

theorem classOf_rejected_iff {id code : Byte} (hid : id = c.localId ∨ id = c.broadcastId) :
    c.classOf id code = .rejected ↔ c.codeAdmitted id code = false := by
  have : (∃ x, x = c.localId ∧ id = x) ∨ id ≠ c.localId := by by_cases h : id = c.localId <;> simp [h]
  unfold classOf codeAdmitted
  rw [if_pos hid]
  split_ifs <;> simp_all

theorem collectKindOf_codeOf (h : c.wf = true) {k : Kind} (hk : k = .read ∨ k = .write ∨ k = .aggRead) :
    c.collectKindOf (c.codeOf k) = some k := by
  have e := c.codeOf_eq_codeOf h
  change (if c.codeOf k = c.codeOf .read then _ else if c.codeOf k = c.codeOf .write then _ else
    if c.codeOf k = c.codeOf .aggRead then _ else _) = _
  rcases hk with rfl | rfl | rfl <;> simp [e]

theorem collectKindOf_some {code : Byte} {k : Kind} (h : c.collectKindOf code = some k) :
    (k = .read ∨ k = .write ∨ k = .aggRead) ∧ code = c.codeOf k := by
  unfold collectKindOf at h
  repeat' split at h
  all_goals first | (cases h; done) | (cases h; simp_all [codeOf])

end Config

/-- The length of a frame: the declared length and four bytes more (30_encoding.md R82). -/
theorem frameBytes_length (id len code : Byte) (params : List Byte) :
    (frameBytes id len code params).length = params.length + 6 := by
  simp [frameBytes]

end Sys2Proof
end

