-- ==== Sys2Proof/Laws/State.lean ====
section
/-! SUPPORT. What each named update of the state does to each field, one lemma per field per update, true by
definition. No later proof unfolds a record update. -/

namespace Sys2Proof.Machine

open Sys2Proof

section Raise
variable (code : FaultCode) (s : State)
@[simp] theorem raise_cfg : (raise code s).cfg = s.cfg := rfl
@[simp] theorem raise_cstate : (raise code s).cstate = s.cstate := rfl
@[simp] theorem raise_scratch : (raise code s).scratch = s.scratch := rfl
@[simp] theorem raise_chk : (raise code s).chk = s.chk := rfl
@[simp] theorem raise_rem : (raise code s).rem = s.rem := rfl
@[simp] theorem raise_lastAction : (raise code s).lastAction = s.lastAction := rfl
@[simp] theorem raise_rxTimer : (raise code s).rxTimer = s.rxTimer := rfl
@[simp] theorem raise_sendTimer : (raise code s).sendTimer = s.sendTimer := rfl
@[simp] theorem raise_busTimer : (raise code s).busTimer = s.busTimer := rfl
@[simp] theorem raise_egress : (raise code s).egress = s.egress := rfl
@[simp] theorem raise_zlpOwed : (raise code s).zlpOwed = s.zlpOwed := rfl
@[simp] theorem raise_dir : (raise code s).dir = s.dir := rfl
@[simp] theorem raise_busTxPending : (raise code s).busTxPending = s.busTxPending := rfl
@[simp] theorem raise_passthrough : (raise code s).passthrough = s.passthrough := rfl
@[simp] theorem raise_cap : (raise code s).cap = s.cap := rfl
@[simp] theorem raise_receiveTimeout : (raise code s).receiveTimeout = s.receiveTimeout := rfl
@[simp] theorem raise_sendTimeout : (raise code s).sendTimeout = s.sendTimeout := rfl
@[simp] theorem raise_fault : (raise code s).fault = some code := rfl
@[simp] theorem raise_halted : (raise code s).halted = s.halted := rfl
@[simp] theorem raise_mainPhase : (raise code s).mainPhase = s.mainPhase := rfl
@[simp] theorem raise_consumeLeft : (raise code s).consumeLeft = s.consumeLeft := rfl
@[simp] theorem raise_uops : (raise code s).uops = s.uops := rfl
@[simp] theorem raise_pendingCall : (raise code s).pendingCall = s.pendingCall := rfl
@[simp] theorem raise_executorHold : (raise code s).executorHold = s.executorHold := rfl
@[simp] theorem raise_hostFrame : (raise code s).hostFrame = s.hostFrame := rfl
@[simp] theorem raise_hostIn : (raise code s).hostIn = s.hostIn := rfl
@[simp] theorem raise_hostConnected : (raise code s).hostConnected = s.hostConnected := rfl
@[simp] theorem raise_writeReady : (raise code s).writeReady = s.writeReady := rfl
@[simp] theorem raise_busOut : (raise code s).busOut = s.busOut := rfl
@[simp] theorem raise_hostOut : (raise code s).hostOut = s.hostOut := rfl
@[simp] theorem raise_calls : (raise code s).calls = s.calls := rfl
@[simp] theorem raise_rejects : (raise code s).rejects = s.rejects := rfl
@[simp] theorem raise_moves : (raise code s).moves = s.moves := rfl
@[simp] theorem raise_fresh : (raise code s).fresh = s.fresh := rfl
end Raise

section PushEgress
variable (b : Byte) (s : State)
@[simp] theorem pushEgress_cfg : (pushEgress b s).cfg = s.cfg := rfl
@[simp] theorem pushEgress_cstate : (pushEgress b s).cstate = s.cstate := rfl
@[simp] theorem pushEgress_scratch : (pushEgress b s).scratch = s.scratch := rfl
@[simp] theorem pushEgress_chk : (pushEgress b s).chk = s.chk := rfl
@[simp] theorem pushEgress_rem : (pushEgress b s).rem = s.rem := rfl
@[simp] theorem pushEgress_lastAction : (pushEgress b s).lastAction = s.lastAction := rfl
@[simp] theorem pushEgress_rxTimer : (pushEgress b s).rxTimer = s.rxTimer := rfl
@[simp] theorem pushEgress_sendTimer : (pushEgress b s).sendTimer = 0 := rfl
@[simp] theorem pushEgress_busTimer : (pushEgress b s).busTimer = s.busTimer := rfl
@[simp] theorem pushEgress_egress : (pushEgress b s).egress = s.egress ++ [b] := rfl
@[simp] theorem pushEgress_zlpOwed : (pushEgress b s).zlpOwed = s.zlpOwed := rfl
@[simp] theorem pushEgress_dir : (pushEgress b s).dir = s.dir := rfl
@[simp] theorem pushEgress_busTxPending : (pushEgress b s).busTxPending = s.busTxPending := rfl
@[simp] theorem pushEgress_passthrough : (pushEgress b s).passthrough = s.passthrough := rfl
@[simp] theorem pushEgress_cap : (pushEgress b s).cap = s.cap := rfl
@[simp] theorem pushEgress_receiveTimeout : (pushEgress b s).receiveTimeout = s.receiveTimeout := rfl
@[simp] theorem pushEgress_sendTimeout : (pushEgress b s).sendTimeout = s.sendTimeout := rfl
@[simp] theorem pushEgress_fault : (pushEgress b s).fault = s.fault := rfl
@[simp] theorem pushEgress_halted : (pushEgress b s).halted = s.halted := rfl
@[simp] theorem pushEgress_mainPhase : (pushEgress b s).mainPhase = s.mainPhase := rfl
@[simp] theorem pushEgress_consumeLeft : (pushEgress b s).consumeLeft = s.consumeLeft := rfl
@[simp] theorem pushEgress_uops : (pushEgress b s).uops = s.uops := rfl
@[simp] theorem pushEgress_pendingCall : (pushEgress b s).pendingCall = s.pendingCall := rfl
@[simp] theorem pushEgress_executorHold : (pushEgress b s).executorHold = s.executorHold := rfl
@[simp] theorem pushEgress_hostFrame : (pushEgress b s).hostFrame = s.hostFrame := rfl
@[simp] theorem pushEgress_hostIn : (pushEgress b s).hostIn = s.hostIn := rfl
@[simp] theorem pushEgress_hostConnected : (pushEgress b s).hostConnected = s.hostConnected := rfl
@[simp] theorem pushEgress_writeReady : (pushEgress b s).writeReady = s.writeReady := rfl
@[simp] theorem pushEgress_busOut : (pushEgress b s).busOut = s.busOut := rfl
@[simp] theorem pushEgress_hostOut : (pushEgress b s).hostOut = s.hostOut := rfl
@[simp] theorem pushEgress_calls : (pushEgress b s).calls = s.calls := rfl
@[simp] theorem pushEgress_rejects : (pushEgress b s).rejects = s.rejects := rfl
@[simp] theorem pushEgress_moves : (pushEgress b s).moves = s.moves := rfl
@[simp] theorem pushEgress_fresh : (pushEgress b s).fresh = s.fresh := rfl
end PushEgress

section HostCommit
variable (s : State)
@[simp] theorem hostCommit_cfg : (hostCommit s).cfg = s.cfg := rfl
@[simp] theorem hostCommit_cstate : (hostCommit s).cstate = s.cstate := rfl
@[simp] theorem hostCommit_scratch : (hostCommit s).scratch = s.scratch := rfl
@[simp] theorem hostCommit_chk : (hostCommit s).chk = s.chk := rfl
@[simp] theorem hostCommit_rem : (hostCommit s).rem = s.rem := rfl
@[simp] theorem hostCommit_lastAction : (hostCommit s).lastAction = s.lastAction := rfl
@[simp] theorem hostCommit_rxTimer : (hostCommit s).rxTimer = s.rxTimer := rfl
@[simp] theorem hostCommit_sendTimer : (hostCommit s).sendTimer = s.sendTimer := rfl
@[simp] theorem hostCommit_busTimer : (hostCommit s).busTimer = s.busTimer := rfl
@[simp] theorem hostCommit_egress : (hostCommit s).egress = s.egress := rfl
@[simp] theorem hostCommit_zlpOwed : (hostCommit s).zlpOwed = s.zlpOwed := rfl
@[simp] theorem hostCommit_dir : (hostCommit s).dir = s.dir := rfl
@[simp] theorem hostCommit_busTxPending : (hostCommit s).busTxPending = s.busTxPending := rfl
@[simp] theorem hostCommit_passthrough : (hostCommit s).passthrough = s.passthrough := rfl
@[simp] theorem hostCommit_cap : (hostCommit s).cap = s.cap := rfl
@[simp] theorem hostCommit_receiveTimeout : (hostCommit s).receiveTimeout = s.receiveTimeout := rfl
@[simp] theorem hostCommit_sendTimeout : (hostCommit s).sendTimeout = s.sendTimeout := rfl
@[simp] theorem hostCommit_fault : (hostCommit s).fault = s.fault := rfl
@[simp] theorem hostCommit_halted : (hostCommit s).halted = s.halted := rfl
@[simp] theorem hostCommit_mainPhase : (hostCommit s).mainPhase = s.mainPhase := rfl
@[simp] theorem hostCommit_consumeLeft : (hostCommit s).consumeLeft = s.consumeLeft := rfl
@[simp] theorem hostCommit_uops : (hostCommit s).uops = s.uops := rfl
@[simp] theorem hostCommit_pendingCall : (hostCommit s).pendingCall = s.pendingCall := rfl
@[simp] theorem hostCommit_executorHold : (hostCommit s).executorHold = s.executorHold := rfl
@[simp] theorem hostCommit_hostFrame : (hostCommit s).hostFrame = [] := rfl
@[simp] theorem hostCommit_hostIn : (hostCommit s).hostIn = s.hostIn := rfl
@[simp] theorem hostCommit_hostConnected : (hostCommit s).hostConnected = s.hostConnected := rfl
@[simp] theorem hostCommit_writeReady : (hostCommit s).writeReady = s.writeReady := rfl
@[simp] theorem hostCommit_busOut : (hostCommit s).busOut = s.busOut := rfl
@[simp] theorem hostCommit_hostOut : (hostCommit s).hostOut = s.hostOut ++ [s.hostFrame] := rfl
@[simp] theorem hostCommit_calls : (hostCommit s).calls = s.calls := rfl
@[simp] theorem hostCommit_rejects : (hostCommit s).rejects = s.rejects := rfl
@[simp] theorem hostCommit_moves : (hostCommit s).moves = s.moves := rfl
@[simp] theorem hostCommit_fresh : (hostCommit s).fresh = s.fresh := rfl
end HostCommit

section SwitchToTransmit
variable (s : State)
@[simp] theorem switchToTransmit_cfg : (switchToTransmit s).cfg = s.cfg := rfl
@[simp] theorem switchToTransmit_cstate : (switchToTransmit s).cstate = s.cstate := rfl
@[simp] theorem switchToTransmit_scratch : (switchToTransmit s).scratch = s.scratch := rfl
@[simp] theorem switchToTransmit_chk : (switchToTransmit s).chk = s.chk := rfl
@[simp] theorem switchToTransmit_rem : (switchToTransmit s).rem = s.rem := rfl
@[simp] theorem switchToTransmit_lastAction : (switchToTransmit s).lastAction = s.lastAction := rfl
@[simp] theorem switchToTransmit_rxTimer : (switchToTransmit s).rxTimer = s.rxTimer := rfl
@[simp] theorem switchToTransmit_sendTimer : (switchToTransmit s).sendTimer = s.sendTimer := rfl
@[simp] theorem switchToTransmit_busTimer : (switchToTransmit s).busTimer = s.busTimer := rfl
@[simp] theorem switchToTransmit_egress : (switchToTransmit s).egress = s.egress := rfl
@[simp] theorem switchToTransmit_zlpOwed : (switchToTransmit s).zlpOwed = s.zlpOwed := rfl
@[simp] theorem switchToTransmit_dir : (switchToTransmit s).dir = .tx := rfl
@[simp] theorem switchToTransmit_busTxPending : (switchToTransmit s).busTxPending = s.busTxPending := rfl
@[simp] theorem switchToTransmit_passthrough : (switchToTransmit s).passthrough = s.passthrough := rfl
@[simp] theorem switchToTransmit_cap : (switchToTransmit s).cap = s.cap := rfl
@[simp] theorem switchToTransmit_receiveTimeout : (switchToTransmit s).receiveTimeout = s.receiveTimeout := rfl
@[simp] theorem switchToTransmit_sendTimeout : (switchToTransmit s).sendTimeout = s.sendTimeout := rfl
@[simp] theorem switchToTransmit_fault : (switchToTransmit s).fault = s.fault := rfl
@[simp] theorem switchToTransmit_halted : (switchToTransmit s).halted = s.halted := rfl
@[simp] theorem switchToTransmit_mainPhase : (switchToTransmit s).mainPhase = s.mainPhase := rfl
@[simp] theorem switchToTransmit_consumeLeft : (switchToTransmit s).consumeLeft = s.consumeLeft := rfl
@[simp] theorem switchToTransmit_uops : (switchToTransmit s).uops = s.uops := rfl
@[simp] theorem switchToTransmit_pendingCall : (switchToTransmit s).pendingCall = s.pendingCall := rfl
@[simp] theorem switchToTransmit_executorHold : (switchToTransmit s).executorHold = s.executorHold := rfl
@[simp] theorem switchToTransmit_hostFrame : (switchToTransmit s).hostFrame = s.hostFrame := rfl
@[simp] theorem switchToTransmit_hostIn : (switchToTransmit s).hostIn = s.hostIn := rfl
@[simp] theorem switchToTransmit_hostConnected : (switchToTransmit s).hostConnected = s.hostConnected := rfl
@[simp] theorem switchToTransmit_writeReady : (switchToTransmit s).writeReady = s.writeReady := rfl
@[simp] theorem switchToTransmit_busOut : (switchToTransmit s).busOut = s.busOut := rfl
@[simp] theorem switchToTransmit_hostOut : (switchToTransmit s).hostOut = s.hostOut := rfl
@[simp] theorem switchToTransmit_calls : (switchToTransmit s).calls = s.calls := rfl
@[simp] theorem switchToTransmit_rejects : (switchToTransmit s).rejects = s.rejects := rfl
@[simp] theorem switchToTransmit_moves : (switchToTransmit s).moves = s.moves := rfl
@[simp] theorem switchToTransmit_fresh : (switchToTransmit s).fresh = s.fresh := rfl
end SwitchToTransmit

section SendBus
variable (b : Byte) (s : State)
@[simp] theorem sendBus_cfg : (sendBus b s).cfg = s.cfg := rfl
@[simp] theorem sendBus_cstate : (sendBus b s).cstate = s.cstate := rfl
@[simp] theorem sendBus_scratch : (sendBus b s).scratch = s.scratch := rfl
@[simp] theorem sendBus_chk : (sendBus b s).chk = s.chk := rfl
@[simp] theorem sendBus_rem : (sendBus b s).rem = s.rem := rfl
@[simp] theorem sendBus_lastAction : (sendBus b s).lastAction = s.lastAction := rfl
@[simp] theorem sendBus_rxTimer : (sendBus b s).rxTimer = s.rxTimer := rfl
@[simp] theorem sendBus_sendTimer : (sendBus b s).sendTimer = s.sendTimer := rfl
@[simp] theorem sendBus_busTimer : (sendBus b s).busTimer = s.busTimer := rfl
@[simp] theorem sendBus_egress : (sendBus b s).egress = s.egress := rfl
@[simp] theorem sendBus_zlpOwed : (sendBus b s).zlpOwed = s.zlpOwed := rfl
@[simp] theorem sendBus_dir : (sendBus b s).dir = .tx := rfl
@[simp] theorem sendBus_busTxPending : (sendBus b s).busTxPending = s.busTxPending + 1 := rfl
@[simp] theorem sendBus_passthrough : (sendBus b s).passthrough = s.passthrough := rfl
@[simp] theorem sendBus_cap : (sendBus b s).cap = s.cap := rfl
@[simp] theorem sendBus_receiveTimeout : (sendBus b s).receiveTimeout = s.receiveTimeout := rfl
@[simp] theorem sendBus_sendTimeout : (sendBus b s).sendTimeout = s.sendTimeout := rfl
@[simp] theorem sendBus_fault : (sendBus b s).fault = s.fault := rfl
@[simp] theorem sendBus_halted : (sendBus b s).halted = s.halted := rfl
@[simp] theorem sendBus_mainPhase : (sendBus b s).mainPhase = s.mainPhase := rfl
@[simp] theorem sendBus_consumeLeft : (sendBus b s).consumeLeft = s.consumeLeft := rfl
@[simp] theorem sendBus_uops : (sendBus b s).uops = s.uops := rfl
@[simp] theorem sendBus_pendingCall : (sendBus b s).pendingCall = s.pendingCall := rfl
@[simp] theorem sendBus_executorHold : (sendBus b s).executorHold = s.executorHold := rfl
@[simp] theorem sendBus_hostFrame : (sendBus b s).hostFrame = s.hostFrame := rfl
@[simp] theorem sendBus_hostIn : (sendBus b s).hostIn = s.hostIn := rfl
@[simp] theorem sendBus_hostConnected : (sendBus b s).hostConnected = s.hostConnected := rfl
@[simp] theorem sendBus_writeReady : (sendBus b s).writeReady = s.writeReady := rfl
@[simp] theorem sendBus_busOut : (sendBus b s).busOut = s.busOut ++ [b] := rfl
@[simp] theorem sendBus_hostOut : (sendBus b s).hostOut = s.hostOut := rfl
@[simp] theorem sendBus_calls : (sendBus b s).calls = s.calls := rfl
@[simp] theorem sendBus_rejects : (sendBus b s).rejects = s.rejects := rfl
@[simp] theorem sendBus_moves : (sendBus b s).moves = s.moves := rfl
@[simp] theorem sendBus_fresh : (sendBus b s).fresh = s.fresh := rfl
end SendBus

section BeginDispatch
variable (us : List Uop) (s : State)
@[simp] theorem beginDispatch_cfg : (beginDispatch us s).cfg = s.cfg := rfl
@[simp] theorem beginDispatch_cstate : (beginDispatch us s).cstate = s.cstate := rfl
@[simp] theorem beginDispatch_scratch : (beginDispatch us s).scratch = s.scratch := rfl
@[simp] theorem beginDispatch_chk : (beginDispatch us s).chk = s.chk := rfl
@[simp] theorem beginDispatch_rem : (beginDispatch us s).rem = s.rem := rfl
@[simp] theorem beginDispatch_lastAction : (beginDispatch us s).lastAction = s.lastAction := rfl
@[simp] theorem beginDispatch_rxTimer : (beginDispatch us s).rxTimer = s.rxTimer := rfl
@[simp] theorem beginDispatch_sendTimer : (beginDispatch us s).sendTimer = s.sendTimer := rfl
@[simp] theorem beginDispatch_busTimer : (beginDispatch us s).busTimer = s.busTimer := rfl
@[simp] theorem beginDispatch_egress : (beginDispatch us s).egress = s.egress := rfl
@[simp] theorem beginDispatch_zlpOwed : (beginDispatch us s).zlpOwed = s.zlpOwed := rfl
@[simp] theorem beginDispatch_dir : (beginDispatch us s).dir = s.dir := rfl
@[simp] theorem beginDispatch_busTxPending : (beginDispatch us s).busTxPending = s.busTxPending := rfl
@[simp] theorem beginDispatch_passthrough : (beginDispatch us s).passthrough = s.passthrough := rfl
@[simp] theorem beginDispatch_cap : (beginDispatch us s).cap = s.cap := rfl
@[simp] theorem beginDispatch_receiveTimeout : (beginDispatch us s).receiveTimeout = s.receiveTimeout := rfl
@[simp] theorem beginDispatch_sendTimeout : (beginDispatch us s).sendTimeout = s.sendTimeout := rfl
@[simp] theorem beginDispatch_fault : (beginDispatch us s).fault = s.fault := rfl
@[simp] theorem beginDispatch_halted : (beginDispatch us s).halted = s.halted := rfl
@[simp] theorem beginDispatch_mainPhase : (beginDispatch us s).mainPhase = .dispatch := rfl
@[simp] theorem beginDispatch_consumeLeft : (beginDispatch us s).consumeLeft = s.consumeLeft := rfl
@[simp] theorem beginDispatch_uops : (beginDispatch us s).uops = us ++ s.uops.tail := rfl
@[simp] theorem beginDispatch_pendingCall : (beginDispatch us s).pendingCall = s.pendingCall := rfl
@[simp] theorem beginDispatch_executorHold : (beginDispatch us s).executorHold = s.executorHold := rfl
@[simp] theorem beginDispatch_hostFrame : (beginDispatch us s).hostFrame = s.hostFrame := rfl
@[simp] theorem beginDispatch_hostIn : (beginDispatch us s).hostIn = s.hostIn := rfl
@[simp] theorem beginDispatch_hostConnected : (beginDispatch us s).hostConnected = s.hostConnected := rfl
@[simp] theorem beginDispatch_writeReady : (beginDispatch us s).writeReady = s.writeReady := rfl
@[simp] theorem beginDispatch_busOut : (beginDispatch us s).busOut = s.busOut := rfl
@[simp] theorem beginDispatch_hostOut : (beginDispatch us s).hostOut = s.hostOut := rfl
@[simp] theorem beginDispatch_calls : (beginDispatch us s).calls = s.calls := rfl
@[simp] theorem beginDispatch_rejects : (beginDispatch us s).rejects = s.rejects := rfl
@[simp] theorem beginDispatch_moves : (beginDispatch us s).moves = s.moves := rfl
@[simp] theorem beginDispatch_fresh : (beginDispatch us s).fresh = s.fresh := rfl
end BeginDispatch

section IssueCall
variable (call : Call) (s : State)
@[simp] theorem issueCall_cfg : (issueCall call s).cfg = s.cfg := rfl
@[simp] theorem issueCall_cstate : (issueCall call s).cstate = s.cstate := rfl
@[simp] theorem issueCall_scratch : (issueCall call s).scratch = s.scratch := rfl
@[simp] theorem issueCall_chk : (issueCall call s).chk = s.chk := rfl
@[simp] theorem issueCall_rem : (issueCall call s).rem = s.rem := rfl
@[simp] theorem issueCall_lastAction : (issueCall call s).lastAction = s.lastAction := rfl
@[simp] theorem issueCall_rxTimer : (issueCall call s).rxTimer = s.rxTimer := rfl
@[simp] theorem issueCall_sendTimer : (issueCall call s).sendTimer = s.sendTimer := rfl
@[simp] theorem issueCall_busTimer : (issueCall call s).busTimer = s.busTimer := rfl
@[simp] theorem issueCall_egress : (issueCall call s).egress = s.egress := rfl
@[simp] theorem issueCall_zlpOwed : (issueCall call s).zlpOwed = s.zlpOwed := rfl
@[simp] theorem issueCall_dir : (issueCall call s).dir = s.dir := rfl
@[simp] theorem issueCall_busTxPending : (issueCall call s).busTxPending = s.busTxPending := rfl
@[simp] theorem issueCall_passthrough : (issueCall call s).passthrough = s.passthrough := rfl
@[simp] theorem issueCall_cap : (issueCall call s).cap = s.cap := rfl
@[simp] theorem issueCall_receiveTimeout : (issueCall call s).receiveTimeout = s.receiveTimeout := rfl
@[simp] theorem issueCall_sendTimeout : (issueCall call s).sendTimeout = s.sendTimeout := rfl
@[simp] theorem issueCall_fault : (issueCall call s).fault = s.fault := rfl
@[simp] theorem issueCall_halted : (issueCall call s).halted = s.halted := rfl
@[simp] theorem issueCall_mainPhase : (issueCall call s).mainPhase = s.mainPhase := rfl
@[simp] theorem issueCall_consumeLeft : (issueCall call s).consumeLeft = s.consumeLeft := rfl
@[simp] theorem issueCall_uops : (issueCall call s).uops = s.uops := rfl
@[simp] theorem issueCall_pendingCall : (issueCall call s).pendingCall = some call := rfl
@[simp] theorem issueCall_executorHold : (issueCall call s).executorHold = s.executorHold := rfl
@[simp] theorem issueCall_hostFrame : (issueCall call s).hostFrame = s.hostFrame := rfl
@[simp] theorem issueCall_hostIn : (issueCall call s).hostIn = s.hostIn := rfl
@[simp] theorem issueCall_hostConnected : (issueCall call s).hostConnected = s.hostConnected := rfl
@[simp] theorem issueCall_writeReady : (issueCall call s).writeReady = s.writeReady := rfl
@[simp] theorem issueCall_busOut : (issueCall call s).busOut = s.busOut := rfl
@[simp] theorem issueCall_hostOut : (issueCall call s).hostOut = s.hostOut := rfl
@[simp] theorem issueCall_calls : (issueCall call s).calls = s.calls ++ [call] := rfl
@[simp] theorem issueCall_rejects : (issueCall call s).rejects = s.rejects := rfl
@[simp] theorem issueCall_moves : (issueCall call s).moves = s.moves := rfl
@[simp] theorem issueCall_fresh : (issueCall call s).fresh = s.fresh := rfl
end IssueCall

section RestartBlock
variable (b : Bool) (s : State)
@[simp] theorem restartBlock_cfg : (restartBlock b s).cfg = s.cfg := rfl
@[simp] theorem restartBlock_cstate : (restartBlock b s).cstate = s.cstate := rfl
@[simp] theorem restartBlock_scratch : (restartBlock b s).scratch = s.scratch := rfl
@[simp] theorem restartBlock_chk : (restartBlock b s).chk = s.chk := rfl
@[simp] theorem restartBlock_rem : (restartBlock b s).rem = s.rem := rfl
@[simp] theorem restartBlock_lastAction : (restartBlock b s).lastAction = s.lastAction := rfl
@[simp] theorem restartBlock_rxTimer : (restartBlock b s).rxTimer = s.rxTimer := rfl
@[simp] theorem restartBlock_sendTimer : (restartBlock b s).sendTimer = s.sendTimer := rfl
@[simp] theorem restartBlock_busTimer : (restartBlock b s).busTimer = s.busTimer := rfl
@[simp] theorem restartBlock_egress : (restartBlock b s).egress = s.egress := rfl
@[simp] theorem restartBlock_zlpOwed : (restartBlock b s).zlpOwed = s.zlpOwed := rfl
@[simp] theorem restartBlock_dir : (restartBlock b s).dir = s.dir := rfl
@[simp] theorem restartBlock_busTxPending : (restartBlock b s).busTxPending = s.busTxPending := rfl
@[simp] theorem restartBlock_passthrough : (restartBlock b s).passthrough = s.passthrough := rfl
@[simp] theorem restartBlock_cap : (restartBlock b s).cap = s.cap := rfl
@[simp] theorem restartBlock_receiveTimeout : (restartBlock b s).receiveTimeout = s.receiveTimeout := rfl
@[simp] theorem restartBlock_sendTimeout : (restartBlock b s).sendTimeout = s.sendTimeout := rfl
@[simp] theorem restartBlock_fault : (restartBlock b s).fault = s.fault := rfl
@[simp] theorem restartBlock_halted : (restartBlock b s).halted = some (if b then .bootload else .reset) := rfl
@[simp] theorem restartBlock_mainPhase : (restartBlock b s).mainPhase = s.mainPhase := rfl
@[simp] theorem restartBlock_consumeLeft : (restartBlock b s).consumeLeft = s.consumeLeft := rfl
@[simp] theorem restartBlock_uops : (restartBlock b s).uops = s.uops := rfl
@[simp] theorem restartBlock_pendingCall : (restartBlock b s).pendingCall = s.pendingCall := rfl
@[simp] theorem restartBlock_executorHold : (restartBlock b s).executorHold = s.executorHold := rfl
@[simp] theorem restartBlock_hostFrame : (restartBlock b s).hostFrame = s.hostFrame := rfl
@[simp] theorem restartBlock_hostIn : (restartBlock b s).hostIn = s.hostIn := rfl
@[simp] theorem restartBlock_hostConnected : (restartBlock b s).hostConnected = s.hostConnected := rfl
@[simp] theorem restartBlock_writeReady : (restartBlock b s).writeReady = s.writeReady := rfl
@[simp] theorem restartBlock_busOut : (restartBlock b s).busOut = s.busOut := rfl
@[simp] theorem restartBlock_hostOut : (restartBlock b s).hostOut = s.hostOut := rfl
@[simp] theorem restartBlock_calls : (restartBlock b s).calls = s.calls ++ [.restart b] := rfl
@[simp] theorem restartBlock_rejects : (restartBlock b s).rejects = s.rejects := rfl
@[simp] theorem restartBlock_moves : (restartBlock b s).moves = s.moves := rfl
@[simp] theorem restartBlock_fresh : (restartBlock b s).fresh = s.fresh := rfl
end RestartBlock

section Received
variable (s : State)
@[simp] theorem received_cfg : (received s).cfg = s.cfg := rfl
@[simp] theorem received_cstate : (received s).cstate = s.cstate := rfl
@[simp] theorem received_scratch : (received s).scratch = s.scratch := rfl
@[simp] theorem received_chk : (received s).chk = s.chk := rfl
@[simp] theorem received_rem : (received s).rem = s.rem := rfl
@[simp] theorem received_lastAction : (received s).lastAction = s.lastAction := rfl
@[simp] theorem received_rxTimer : (received s).rxTimer = 0 := rfl
@[simp] theorem received_sendTimer : (received s).sendTimer = s.sendTimer := rfl
@[simp] theorem received_busTimer : (received s).busTimer = s.busTimer := rfl
@[simp] theorem received_egress : (received s).egress = s.egress := rfl
@[simp] theorem received_zlpOwed : (received s).zlpOwed = s.zlpOwed := rfl
@[simp] theorem received_dir : (received s).dir = s.dir := rfl
@[simp] theorem received_busTxPending : (received s).busTxPending = s.busTxPending := rfl
@[simp] theorem received_passthrough : (received s).passthrough = s.passthrough := rfl
@[simp] theorem received_cap : (received s).cap = s.cap := rfl
@[simp] theorem received_receiveTimeout : (received s).receiveTimeout = s.receiveTimeout := rfl
@[simp] theorem received_sendTimeout : (received s).sendTimeout = s.sendTimeout := rfl
@[simp] theorem received_fault : (received s).fault = s.fault := rfl
@[simp] theorem received_halted : (received s).halted = s.halted := rfl
@[simp] theorem received_mainPhase : (received s).mainPhase = s.mainPhase := rfl
@[simp] theorem received_consumeLeft : (received s).consumeLeft = s.consumeLeft - 1 := rfl
@[simp] theorem received_uops : (received s).uops = [] := rfl
@[simp] theorem received_pendingCall : (received s).pendingCall = s.pendingCall := rfl
@[simp] theorem received_executorHold : (received s).executorHold = s.executorHold := rfl
@[simp] theorem received_hostFrame : (received s).hostFrame = s.hostFrame := rfl
@[simp] theorem received_hostIn : (received s).hostIn = s.hostIn.tail := rfl
@[simp] theorem received_hostConnected : (received s).hostConnected = s.hostConnected := rfl
@[simp] theorem received_writeReady : (received s).writeReady = s.writeReady := rfl
@[simp] theorem received_busOut : (received s).busOut = s.busOut := rfl
@[simp] theorem received_hostOut : (received s).hostOut = s.hostOut := rfl
@[simp] theorem received_calls : (received s).calls = s.calls := rfl
@[simp] theorem received_rejects : (received s).rejects = s.rejects := rfl
@[simp] theorem received_moves : (received s).moves = s.moves := rfl
@[simp] theorem received_fresh : (received s).fresh = s.fresh := rfl
end Received

section Appended
variable (b : Byte) (s : State)
@[simp] theorem appended_cfg : (appended b s).cfg = s.cfg := rfl
@[simp] theorem appended_cstate : (appended b s).cstate = s.cstate := rfl
@[simp] theorem appended_scratch : (appended b s).scratch = s.scratch ++ [b] := rfl
@[simp] theorem appended_chk : (appended b s).chk = s.chk := rfl
@[simp] theorem appended_rem : (appended b s).rem = s.rem := rfl
@[simp] theorem appended_lastAction : (appended b s).lastAction = s.lastAction := rfl
@[simp] theorem appended_rxTimer : (appended b s).rxTimer = 0 := rfl
@[simp] theorem appended_sendTimer : (appended b s).sendTimer = s.sendTimer := rfl
@[simp] theorem appended_busTimer : (appended b s).busTimer = s.busTimer := rfl
@[simp] theorem appended_egress : (appended b s).egress = s.egress := rfl
@[simp] theorem appended_zlpOwed : (appended b s).zlpOwed = s.zlpOwed := rfl
@[simp] theorem appended_dir : (appended b s).dir = s.dir := rfl
@[simp] theorem appended_busTxPending : (appended b s).busTxPending = s.busTxPending := rfl
@[simp] theorem appended_passthrough : (appended b s).passthrough = s.passthrough := rfl
@[simp] theorem appended_cap : (appended b s).cap = s.cap := rfl
@[simp] theorem appended_receiveTimeout : (appended b s).receiveTimeout = s.receiveTimeout := rfl
@[simp] theorem appended_sendTimeout : (appended b s).sendTimeout = s.sendTimeout := rfl
@[simp] theorem appended_fault : (appended b s).fault = s.fault := rfl
@[simp] theorem appended_halted : (appended b s).halted = s.halted := rfl
@[simp] theorem appended_mainPhase : (appended b s).mainPhase = s.mainPhase := rfl
@[simp] theorem appended_consumeLeft : (appended b s).consumeLeft = s.consumeLeft - 1 := rfl
@[simp] theorem appended_uops : (appended b s).uops = [] := rfl
@[simp] theorem appended_pendingCall : (appended b s).pendingCall = s.pendingCall := rfl
@[simp] theorem appended_executorHold : (appended b s).executorHold = s.executorHold := rfl
@[simp] theorem appended_hostFrame : (appended b s).hostFrame = s.hostFrame := rfl
@[simp] theorem appended_hostIn : (appended b s).hostIn = s.hostIn.tail := rfl
@[simp] theorem appended_hostConnected : (appended b s).hostConnected = s.hostConnected := rfl
@[simp] theorem appended_writeReady : (appended b s).writeReady = s.writeReady := rfl
@[simp] theorem appended_busOut : (appended b s).busOut = s.busOut := rfl
@[simp] theorem appended_hostOut : (appended b s).hostOut = s.hostOut := rfl
@[simp] theorem appended_calls : (appended b s).calls = s.calls := rfl
@[simp] theorem appended_rejects : (appended b s).rejects = s.rejects := rfl
@[simp] theorem appended_moves : (appended b s).moves = s.moves := rfl
@[simp] theorem appended_fresh : (appended b s).fresh = s.fresh := rfl
end Appended

section Resync
variable (r : RejectReason) (s : State)
@[simp] theorem resync_cfg : (resync r s).cfg = s.cfg := rfl
@[simp] theorem resync_cstate : (resync r s).cstate = if s.scratch.getLast? = some syncByte then .seekSync2 else .seekSync1 := rfl
@[simp] theorem resync_scratch : (resync r s).scratch = resyncKept s.scratch := rfl
@[simp] theorem resync_chk : (resync r s).chk = 0#8 := rfl
@[simp] theorem resync_rem : (resync r s).rem = 0 := rfl
@[simp] theorem resync_lastAction : (resync r s).lastAction = .frameRejected := rfl
@[simp] theorem resync_rxTimer : (resync r s).rxTimer = if s.scratch.getLast? = some syncByte then 0 else s.rxTimer := rfl
@[simp] theorem resync_sendTimer : (resync r s).sendTimer = s.sendTimer := rfl
@[simp] theorem resync_busTimer : (resync r s).busTimer = s.busTimer := rfl
@[simp] theorem resync_egress : (resync r s).egress = s.egress := rfl
@[simp] theorem resync_zlpOwed : (resync r s).zlpOwed = s.zlpOwed := rfl
@[simp] theorem resync_dir : (resync r s).dir = s.dir := rfl
@[simp] theorem resync_busTxPending : (resync r s).busTxPending = s.busTxPending := rfl
@[simp] theorem resync_passthrough : (resync r s).passthrough = s.passthrough := rfl
@[simp] theorem resync_cap : (resync r s).cap = s.cap := rfl
@[simp] theorem resync_receiveTimeout : (resync r s).receiveTimeout = s.receiveTimeout := rfl
@[simp] theorem resync_sendTimeout : (resync r s).sendTimeout = s.sendTimeout := rfl
@[simp] theorem resync_fault : (resync r s).fault = s.fault := rfl
@[simp] theorem resync_halted : (resync r s).halted = s.halted := rfl
@[simp] theorem resync_mainPhase : (resync r s).mainPhase = s.mainPhase := rfl
@[simp] theorem resync_consumeLeft : (resync r s).consumeLeft = s.consumeLeft := rfl
@[simp] theorem resync_uops : (resync r s).uops = s.uops ++ .reject r :: (resyncRelayed s.scratch).map .busWrite := rfl
@[simp] theorem resync_pendingCall : (resync r s).pendingCall = s.pendingCall := rfl
@[simp] theorem resync_executorHold : (resync r s).executorHold = s.executorHold := rfl
@[simp] theorem resync_hostFrame : (resync r s).hostFrame = s.hostFrame := rfl
@[simp] theorem resync_hostIn : (resync r s).hostIn = s.hostIn := rfl
@[simp] theorem resync_hostConnected : (resync r s).hostConnected = s.hostConnected := rfl
@[simp] theorem resync_writeReady : (resync r s).writeReady = s.writeReady := rfl
@[simp] theorem resync_busOut : (resync r s).busOut = s.busOut := rfl
@[simp] theorem resync_hostOut : (resync r s).hostOut = s.hostOut := rfl
@[simp] theorem resync_calls : (resync r s).calls = s.calls := rfl
@[simp] theorem resync_rejects : (resync r s).rejects = s.rejects := rfl
@[simp] theorem resync_moves : (resync r s).moves = s.moves := rfl
@[simp] theorem resync_fresh : (resync r s).fresh = s.fresh := rfl
end Resync

section RelayForeign
variable (b : Byte) (s : State)
@[simp] theorem relayForeign_cfg : (relayForeign b s).cfg = s.cfg := rfl
@[simp] theorem relayForeign_cstate : (relayForeign b s).cstate = if b = 0#8 then .seekSync1 else .relayRemainder := rfl
@[simp] theorem relayForeign_scratch : (relayForeign b s).scratch = [] := rfl
@[simp] theorem relayForeign_chk : (relayForeign b s).chk = s.chk := rfl
@[simp] theorem relayForeign_rem : (relayForeign b s).rem = if b = 0#8 then s.rem else b.toNat := rfl
@[simp] theorem relayForeign_lastAction : (relayForeign b s).lastAction = .passedThrough := rfl
@[simp] theorem relayForeign_rxTimer : (relayForeign b s).rxTimer = s.rxTimer := rfl
@[simp] theorem relayForeign_sendTimer : (relayForeign b s).sendTimer = s.sendTimer := rfl
@[simp] theorem relayForeign_busTimer : (relayForeign b s).busTimer = s.busTimer := rfl
@[simp] theorem relayForeign_egress : (relayForeign b s).egress = s.egress := rfl
@[simp] theorem relayForeign_zlpOwed : (relayForeign b s).zlpOwed = s.zlpOwed := rfl
@[simp] theorem relayForeign_dir : (relayForeign b s).dir = s.dir := rfl
@[simp] theorem relayForeign_busTxPending : (relayForeign b s).busTxPending = s.busTxPending := rfl
@[simp] theorem relayForeign_passthrough : (relayForeign b s).passthrough = s.passthrough := rfl
@[simp] theorem relayForeign_cap : (relayForeign b s).cap = s.cap := rfl
@[simp] theorem relayForeign_receiveTimeout : (relayForeign b s).receiveTimeout = s.receiveTimeout := rfl
@[simp] theorem relayForeign_sendTimeout : (relayForeign b s).sendTimeout = s.sendTimeout := rfl
@[simp] theorem relayForeign_fault : (relayForeign b s).fault = s.fault := rfl
@[simp] theorem relayForeign_halted : (relayForeign b s).halted = s.halted := rfl
@[simp] theorem relayForeign_mainPhase : (relayForeign b s).mainPhase = s.mainPhase := rfl
@[simp] theorem relayForeign_consumeLeft : (relayForeign b s).consumeLeft = s.consumeLeft := rfl
@[simp] theorem relayForeign_uops : (relayForeign b s).uops = s.scratch.map .busWrite := rfl
@[simp] theorem relayForeign_pendingCall : (relayForeign b s).pendingCall = s.pendingCall := rfl
@[simp] theorem relayForeign_executorHold : (relayForeign b s).executorHold = s.executorHold := rfl
@[simp] theorem relayForeign_hostFrame : (relayForeign b s).hostFrame = s.hostFrame := rfl
@[simp] theorem relayForeign_hostIn : (relayForeign b s).hostIn = s.hostIn := rfl
@[simp] theorem relayForeign_hostConnected : (relayForeign b s).hostConnected = s.hostConnected := rfl
@[simp] theorem relayForeign_writeReady : (relayForeign b s).writeReady = s.writeReady := rfl
@[simp] theorem relayForeign_busOut : (relayForeign b s).busOut = s.busOut := rfl
@[simp] theorem relayForeign_hostOut : (relayForeign b s).hostOut = s.hostOut := rfl
@[simp] theorem relayForeign_calls : (relayForeign b s).calls = s.calls := rfl
@[simp] theorem relayForeign_rejects : (relayForeign b s).rejects = s.rejects := rfl
@[simp] theorem relayForeign_moves : (relayForeign b s).moves = s.moves := rfl
@[simp] theorem relayForeign_fresh : (relayForeign b s).fresh = s.fresh := rfl
end RelayForeign

section AcceptInstrByte
variable (k : Kind) (id len b : Byte) (s : State)
@[simp] theorem acceptInstrByte_cfg : (acceptInstrByte k id len b s).cfg = s.cfg := rfl
@[simp] theorem acceptInstrByte_cstate : (acceptInstrByte k id len b s).cstate = stateAfterInstr k := rfl
@[simp] theorem acceptInstrByte_scratch : (acceptInstrByte k id len b s).scratch = s.scratch := rfl
@[simp] theorem acceptInstrByte_chk : (acceptInstrByte k id len b s).chk = id + len + b := rfl
@[simp] theorem acceptInstrByte_rem : (acceptInstrByte k id len b s).rem = len.toNat - 1 := rfl
@[simp] theorem acceptInstrByte_lastAction : (acceptInstrByte k id len b s).lastAction = .buffered := rfl
@[simp] theorem acceptInstrByte_rxTimer : (acceptInstrByte k id len b s).rxTimer = s.rxTimer := rfl
@[simp] theorem acceptInstrByte_sendTimer : (acceptInstrByte k id len b s).sendTimer = s.sendTimer := rfl
@[simp] theorem acceptInstrByte_busTimer : (acceptInstrByte k id len b s).busTimer = s.busTimer := rfl
@[simp] theorem acceptInstrByte_egress : (acceptInstrByte k id len b s).egress = s.egress := rfl
@[simp] theorem acceptInstrByte_zlpOwed : (acceptInstrByte k id len b s).zlpOwed = s.zlpOwed := rfl
@[simp] theorem acceptInstrByte_dir : (acceptInstrByte k id len b s).dir = s.dir := rfl
@[simp] theorem acceptInstrByte_busTxPending : (acceptInstrByte k id len b s).busTxPending = s.busTxPending := rfl
@[simp] theorem acceptInstrByte_passthrough : (acceptInstrByte k id len b s).passthrough = s.passthrough := rfl
@[simp] theorem acceptInstrByte_cap : (acceptInstrByte k id len b s).cap = s.cap := rfl
@[simp] theorem acceptInstrByte_receiveTimeout : (acceptInstrByte k id len b s).receiveTimeout = s.receiveTimeout := rfl
@[simp] theorem acceptInstrByte_sendTimeout : (acceptInstrByte k id len b s).sendTimeout = s.sendTimeout := rfl
@[simp] theorem acceptInstrByte_fault : (acceptInstrByte k id len b s).fault = s.fault := rfl
@[simp] theorem acceptInstrByte_halted : (acceptInstrByte k id len b s).halted = s.halted := rfl
@[simp] theorem acceptInstrByte_mainPhase : (acceptInstrByte k id len b s).mainPhase = s.mainPhase := rfl
@[simp] theorem acceptInstrByte_consumeLeft : (acceptInstrByte k id len b s).consumeLeft = s.consumeLeft := rfl
@[simp] theorem acceptInstrByte_uops : (acceptInstrByte k id len b s).uops = s.uops := rfl
@[simp] theorem acceptInstrByte_pendingCall : (acceptInstrByte k id len b s).pendingCall = s.pendingCall := rfl
@[simp] theorem acceptInstrByte_executorHold : (acceptInstrByte k id len b s).executorHold = s.executorHold := rfl
@[simp] theorem acceptInstrByte_hostFrame : (acceptInstrByte k id len b s).hostFrame = s.hostFrame := rfl
@[simp] theorem acceptInstrByte_hostIn : (acceptInstrByte k id len b s).hostIn = s.hostIn := rfl
@[simp] theorem acceptInstrByte_hostConnected : (acceptInstrByte k id len b s).hostConnected = s.hostConnected := rfl
@[simp] theorem acceptInstrByte_writeReady : (acceptInstrByte k id len b s).writeReady = s.writeReady := rfl
@[simp] theorem acceptInstrByte_busOut : (acceptInstrByte k id len b s).busOut = s.busOut := rfl
@[simp] theorem acceptInstrByte_hostOut : (acceptInstrByte k id len b s).hostOut = s.hostOut := rfl
@[simp] theorem acceptInstrByte_calls : (acceptInstrByte k id len b s).calls = s.calls := rfl
@[simp] theorem acceptInstrByte_rejects : (acceptInstrByte k id len b s).rejects = s.rejects := rfl
@[simp] theorem acceptInstrByte_moves : (acceptInstrByte k id len b s).moves = s.moves := rfl
@[simp] theorem acceptInstrByte_fresh : (acceptInstrByte k id len b s).fresh = s.fresh := rfl
end AcceptInstrByte

section AcceptFrame
variable (k : Kind) (p : Packet) (s : State)
@[simp] theorem acceptFrame_cfg : (acceptFrame k p s).cfg = s.cfg := rfl
@[simp] theorem acceptFrame_cstate : (acceptFrame k p s).cstate = .seekSync1 := rfl
@[simp] theorem acceptFrame_scratch : (acceptFrame k p s).scratch = [] := rfl
@[simp] theorem acceptFrame_chk : (acceptFrame k p s).chk = 0#8 := rfl
@[simp] theorem acceptFrame_rem : (acceptFrame k p s).rem = 0 := rfl
@[simp] theorem acceptFrame_lastAction : (acceptFrame k p s).lastAction = .frameComplete := rfl
@[simp] theorem acceptFrame_rxTimer : (acceptFrame k p s).rxTimer = s.rxTimer := rfl
@[simp] theorem acceptFrame_sendTimer : (acceptFrame k p s).sendTimer = s.sendTimer := rfl
@[simp] theorem acceptFrame_busTimer : (acceptFrame k p s).busTimer = s.busTimer := rfl
@[simp] theorem acceptFrame_egress : (acceptFrame k p s).egress = s.egress := rfl
@[simp] theorem acceptFrame_zlpOwed : (acceptFrame k p s).zlpOwed = s.zlpOwed := rfl
@[simp] theorem acceptFrame_dir : (acceptFrame k p s).dir = s.dir := rfl
@[simp] theorem acceptFrame_busTxPending : (acceptFrame k p s).busTxPending = s.busTxPending := rfl
@[simp] theorem acceptFrame_passthrough : (acceptFrame k p s).passthrough = s.passthrough := rfl
@[simp] theorem acceptFrame_cap : (acceptFrame k p s).cap = s.cap := rfl
@[simp] theorem acceptFrame_receiveTimeout : (acceptFrame k p s).receiveTimeout = s.receiveTimeout := rfl
@[simp] theorem acceptFrame_sendTimeout : (acceptFrame k p s).sendTimeout = s.sendTimeout := rfl
@[simp] theorem acceptFrame_fault : (acceptFrame k p s).fault = s.fault := rfl
@[simp] theorem acceptFrame_halted : (acceptFrame k p s).halted = s.halted := rfl
@[simp] theorem acceptFrame_mainPhase : (acceptFrame k p s).mainPhase = s.mainPhase := rfl
@[simp] theorem acceptFrame_consumeLeft : (acceptFrame k p s).consumeLeft = s.consumeLeft := rfl
@[simp] theorem acceptFrame_uops : (acceptFrame k p s).uops = [.dispatch k p] := rfl
@[simp] theorem acceptFrame_pendingCall : (acceptFrame k p s).pendingCall = s.pendingCall := rfl
@[simp] theorem acceptFrame_executorHold : (acceptFrame k p s).executorHold = s.executorHold := rfl
@[simp] theorem acceptFrame_hostFrame : (acceptFrame k p s).hostFrame = s.hostFrame := rfl
@[simp] theorem acceptFrame_hostIn : (acceptFrame k p s).hostIn = s.hostIn := rfl
@[simp] theorem acceptFrame_hostConnected : (acceptFrame k p s).hostConnected = s.hostConnected := rfl
@[simp] theorem acceptFrame_writeReady : (acceptFrame k p s).writeReady = s.writeReady := rfl
@[simp] theorem acceptFrame_busOut : (acceptFrame k p s).busOut = s.busOut := rfl
@[simp] theorem acceptFrame_hostOut : (acceptFrame k p s).hostOut = s.hostOut := rfl
@[simp] theorem acceptFrame_calls : (acceptFrame k p s).calls = s.calls := rfl
@[simp] theorem acceptFrame_rejects : (acceptFrame k p s).rejects = s.rejects := rfl
@[simp] theorem acceptFrame_moves : (acceptFrame k p s).moves = s.moves := rfl
@[simp] theorem acceptFrame_fresh : (acceptFrame k p s).fresh = s.fresh := rfl
end AcceptFrame

section Abandon
variable (s : State)
@[simp] theorem abandon_cfg : (abandon s).cfg = s.cfg := rfl
@[simp] theorem abandon_cstate : (abandon s).cstate = .seekSync1 := rfl
@[simp] theorem abandon_scratch : (abandon s).scratch = [] := rfl
@[simp] theorem abandon_chk : (abandon s).chk = 0#8 := rfl
@[simp] theorem abandon_rem : (abandon s).rem = 0 := rfl
@[simp] theorem abandon_lastAction : (abandon s).lastAction = s.lastAction := rfl
@[simp] theorem abandon_rxTimer : (abandon s).rxTimer = s.rxTimer := rfl
@[simp] theorem abandon_sendTimer : (abandon s).sendTimer = s.sendTimer := rfl
@[simp] theorem abandon_busTimer : (abandon s).busTimer = s.busTimer := rfl
@[simp] theorem abandon_egress : (abandon s).egress = s.egress := rfl
@[simp] theorem abandon_zlpOwed : (abandon s).zlpOwed = s.zlpOwed := rfl
@[simp] theorem abandon_dir : (abandon s).dir = s.dir := rfl
@[simp] theorem abandon_busTxPending : (abandon s).busTxPending = s.busTxPending := rfl
@[simp] theorem abandon_passthrough : (abandon s).passthrough = s.passthrough := rfl
@[simp] theorem abandon_cap : (abandon s).cap = s.cap := rfl
@[simp] theorem abandon_receiveTimeout : (abandon s).receiveTimeout = s.receiveTimeout := rfl
@[simp] theorem abandon_sendTimeout : (abandon s).sendTimeout = s.sendTimeout := rfl
@[simp] theorem abandon_fault : (abandon s).fault = s.fault := rfl
@[simp] theorem abandon_halted : (abandon s).halted = s.halted := rfl
@[simp] theorem abandon_mainPhase : (abandon s).mainPhase = s.mainPhase := rfl
@[simp] theorem abandon_consumeLeft : (abandon s).consumeLeft = s.consumeLeft := rfl
@[simp] theorem abandon_uops : (abandon s).uops = .reject .rxTimeout :: s.scratch.map .busWrite ++ [.enterPhase .flush] := rfl
@[simp] theorem abandon_pendingCall : (abandon s).pendingCall = s.pendingCall := rfl
@[simp] theorem abandon_executorHold : (abandon s).executorHold = s.executorHold := rfl
@[simp] theorem abandon_hostFrame : (abandon s).hostFrame = s.hostFrame := rfl
@[simp] theorem abandon_hostIn : (abandon s).hostIn = s.hostIn := rfl
@[simp] theorem abandon_hostConnected : (abandon s).hostConnected = s.hostConnected := rfl
@[simp] theorem abandon_writeReady : (abandon s).writeReady = s.writeReady := rfl
@[simp] theorem abandon_busOut : (abandon s).busOut = s.busOut := rfl
@[simp] theorem abandon_hostOut : (abandon s).hostOut = s.hostOut := rfl
@[simp] theorem abandon_calls : (abandon s).calls = s.calls := rfl
@[simp] theorem abandon_rejects : (abandon s).rejects = s.rejects := rfl
@[simp] theorem abandon_moves : (abandon s).moves = s.moves := rfl
@[simp] theorem abandon_fresh : (abandon s).fresh = s.fresh := rfl
end Abandon

section Tick
variable (s : State)
@[simp] theorem tick_cfg : (tick s).cfg = s.cfg := rfl
@[simp] theorem tick_cstate : (tick s).cstate = s.cstate := rfl
@[simp] theorem tick_scratch : (tick s).scratch = s.scratch := rfl
@[simp] theorem tick_chk : (tick s).chk = s.chk := rfl
@[simp] theorem tick_rem : (tick s).rem = s.rem := rfl
@[simp] theorem tick_lastAction : (tick s).lastAction = s.lastAction := rfl
@[simp] theorem tick_rxTimer : (tick s).rxTimer = countTimer s.cfg s.rxTimer := rfl
@[simp] theorem tick_sendTimer : (tick s).sendTimer = countTimer s.cfg s.sendTimer := rfl
@[simp] theorem tick_busTimer : (tick s).busTimer = countTimer s.cfg s.busTimer := rfl
@[simp] theorem tick_egress : (tick s).egress = s.egress := rfl
@[simp] theorem tick_zlpOwed : (tick s).zlpOwed = s.zlpOwed := rfl
@[simp] theorem tick_dir : (tick s).dir = s.dir := rfl
@[simp] theorem tick_busTxPending : (tick s).busTxPending = s.busTxPending := rfl
@[simp] theorem tick_passthrough : (tick s).passthrough = s.passthrough := rfl
@[simp] theorem tick_cap : (tick s).cap = s.cap := rfl
@[simp] theorem tick_receiveTimeout : (tick s).receiveTimeout = s.receiveTimeout := rfl
@[simp] theorem tick_sendTimeout : (tick s).sendTimeout = s.sendTimeout := rfl
@[simp] theorem tick_fault : (tick s).fault = s.fault := rfl
@[simp] theorem tick_halted : (tick s).halted = s.halted := rfl
@[simp] theorem tick_mainPhase : (tick s).mainPhase = s.mainPhase := rfl
@[simp] theorem tick_consumeLeft : (tick s).consumeLeft = s.consumeLeft := rfl
@[simp] theorem tick_uops : (tick s).uops = s.uops := rfl
@[simp] theorem tick_pendingCall : (tick s).pendingCall = s.pendingCall := rfl
@[simp] theorem tick_executorHold : (tick s).executorHold = s.executorHold := rfl
@[simp] theorem tick_hostFrame : (tick s).hostFrame = s.hostFrame := rfl
@[simp] theorem tick_hostIn : (tick s).hostIn = s.hostIn := rfl
@[simp] theorem tick_hostConnected : (tick s).hostConnected = s.hostConnected := rfl
@[simp] theorem tick_writeReady : (tick s).writeReady = s.writeReady := rfl
@[simp] theorem tick_busOut : (tick s).busOut = s.busOut := rfl
@[simp] theorem tick_hostOut : (tick s).hostOut = s.hostOut := rfl
@[simp] theorem tick_calls : (tick s).calls = s.calls := rfl
@[simp] theorem tick_rejects : (tick s).rejects = s.rejects := rfl
@[simp] theorem tick_moves : (tick s).moves = s.moves := rfl
@[simp] theorem tick_fresh : (tick s).fresh = s.fresh := rfl
end Tick

section PushCapture
variable (b : Byte) (s : State)
@[simp] theorem pushCapture_cfg : (pushCapture b s).cfg = s.cfg := rfl
@[simp] theorem pushCapture_cstate : (pushCapture b s).cstate = s.cstate := rfl
@[simp] theorem pushCapture_scratch : (pushCapture b s).scratch = s.scratch := rfl
@[simp] theorem pushCapture_chk : (pushCapture b s).chk = s.chk := rfl
@[simp] theorem pushCapture_rem : (pushCapture b s).rem = s.rem := rfl
@[simp] theorem pushCapture_lastAction : (pushCapture b s).lastAction = s.lastAction := rfl
@[simp] theorem pushCapture_rxTimer : (pushCapture b s).rxTimer = s.rxTimer := rfl
@[simp] theorem pushCapture_sendTimer : (pushCapture b s).sendTimer = s.sendTimer := rfl
@[simp] theorem pushCapture_busTimer : (pushCapture b s).busTimer = 0 := rfl
@[simp] theorem pushCapture_egress : (pushCapture b s).egress = s.egress := rfl
@[simp] theorem pushCapture_zlpOwed : (pushCapture b s).zlpOwed = s.zlpOwed := rfl
@[simp] theorem pushCapture_dir : (pushCapture b s).dir = s.dir := rfl
@[simp] theorem pushCapture_busTxPending : (pushCapture b s).busTxPending = s.busTxPending := rfl
@[simp] theorem pushCapture_passthrough : (pushCapture b s).passthrough = s.passthrough := rfl
@[simp] theorem pushCapture_cap : (pushCapture b s).cap = s.cap ++ [b] := rfl
@[simp] theorem pushCapture_receiveTimeout : (pushCapture b s).receiveTimeout = s.receiveTimeout := rfl
@[simp] theorem pushCapture_sendTimeout : (pushCapture b s).sendTimeout = s.sendTimeout := rfl
@[simp] theorem pushCapture_fault : (pushCapture b s).fault = s.fault := rfl
@[simp] theorem pushCapture_halted : (pushCapture b s).halted = s.halted := rfl
@[simp] theorem pushCapture_mainPhase : (pushCapture b s).mainPhase = s.mainPhase := rfl
@[simp] theorem pushCapture_consumeLeft : (pushCapture b s).consumeLeft = s.consumeLeft := rfl
@[simp] theorem pushCapture_uops : (pushCapture b s).uops = s.uops := rfl
@[simp] theorem pushCapture_pendingCall : (pushCapture b s).pendingCall = s.pendingCall := rfl
@[simp] theorem pushCapture_executorHold : (pushCapture b s).executorHold = s.executorHold := rfl
@[simp] theorem pushCapture_hostFrame : (pushCapture b s).hostFrame = s.hostFrame := rfl
@[simp] theorem pushCapture_hostIn : (pushCapture b s).hostIn = s.hostIn := rfl
@[simp] theorem pushCapture_hostConnected : (pushCapture b s).hostConnected = s.hostConnected := rfl
@[simp] theorem pushCapture_writeReady : (pushCapture b s).writeReady = s.writeReady := rfl
@[simp] theorem pushCapture_busOut : (pushCapture b s).busOut = s.busOut := rfl
@[simp] theorem pushCapture_hostOut : (pushCapture b s).hostOut = s.hostOut := rfl
@[simp] theorem pushCapture_calls : (pushCapture b s).calls = s.calls := rfl
@[simp] theorem pushCapture_rejects : (pushCapture b s).rejects = s.rejects := rfl
@[simp] theorem pushCapture_moves : (pushCapture b s).moves = s.moves := rfl
@[simp] theorem pushCapture_fresh : (pushCapture b s).fresh = s.fresh := rfl
end PushCapture

section TakeMove
variable (s : State)
@[simp] theorem takeMove_cfg : (takeMove s).cfg = s.cfg := rfl
@[simp] theorem takeMove_cstate : (takeMove s).cstate = s.cstate := rfl
@[simp] theorem takeMove_scratch : (takeMove s).scratch = s.scratch := rfl
@[simp] theorem takeMove_chk : (takeMove s).chk = s.chk := rfl
@[simp] theorem takeMove_rem : (takeMove s).rem = s.rem := rfl
@[simp] theorem takeMove_lastAction : (takeMove s).lastAction = s.lastAction := rfl
@[simp] theorem takeMove_rxTimer : (takeMove s).rxTimer = s.rxTimer := rfl
@[simp] theorem takeMove_sendTimer : (takeMove s).sendTimer = s.sendTimer := rfl
@[simp] theorem takeMove_busTimer : (takeMove s).busTimer = s.busTimer := rfl
@[simp] theorem takeMove_egress : (takeMove s).egress = s.egress := rfl
@[simp] theorem takeMove_zlpOwed : (takeMove s).zlpOwed = s.zlpOwed := rfl
@[simp] theorem takeMove_dir : (takeMove s).dir = s.dir := rfl
@[simp] theorem takeMove_busTxPending : (takeMove s).busTxPending = s.busTxPending := rfl
@[simp] theorem takeMove_passthrough : (takeMove s).passthrough = s.passthrough := rfl
@[simp] theorem takeMove_cap : (takeMove s).cap = s.cap := rfl
@[simp] theorem takeMove_receiveTimeout : (takeMove s).receiveTimeout = s.receiveTimeout := rfl
@[simp] theorem takeMove_sendTimeout : (takeMove s).sendTimeout = s.sendTimeout := rfl
@[simp] theorem takeMove_fault : (takeMove s).fault = s.fault := rfl
@[simp] theorem takeMove_halted : (takeMove s).halted = s.halted := rfl
@[simp] theorem takeMove_mainPhase : (takeMove s).mainPhase = s.mainPhase := rfl
@[simp] theorem takeMove_consumeLeft : (takeMove s).consumeLeft = s.consumeLeft := rfl
@[simp] theorem takeMove_uops : (takeMove s).uops = s.uops := rfl
@[simp] theorem takeMove_pendingCall : (takeMove s).pendingCall = s.pendingCall := rfl
@[simp] theorem takeMove_executorHold : (takeMove s).executorHold = s.executorHold := rfl
@[simp] theorem takeMove_hostFrame : (takeMove s).hostFrame = s.hostFrame := rfl
@[simp] theorem takeMove_hostIn : (takeMove s).hostIn = s.hostIn := rfl
@[simp] theorem takeMove_hostConnected : (takeMove s).hostConnected = s.hostConnected := rfl
@[simp] theorem takeMove_writeReady : (takeMove s).writeReady = s.writeReady := rfl
@[simp] theorem takeMove_busOut : (takeMove s).busOut = s.busOut := rfl
@[simp] theorem takeMove_hostOut : (takeMove s).hostOut = s.hostOut := rfl
@[simp] theorem takeMove_calls : (takeMove s).calls = s.calls := rfl
@[simp] theorem takeMove_rejects : (takeMove s).rejects = s.rejects := rfl
@[simp] theorem takeMove_moves : (takeMove s).moves = s.moves.tail := rfl
@[simp] theorem takeMove_fresh : (takeMove s).fresh = if s.moves.isEmpty then s.fresh + 1 else s.fresh := rfl
end TakeMove

end Sys2Proof.Machine
end

