-- ==== Sys2Proof/Laws/Ops.lean ====
section
/-! SUPPORT. For each shared operation, once, everything it can do. Later proofs cite these and unfold nothing. -/

namespace Sys2Proof.Machine

open Sys2Proof

variable {s t : State} {b : Byte}

/-! ### The step -/

theorem stopReason_eq_none_iff : stopReason s = none ↔ s.fault = none ∧ s.halted = none := by
  unfold stopReason
  cases s.fault <;> cases s.halted <;> simp

@[simp] theorem stopReason_takeMove : stopReason (takeMove s) = stopReason s := rfl

@[simp] theorem configOk_takeMove : configOk (takeMove s) = configOk s := rfl

theorem step_of_running (h : Running s) : step s = runMove (nextMove s) (takeMove s) := by
  simp [step, h.1, h.2]

theorem step_next_iff : step s = .next t ↔ Running s ∧ runMove (nextMove s) (takeMove s) = .next t := by
  unfold step Running
  cases hs : stopReason s with
  | some r => simp
  | none => cases hc : configOk s <;> simp

theorem nextMove_cons {m : Move} {ms : List Move} (h : s.moves = m :: ms) : nextMove s = m := by
  simp [nextMove, h]

theorem takeMove_cons {m : Move} {ms : List Move} (h : s.moves = m :: ms) :
    takeMove s = { s with moves := ms } := by
  simp [takeMove, h]

theorem runSteps_succ (n : Nat) (h : step s = .next t) : runSteps (n + 1) s = runSteps n t := by
  simp only [runSteps, h]

theorem runSteps_fault (n : Nat) {r : Fault} (h : step s = .fault r) : runSteps (n + 1) s = .fault r := by
  simp only [runSteps, h]

theorem runSteps_refused (n : Nat) {r : Refusal} (h : step s = .refused r) : runSteps (n + 1) s = .refused r := by
  simp only [runSteps, h]

/-- The host's runs of the machine are `runSteps`. -/
theorem run_eq_runSteps (n : Nat) (s : Sys2Proof.core.State) : Host.Core.run Sys2Proof.core n s = runSteps n s := by
  induction n generalizing s with
  | zero => rfl
  | succ n ih =>
    rw [Host.Core.run]
    cases hs : step s with
    | next s' =>
      have hc : Sys2Proof.core.step s = .next s' := hs
      rw [hc, runSteps_succ n hs]
      exact ih s'
    | fault r =>
      have hc : Sys2Proof.core.step s = .fault r := hs
      rw [hc, runSteps_fault n hs]
      rfl
    | refused r =>
      have hc : Sys2Proof.core.step s = .refused r := hs
      rw [hc, runSteps_refused n hs]
      rfl

/-- One step of a run whose next move is fixed. -/
theorem runSteps_cons {m : Move} {ms : List Move} (n : Nat) (hr : Running s) (h : s.moves = m :: ms)
    (hm : runMove m { s with moves := ms } = .next t) : runSteps (n + 1) s = runSteps n t := by
  refine runSteps_succ n ?_
  rw [step_of_running hr, nextMove_cons h, takeMove_cons h, hm]

theorem runSteps_add (m n : Nat) (h : runSteps m s = .next t) : runSteps (m + n) s = runSteps n t := by
  induction m generalizing s with
  | zero =>
    cases h
    rw [Nat.zero_add]
  | succ m ih =>
    cases hs : step s with
    | next s₁ =>
      rw [runSteps_succ m hs] at h
      rw [Nat.add_right_comm, runSteps_succ _ hs]
      exact ih h
    | fault r => simp [runSteps, hs] at h
    | refused r => simp [runSteps, hs] at h

/-! ### Queues and bus -/

theorem enqueue_cases (b : Byte) (s : State) :
    (egressFull s = true ∧ enqueue b s = raise .egressOverflow s)
      ∨ (egressFull s = false ∧ enqueue b s = pushEgress b s) := by
  unfold enqueue
  cases egressFull s <;> simp

theorem flushOne_some (h : flushOne s = some t) :
    ∃ b rest, s.egress = b :: rest ∧ t = { s with egress := rest, hostFrame := s.hostFrame ++ [b] } := by
  unfold flushOne at h
  split at h
  · cases h
  · rename_i b rest hs
    cases h
    exact ⟨b, rest, hs, rfl⟩

theorem busWrite_getD (b : Byte) (s u : State) :
    (busTxFull s = true ∧ (busWrite b s).getD u = u) ∨ (busTxFull s = false ∧ (busWrite b s).getD u = sendBus b s) := by
  unfold busWrite
  cases busTxFull s <;> simp

theorem returnToReceive_cases (s : State) :
    returnToReceive s = s
      ∨ (s.dir = .tx ∧ s.busTxPending = 0 ∧ returnToReceive s = { s with dir := .rx }) := by
  unfold returnToReceive
  split
  · rename_i h
    exact .inr ⟨h.1, h.2, rfl⟩
  · exact .inl rfl

theorem busRx_cases (b : Byte) (s : State) :
    (s.dir = .tx ∧ busRx b s = s)
      ∨ (s.dir = .rx ∧ s.passthrough = true ∧ busRx b s = enqueue b s)
      ∨ (s.dir = .rx ∧ s.passthrough = false ∧ captureFull s = true ∧ busRx b s = raise .captureOverflow s)
      ∨ (s.dir = .rx ∧ s.passthrough = false ∧ captureFull s = false ∧ busRx b s = pushCapture b s) := by
  unfold busRx
  cases s.dir <;> cases s.passthrough <;> cases captureFull s <;> simp

/-! ### ENV -/

theorem executorFree_iff : executorFree s = true ↔ inAggregatedRead s = true ∧ s.executorHold = none := by
  simp [executorFree, Option.isNone_iff_eq_none]

theorem executorMove_next {u : State} (h : executorMove s u = .next t) : executorFree s = true ∧ t = u := by
  unfold executorMove at h
  split at h
  · cases h
    exact ⟨by assumption, rfl⟩
  · cases h

/-- What a bus request of the executor can do: it completes at once, or the executor holds in it
(42_arbiter.md R182, R183). -/
inductive RequestEffect (s : State) : BusRequest → State → Prop
  | listening (h : s.dir = .rx) : RequestEffect s .switchToReceive { s with executorHold := none }
  | switched (hd : s.dir = .tx) (hp : s.busTxPending = 0) :
      RequestEffect s .switchToReceive { s with dir := .rx, executorHold := none }
  | undrained (hd : s.dir = .tx) (hp : 1 ≤ s.busTxPending) :
      RequestEffect s .switchToReceive { s with executorHold := some .switchToReceive }
  | sent (b : Byte) (hf : busTxFull s = false) :
      RequestEffect s (.busWrite b) { sendBus b s with executorHold := none }
  | full (b : Byte) (hf : busTxFull s = true) :
      RequestEffect s (.busWrite b) { s with executorHold := some (.busWrite b) }

theorem switchToReceive_eq (s : State) : switchToReceive s =
    if s.dir = .rx then some s else if s.busTxPending = 0 then some { s with dir := .rx } else none := by
  unfold switchToReceive
  split <;> simp_all

theorem dir_tx_of_ne_rx (h : s.dir ≠ .rx) : s.dir = .tx := by
  cases hd : s.dir <;> simp_all

theorem requestBus_effect (r : BusRequest) (s : State) : RequestEffect s r (requestBus r s) := by
  unfold requestBus
  cases r with
  | switchToReceive =>
    rw [attempt, switchToReceive_eq]
    split_ifs with hd hp
    · exact .listening hd
    · exact .switched (dir_tx_of_ne_rx hd) hp
    · exact .undrained (dir_tx_of_ne_rx hd) (Nat.pos_of_ne_zero hp)
  | busWrite b =>
    rw [attempt, busWrite]
    split_ifs with hf
    · exact .full b hf
    · exact .sent b (by simpa using hf)

/-- What a bus request of the executor can write (42_arbiter.md R182, R183). -/
theorem RequestEffect.writes {r : BusRequest} (h : RequestEffect s r t) : t = { s with
    dir := t.dir
    busTxPending := t.busTxPending
    busOut := t.busOut
    executorHold := t.executorHold } := by
  cases h <;> rfl

theorem retryHeld_cases (s : State) :
    (s.executorHold = none ∧ retryHeld s = s) ∨ ∃ r, s.executorHold = some r ∧ retryHeld s = requestBus r s := by
  unfold retryHeld
  split
  · exact .inr ⟨_, by assumption, rfl⟩
  · exact .inl ⟨by assumption, rfl⟩

/-- What the return of a call can do: raise DISPATCH_SHAPE, or release MAIN with bytes to queue before what it had
still to do. -/
theorem returnCall_next {r : CallResult} (h : returnCall r s = .next t) :
    t = raise .dispatchShape s
      ∨ ∃ bs : List Byte, t = { s with pendingCall := none, uops := bs.map .enqueue ++ s.uops } ∧ s.pendingCall ≠ none
          ∧ (inAggregatedRead s = true → s.passthrough = true ∧ s.executorHold = none) := by
  unfold returnCall at h
  split at h
  · rename_i hp
    split at h
    · cases h
      exact .inr ⟨_, rfl, by simp [hp], by simp [inAggregatedRead, hp]⟩
    · cases h
      exact .inl rfl
  · rename_i hp
    cases h
    exact .inr ⟨[], by simp, by simp [hp], by simp [inAggregatedRead, hp]⟩
  · rename_i hp
    cases h
    exact .inr ⟨[], by simp, by simp [hp], by simp [inAggregatedRead, hp]⟩
  · rename_i hp
    split at h
    · rename_i hpt
      cases h
      simp only [Bool.and_eq_true, Option.isNone_iff_eq_none] at hpt
      exact .inr ⟨_, rfl, by simp [hp], fun _ => hpt⟩
    · cases h
  · cases h

/-! ### The classifier -/

theorem withAppend_next {k : State → Result} (h : withAppend b s k = .next t) :
    (scratchFull s = true ∧ t = raise .scratchOverflow s) ∨ (scratchFull s = false ∧ k (appended b s) = .next t) := by
  unfold withAppend at h
  split at h
  · cases h
    exact .inl ⟨by assumption, rfl⟩
  · exact .inr ⟨by simp_all, h⟩

theorem withAppend_of_room {k : State → Result} (h : s.scratch.length < s.cfg.scratchCap) :
    withAppend b s k = k (appended b s) := by
  have : scratchFull s = false := by simp [scratchFull, h]
  simp [withAppend, this]

@[simp] theorem flushesPending_map_busWrite (bs : List Byte) : flushesPending (bs.map .busWrite) = 0 := by
  induction bs with
  | nil => rfl
  | cons b bs ih => simpa [flushesPending] using ih

@[simp] theorem flushesPending_map_enqueue (bs : List Byte) : flushesPending (bs.map .enqueue) = 0 := by
  induction bs with
  | nil => rfl
  | cons b bs ih => simpa [flushesPending] using ih

theorem flushesPending_append (us vs : List Uop) :
    flushesPending (us ++ vs) = flushesPending us + flushesPending vs := by
  induction us with
  | nil => simp [flushesPending]
  | cons u us ih => cases u <;> simp only [List.cons_append, flushesPending, ih]; omega

@[simp] theorem flushesPending_replicate (n : Nat) : flushesPending (List.replicate n .flushByte) = n := by
  induction n with
  | zero => rfl
  | succ n ih => simp [List.replicate_succ, flushesPending, ih]

@[simp] theorem relayed_map_busWrite (bs : List Byte) : relayed (bs.map .busWrite) = bs := by
  induction bs with
  | nil => rfl
  | cons b bs ih => simp [relayed, ih]

@[simp] theorem relayed_map_enqueue (bs : List Byte) : relayed (bs.map .enqueue) = [] := by
  induction bs with
  | nil => rfl
  | cons b bs ih => simpa [relayed] using ih

theorem relayed_append (us vs : List Uop) : relayed (us ++ vs) = relayed us ++ relayed vs := by
  induction us with
  | nil => simp [relayed]
  | cons u us ih => cases u <;> simp [relayed, ih]

@[simp] theorem queued_map_enqueue (bs : List Byte) : queued (bs.map .enqueue) = bs := by
  induction bs with
  | nil => rfl
  | cons b bs ih => simp [queued, ih]

@[simp] theorem queued_map_busWrite (bs : List Byte) : queued (bs.map .busWrite) = [] := by
  induction bs with
  | nil => rfl
  | cons b bs ih => simpa [queued] using ih

theorem queued_append (us vs : List Uop) : queued (us ++ vs) = queued us ++ queued vs := by
  induction us with
  | nil => simp [queued]
  | cons u us ih => cases u <;> simp [queued, ih]

/-- What is left after a micro-operation is still work of the phase. -/
theorem workOk_tail {p : MainPhase} {u : Uop} {us : List Uop} (h : workOk p (u :: us) = true) :
    workOk p us = true := by
  cases us with
  | nil => rfl
  | cons v vs =>
    simp only [workOk, Bool.and_eq_true] at h
    exact h.2

/-- A micro-operation that may stand last only has nothing after it. -/
theorem workOk_last {p : MainPhase} {u : Uop} {us : List Uop} (h : workOk p (u :: us) = true)
    (hu : mayPrecede p u = false) : us = [] ∧ mayEnd p u = true := by
  cases us with
  | nil => exact ⟨rfl, h⟩
  | cons v vs => simp [workOk, hu] at h

theorem workOk_append {p : MainPhase} {us vs : List Uop} (hu : ∀ u ∈ us, mayPrecede p u = true) (hv : vs ≠ [])
    (h : workOk p vs = true) : workOk p (us ++ vs) = true := by
  induction us with
  | nil => exact h
  | cons u us ih =>
    have hne : us ++ vs ≠ [] := by simp [hv]
    obtain ⟨w, ws, hw⟩ := List.exists_cons_of_ne_nil hne
    have := ih fun x hx => hu x (List.mem_cons_of_mem _ hx)
    rw [hw] at this
    rw [List.cons_append, hw, workOk, hu u List.mem_cons_self, this]
    rfl

/-- In `CONSUME` a transition's outputs may stand in any number. -/
theorem workOk_consume {us : List Uop} (hu : ∀ u ∈ us, mayPrecede .consume u = true) : workOk .consume us = true := by
  induction us with
  | nil => rfl
  | cons u us ih =>
    have hus := ih fun x hx => hu x (List.mem_cons_of_mem _ hx)
    have hu0 := hu u List.mem_cons_self
    cases us with
    | nil => cases u <;> simp_all [mayPrecede, workOk, mayEnd]
    | cons v vs => simp [workOk, hu0, hus]

/-- A resync loses no byte and keeps their order. -/
theorem resync_conserves (sc : List Byte) : resyncRelayed sc ++ resyncKept sc = sc := by
  unfold resyncRelayed resyncKept
  split
  · rename_i h
    exact List.dropLast_append_getLast? _ h
  · simp

/-- The frame of a transition: nothing but the classifier's registers, the micro-operations, the taken byte and
`rx_timer` changes, unless the scratch buffer is full; and what a transition leaves is work of `CONSUME`, no
flush. -/
structure ConsumeFrame (s t : State) : Prop where
  eq : t = { s with
    hostIn := s.hostIn.tail
    consumeLeft := s.consumeLeft - 1
    rxTimer := 0
    uops := t.uops
    scratch := t.scratch
    cstate := t.cstate
    chk := t.chk
    rem := t.rem
    lastAction := t.lastAction }
  flushes : flushesPending t.uops = 0
  work : workOk .consume t.uops = true

theorem resync_frame (r : RejectReason) (us : List Uop) (hus : flushesPending us = 0)
    (hw : ∀ u ∈ us, mayPrecede .consume u = true) :
    ConsumeFrame s (resync r { appended b s with uops := us }) := by
  refine ⟨?_, by simp [flushesPending_append, flushesPending, hus], workOk_consume fun u hu => ?_⟩
  · simp [resync, appended, received]
  · simp only [resync_uops, List.mem_append, List.mem_cons, List.mem_map] at hu
    rcases hu with hu | rfl | ⟨x, -, rfl⟩
    · exact hw u hu
    · rfl
    · rfl

theorem busWrites_precede {p : MainPhase} (hp : (p == .consume || p == .timeout) = true) (bs : List Byte) :
    ∀ u ∈ bs.map Uop.busWrite, mayPrecede p u = true := by
  intro u hu
  obtain ⟨x, -, rfl⟩ := List.mem_map.1 hu
  cases p <;> simp_all [mayPrecede]

theorem enqueues_precede {p : MainPhase} (hp : (p == .consume || p == .dispatch) = true) (bs : List Byte) :
    ∀ u ∈ bs.map Uop.enqueue, mayPrecede p u = true := by
  intro u hu
  obtain ⟨x, -, rfl⟩ := List.mem_map.1 hu
  cases p <;> simp_all [mayPrecede]

theorem rejectInstrByte_next (h : rejectInstrByte b s = .next t) :
    (scratchFull s = true ∧ t = raise .scratchOverflow s) ∨ ConsumeFrame s t := by
  rcases withAppend_next h with hfull | ⟨-, h⟩
  · exact .inl hfull
  · cases h
    exact .inr (resync_frame .badInstr [] rfl (by simp))

/-- What one classifier transition can do outside the classifier. -/
theorem consume_next (h : consume b s = .next t) : (scratchFull s = true ∧ t = raise .scratchOverflow s) ∨ ConsumeFrame s t := by
  unfold consume at h
  split at h
  · unfold consumeSeekSync1 at h
    dsimp only at h
    split at h <;> cases h <;> exact .inr ⟨rfl, rfl, rfl⟩
  · rcases withAppend_next h with hfull | ⟨-, h⟩
    · exact .inl hfull
    · split at h <;> cases h
      · exact .inr ⟨rfl, rfl, rfl⟩
      · exact .inr (resync_frame .badSync2 [] rfl (by simp))
  · rcases withAppend_next h with hfull | ⟨-, h⟩
    · exact .inl hfull
    · split at h
      · split at h <;> cases h
        exact .inr ⟨rfl, rfl, rfl⟩
      · cases h
        exact .inr ⟨rfl, rfl, rfl⟩
  · unfold consumeReadLen at h
    split at h
    · cases h
    · rcases withAppend_next h with hfull | ⟨-, h⟩
      · exact .inl hfull
      · split at h
        · cases h
          exact .inr ⟨rfl, flushesPending_map_busWrite _, workOk_consume (busWrites_precede rfl _)⟩
        · split at h <;> cases h
          · exact .inr ⟨rfl, rfl, rfl⟩
          · exact .inr (resync_frame .lenRange _ (by simp [emitStatus]) (enqueues_precede rfl _))
  · unfold consumeReadInstr at h
    split at h
    · split at h
      · rcases withAppend_next h with hfull | ⟨-, h⟩
        · exact .inl hfull
        · cases h
          exact .inr ⟨rfl, rfl, rfl⟩
      · rcases withAppend_next h with hfull | ⟨-, h⟩
        · exact .inl hfull
        · cases h
          exact .inr ⟨rfl, rfl, rfl⟩
      · exact rejectInstrByte_next h
    · cases h
  all_goals try
    (rcases withAppend_next h with hfull | ⟨-, h⟩
     · exact .inl hfull
     · split at h
       · split at h <;> cases h
         exact .inr ⟨rfl, rfl, rfl⟩
       · cases h
         exact .inr (resync_frame .checksum [] rfl (by simp)))
  · unfold consumeCollect at h
    split at h
    · cases h
    · rcases withAppend_next h with hfull | ⟨-, h⟩
      · exact .inl hfull
      · split at h
        · split at h
          · split at h <;> cases h
            exact .inr ⟨rfl, rfl, rfl⟩
          · cases h
        · cases h
          exact .inr (resync_frame .checksum [] rfl (by simp))
    · rcases withAppend_next h with hfull | ⟨-, h⟩
      · exact .inl hfull
      · cases h
        exact .inr ⟨rfl, rfl, rfl⟩
  · unfold consumeRelay at h
    split at h <;> cases h
    exact .inr ⟨rfl, rfl, rfl⟩

end Sys2Proof.Machine
end

