-- ==== Sys2Proof/Laws/Step.lean ====
section
/-! SUPPORT. One inversion lemma for each part of the step: the instructions, MAIN's micro-operations and phases,
the moves of ENV, and MAIN's step as a whole. -/

namespace Sys2Proof.Machine

open Sys2Proof

variable {s t : State}

/-- What an instruction's step can do. -/
inductive ExecEffect (s : State) : Instr → State → Prop
  | shape {i : Instr} (h : i.shapeOk = false) : ExecEffect s i (raise .dispatchShape s)
  | status {i : Instr} (h : ∀ id len code, i ≠ .reject id len code) (err : Byte) :
      ExecEffect s i (beginDispatch (emitStatus s.cfg err [] ++ [.enterPhase .consume]) s)
  | call {i : Instr} (h : ∀ id len code, i ≠ .reject id len code) (c : Call) :
      ExecEffect s i (issueCall c (beginDispatch [.enterPhase .consume] s))
  | erase (len : Byte) :
      ExecEffect s (.reset len) (issueCall .eraseConfiguration (beginDispatch [.restart false] s))
  | restart (len : Byte) : ExecEffect s (.bootload len) (restartBlock true (beginDispatch [] s))
  | rejectFull (id len code : Byte) (h : scratchFull s = true) : ExecEffect s (.reject id len code) (raise .scratchOverflow s)
  | reject (id len code : Byte) : ExecEffect s (.reject id len code) (resync .badInstr (appended code s))

theorem dispatchStatus_nil (err : Byte) (s : State) :
    dispatchStatus err [] s = beginDispatch (emitStatus s.cfg err [] ++ [.enterPhase .consume]) s := by
  simp [dispatchStatus]

/-- Every instruction completes, and in one of these ways. -/
theorem exec_effect (i : Instr) (s : State) : ∃ t, exec i s = .next t ∧ ExecEffect s i t := by
  cases i with
  | ping len => exact ⟨_, by rw [exec, execPing, dispatchStatus_nil], .status (by simp) _⟩
  | reset len => exact ⟨_, rfl, .erase len⟩
  | bootload len => exact ⟨_, rfl, .restart len⟩
  | read tgt ps =>
    simp only [exec, execRead]
    cases h : readOperands ps with
    | some p => exact ⟨_, rfl, .call (by simp) _⟩
    | none =>
      refine ⟨_, rfl, .shape ?_⟩
      unfold readOperands at h
      split at h
      · cases h
      · rename_i hne
        simp only [Instr.shapeOk, beq_eq_false_iff_ne]
        intro hl
        obtain ⟨a, b, rfl⟩ := List.length_eq_two.1 hl
        exact hne a b rfl
  | write tgt ps =>
    simp only [exec, execWrite]
    cases h : writeOperands ps with
    | some p => exact ⟨_, rfl, .call (by simp) _⟩
    | none =>
      refine ⟨_, rfl, .shape ?_⟩
      match ps, h with
      | [], _ => rfl
      | [_], _ => rfl
      | _ :: _ :: _, h => simp [writeOperands] at h
  | aggRead tgt ps =>
    simp only [exec, execAggRead]
    cases h : aggOperands ps with
    | some p =>
      obtain ⟨a, m, ids⟩ := p
      dsimp only
      split
      · exact ⟨_, rfl, .call (by simp) _⟩
      · exact ⟨_, by rw [dispatchStatus_nil], .status (by simp) _⟩
    | none =>
      refine ⟨_, rfl, .shape ?_⟩
      match ps, h with
      | [], _ => rfl
      | [_], _ => rfl
      | _ :: _ :: _, h => simp [aggOperands] at h
  | reject id len code =>
    simp only [exec, execReject, rejectInstrByte, withAppend]
    split
    · exact ⟨_, rfl, .rejectFull id len code (by assumption)⟩
    · exact ⟨_, rfl, .reject id len code⟩

theorem exec_next {i : Instr} (h : exec i s = .next t) : ExecEffect s i t := by
  obtain ⟨t', h', he⟩ := exec_effect i s
  rw [h] at h'
  cases h'
  exact he

/-- What a micro-operation can do. -/
inductive UopEffect (s : State) (rest : List Uop) : Uop → State → Prop
  | hold (b : Byte) (h : busTxFull s = true) : UopEffect s rest (.busWrite b) s
  | busWrite (b : Byte) (h : busTxFull s = false) : UopEffect s rest (.busWrite b) (sendBus b { s with uops := rest })
  | overflow (b : Byte) (h : egressFull s = true) : UopEffect s rest (.enqueue b) (raise .egressOverflow s)
  | enqueue (b : Byte) (h : egressFull s = false) :
      UopEffect s rest (.enqueue b) (pushEgress b { s with uops := rest })
  | reject (r : RejectReason) : UopEffect s rest (.reject r) { s with uops := rest, rejects := s.rejects ++ [r] }
  | countInput : UopEffect s rest .countInput { s with uops := rest, consumeLeft := s.hostIn.length }
  | tryFlush : UopEffect s rest .tryFlush (tryFlush { s with uops := rest })
  | flushByte (b : Byte) (q : List Byte) (h : s.egress = b :: q) :
      UopEffect s rest .flushByte { s with uops := rest, egress := q, hostFrame := s.hostFrame ++ [b] }
  | hostCommit : UopEffect s rest .hostCommit (hostCommit { s with uops := rest })
  | resetSendTimer : UopEffect s rest .resetSendTimer { s with uops := rest, sendTimer := 0 }
  | oweEmptyFrame : UopEffect s rest .oweEmptyFrame { s with uops := rest, zlpOwed := true }
  | clearEmptyFrame : UopEffect s rest .clearEmptyFrame { s with uops := rest, zlpOwed := false }
  | restart (b : Bool) : UopEffect s rest (.restart b) (restartBlock b { s with uops := rest })
  | enterPhase (p : MainPhase) : UopEffect s rest (.enterPhase p) { s with uops := rest, mainPhase := p }

theorem performUop_next {u : Uop} {rest : List Uop} (h : performUop u rest s = .next t) : UopEffect s rest u t := by
  cases u with
  | busWrite b =>
    simp only [performUop, Host.Outcome.next.injEq] at h
    subst h
    rcases busWrite_getD b { s with uops := rest } s with ⟨hf, he⟩ | ⟨hf, he⟩
    · rw [he]
      exact .hold b hf
    · rw [he]
      exact .busWrite b hf
  | enqueue b =>
    simp only [performUop] at h
    split at h <;> cases h
    · exact .overflow b (by assumption)
    · exact .enqueue b (by simp_all)
  | flushByte =>
    simp only [performUop] at h
    split at h
    · rename_i t' hf
      cases h
      obtain ⟨b, q, hq, rfl⟩ := flushOne_some hf
      exact .flushByte b q hq
    · cases h
  | dispatch k p => cases h
  | reject r => cases h; exact .reject r
  | hostCommit => cases h; exact .hostCommit
  | resetSendTimer => cases h; exact .resetSendTimer
  | oweEmptyFrame => cases h; exact .oweEmptyFrame
  | clearEmptyFrame => cases h; exact .clearEmptyFrame
  | countInput => cases h; exact .countInput
  | tryFlush => cases h; exact .tryFlush
  | restart b => cases h; exact .restart b
  | enterPhase p => cases h; exact .enterPhase p

/-- What `tryFlush` can do. -/
theorem tryFlush_cases (s : State) :
    (s.cfg.egressFrame ≤ s.egress.length ∧ tryFlush s = { s with uops := flushFullUops s.cfg.egressFrame ++ s.uops })
      ∨ (s.egress.length < s.cfg.egressFrame ∧ 1 ≤ s.egress.length ∧ sendTimedOut s = true
          ∧ tryFlush s = { s with uops := flushPartialUops s.egress.length ++ s.uops })
      ∨ (s.egress = [] ∧ s.zlpOwed = true ∧ tryFlush s = { s with uops := flushEmptyUops ++ s.uops })
      ∨ tryFlush s = { s with mainPhase := .waitConn } := by
  unfold tryFlush
  split
  · exact .inl ⟨by assumption, rfl⟩
  · split
    · rename_i h1 h2
      exact .inr (.inl ⟨by omega, h2.1, h2.2, rfl⟩)
    · split
      · rename_i h
        exact .inr (.inr (.inl ⟨List.length_eq_zero_iff.1 h.1, h.2, rfl⟩))
      · exact .inr (.inr (.inr rfl))

/-- What `tryFlush` can write: it lays out the flush, or ends the phase (41_egress.md R164, R169). -/
theorem tryFlush_writes (s : State) : tryFlush s = { s with
    uops := (tryFlush s).uops
    mainPhase := (tryFlush s).mainPhase } := by
  rcases tryFlush_cases s with ⟨-, h⟩ | ⟨-, -, -, h⟩ | ⟨-, -, h⟩ | h <;> rw [h]

/-- What a phase step can do. -/
inductive PhaseEffect (s : State) : State → Prop
  | hold (hp : s.mainPhase = .waitConn) (hc : s.hostConnected = false) : PhaseEffect s s
  | connected (hp : s.mainPhase = .waitConn) (hc : s.hostConnected = true) : PhaseEffect s { s with mainPhase := .rxReturn }
  | rxReturn (hp : s.mainPhase = .rxReturn) :
      PhaseEffect s { returnToReceive s with mainPhase := .consume, uops := [.countInput] }
  | consumed (hp : s.mainPhase = .consume) (hl : s.consumeLeft = 0) : PhaseEffect s { s with mainPhase := .timeout }
  | consume (hp : s.mainPhase = .consume) (hl : 1 ≤ s.consumeLeft) (b : Byte) (q : List Byte)
      (hq : s.hostIn = b :: q) {t : State} (h : consume b s = .next t) : PhaseEffect s t
  | abandon (hp : s.mainPhase = .timeout) (h : rxTimedOut s = true) : PhaseEffect s (abandon s)
  | inTime (hp : s.mainPhase = .timeout) (h : rxTimedOut s = false) : PhaseEffect s { s with mainPhase := .flush }
  | flush (hp : s.mainPhase = .flush) (h : s.writeReady = true) : PhaseEffect s { s with uops := [.tryFlush] }
  | notReady (hp : s.mainPhase = .flush) (h : s.writeReady = false) : PhaseEffect s { s with mainPhase := .waitConn }
  | dispatched (hp : s.mainPhase = .dispatch) : PhaseEffect s { s with mainPhase := .consume }

theorem phaseStep_next (h : phaseStep s = .next t) : PhaseEffect s t := by
  unfold phaseStep at h
  split at h
  · split at h <;> cases h
    · exact .connected (by assumption) (by assumption)
    · exact .hold (by assumption) (by simp_all)
  · cases h
    exact .rxReturn (by assumption)
  · split at h
    · cases h
      exact .consumed (by assumption) (by assumption)
    · split at h
      · exact .consume (by assumption) (by omega) _ _ (by assumption) h
      · cases h
  · split at h <;> cases h
    · exact .abandon (by assumption) (by assumption)
    · exact .inTime (by assumption) (by simp_all)
  · split at h <;> cases h
    · exact .flush (by assumption) (by assumption)
    · exact .notReady (by assumption) (by simp_all)
  · cases h
    exact .dispatched (by assumption)

/-- What MAIN's step can do: run the instruction it fetches, hold in a call, perform a micro-operation, or take a
phase step. -/
theorem mainStep_next (h : mainStep s = .next t) :
    (∃ i, fetch s = some i ∧ s.pendingCall = none ∧ ExecEffect s i t)
      ∨ (s.pendingCall ≠ none ∧ t = s)
      ∨ (∃ u rest, s.pendingCall = none ∧ s.uops = u :: rest ∧ UopEffect s rest u t)
      ∨ (s.pendingCall = none ∧ s.uops = [] ∧ PhaseEffect s t) := by
  unfold mainStep at h
  split at h
  · rename_i i hf
    refine .inl ⟨i, hf, ?_, exec_next h⟩
    unfold fetch at hf
    split at hf
    · cases hf
    · assumption
  · unfold mainMicroStep at h
    split at h
    · cases h
      exact .inr (.inl ⟨by simp_all, rfl⟩)
    · split at h
      · exact .inr (.inr (.inl ⟨_, _, by assumption, by assumption, performUop_next h⟩))
      · exact .inr (.inr (.inr ⟨by assumption, by assumption, phaseStep_next h⟩))

/-- A fetched reject row: MAIN is about to consume its byte (40_classifier.md R122). -/
theorem fetch_reject {id len code : Byte} (h : fetch s = some (.reject id len code)) :
    s.uops = [] ∧ 1 ≤ s.consumeLeft ∧ 1 ≤ s.hostIn.length ∧ s.mainPhase = .consume := by
  unfold fetch at h
  split at h
  · cases h
  · split at h
    · rename_i k p _ _
      simp only [decodeDispatch, Option.map_eq_some_iff] at h
      obtain ⟨tg, -, h⟩ := h
      cases k <;> simp [Kind.instr] at h
    · cases h
    · unfold fetchRejected at h
      split at h
      · simp_all
      · cases h

/-- What stands in `uops` where MAIN runs an instruction: its `DISPATCH` at the head, or nothing. -/
theorem fetch_uops {i : Instr} (h : fetch s = some i) : s.uops = [] ∨ ∃ k p rest, s.uops = .dispatch k p :: rest := by
  unfold fetch at h
  split at h
  · cases h
  · split at h
    · exact .inr ⟨_, _, _, by assumption⟩
    · cases h
    · exact .inl (by assumption)

/-- What BUSRX may write (42_arbiter.md R189, R190; 60_exceptions.md R255). -/
theorem busRx_writes (b : Byte) (s : State) : busRx b s = { s with
    egress := (busRx b s).egress
    sendTimer := (busRx b s).sendTimer
    cap := (busRx b s).cap
    busTimer := (busRx b s).busTimer
    fault := (busRx b s).fault } := by
  rcases busRx_cases b s with ⟨-, h⟩ | ⟨-, -, h⟩ | ⟨-, -, -, h⟩ | ⟨-, -, -, h⟩
  · rw [h]
  · rcases enqueue_cases b s with ⟨-, h'⟩ | ⟨-, h'⟩ <;> rw [h, h'] <;> rfl
  · rw [h]
    rfl
  · rw [h]
    rfl

/-- What a move of ENV can do. -/
inductive EnvEffect (s : State) : EnvMove → State → Prop
  | txDone (h : 1 ≤ s.busTxPending) (hh : s.executorHold = none) :
      EnvEffect s .txDone { s with busTxPending := s.busTxPending - 1 }
  | release (r : BusRequest) (h : 1 ≤ s.busTxPending) (hh : s.executorHold = some r) {t : State}
      (ht : RequestEffect { s with busTxPending := s.busTxPending - 1 } r t) : EnvEffect s .txDone t
  | hostByte (b : Byte) : EnvEffect s (.hostByte b) { s with hostIn := s.hostIn ++ [b] }
  | setConnected (v : Bool) : EnvEffect s (.setConnected v) { s with hostConnected := v }
  | setWriteReady (v : Bool) : EnvEffect s (.setWriteReady v) { s with writeReady := v }
  | setTimeouts (r w : Nat) (hr : s.cfg.thresholdOk r = true) (hw : s.cfg.thresholdOk w = true) :
      EnvEffect s (.setTimeouts r w) { s with receiveTimeout := r, sendTimeout := w }
  | modeSet (v : Bool) (h : executorFree s = true) : EnvEffect s (.modeSet v) { s with passthrough := v }
  | dirTransmit (h : executorFree s = true) : EnvEffect s .dirTransmit (switchToTransmit s)
  | dirReceive (h : executorFree s = true) {t : State} (ht : RequestEffect s .switchToReceive t) :
      EnvEffect s .dirReceive t
  | executorWrite (h : executorFree s = true) (b : Byte) {t : State} (ht : RequestEffect s (.busWrite b) t) :
      EnvEffect s (.executorWrite b) t
  | clearCapture (h : executorFree s = true) : EnvEffect s .clearCapture { s with cap := [] }
  | oversize (r : CallResult) : EnvEffect s (.ret r) (raise .dispatchShape s)
  | ret (r : CallResult) (bs : List Byte) (hc : s.pendingCall ≠ none)
      (h : inAggregatedRead s = true → s.passthrough = true ∧ s.executorHold = none) :
      EnvEffect s (.ret r) { s with pendingCall := none, uops := bs.map .enqueue ++ s.uops }

theorem envMove_next {e : EnvMove} (h : envMove e s = .next t) : EnvEffect s e t := by
  cases e with
  | txDone =>
    simp only [envMove] at h
    split at h <;> cases h
    rename_i hp
    rcases retryHeld_cases { s with busTxPending := s.busTxPending - 1 } with ⟨hh, he⟩ | ⟨r, hh, he⟩ <;>
      rw [txDone, he]
    · exact .txDone hp hh
    · exact .release r hp hh (requestBus_effect r _)
  | hostByte b => cases h; exact .hostByte b
  | setConnected v => cases h; exact .setConnected v
  | setWriteReady v => cases h; exact .setWriteReady v
  | setTimeouts r w =>
    simp only [envMove] at h
    split at h
    · rename_i hc
      cases h
      simp only [Bool.and_eq_true] at hc
      exact .setTimeouts r w hc.1 hc.2
    · cases h
  | modeSet v =>
    obtain ⟨ha, rfl⟩ := executorMove_next h
    exact .modeSet v ha
  | dirTransmit =>
    obtain ⟨ha, rfl⟩ := executorMove_next h
    exact .dirTransmit ha
  | dirReceive =>
    obtain ⟨ha, rfl⟩ := executorMove_next h
    exact .dirReceive ha (requestBus_effect _ s)
  | executorWrite b =>
    obtain ⟨ha, rfl⟩ := executorMove_next h
    exact .executorWrite ha b (requestBus_effect _ s)
  | clearCapture =>
    obtain ⟨ha, rfl⟩ := executorMove_next h
    exact .clearCapture ha
  | ret r =>
    rcases returnCall_next h with rfl | ⟨bs, rfl, hc, hp⟩
    · exact .oversize r
    · exact .ret r bs hc hp

/-- What a step can do: the picked agent's effect on the state with the move taken off the schedule. -/
theorem step_next (h : step s = .next t) :
    Running s ∧
      ((nextMove s = .main ∧ mainStep (takeMove s) = .next t)
        ∨ (nextMove s = .tick ∧ t = tick (takeMove s))
        ∨ (∃ b, nextMove s = .busRx b ∧ t = busRx b (takeMove s))
        ∨ (∃ e, nextMove s = .env e ∧ EnvEffect (takeMove s) e t)) := by
  obtain ⟨hr, hm⟩ := step_next_iff.1 h
  refine ⟨hr, ?_⟩
  cases hn : nextMove s with
  | main =>
    rw [hn] at hm
    exact .inl ⟨rfl, hm⟩
  | tick =>
    rw [hn] at hm
    cases hm
    exact .inr (.inl ⟨rfl, rfl⟩)
  | busRx b =>
    rw [hn] at hm
    cases hm
    exact .inr (.inr (.inl ⟨b, rfl, rfl⟩))
  | env e =>
    rw [hn] at hm
    exact .inr (.inr (.inr ⟨e, rfl, envMove_next hm⟩))

end Sys2Proof.Machine
end

