-- ==== Sys2Proof/Laws/Safety.lean ====
section
/-! SUPPORT. What the invariant says of the classifier, state by state, and what a transition does from a state
that has it. -/

namespace Sys2Proof.Machine

open Sys2Proof

variable {s t : State} {b : Byte}

/-- The classifier states that read a checksum byte at once, with their kinds (40_classifier.md R121). -/
inductive ConfirmState : CState → Kind → Prop
  | ping : ConfirmState .pingConfirm .ping
  | reset : ConfirmState .resetConfirm .reset
  | bootload : ConfirmState .bootloadConfirm .bootload

/-- `classifierOk`, state by state. -/
inductive ClassifierShape (s : State) : Prop
  | seekSync1 (hc : s.cstate = .seekSync1) (hs : s.scratch = []) (hk : s.chk = 0#8) (hr : s.rem = 0)
  | seekSync2 (hc : s.cstate = .seekSync2) (hs : s.scratch = [syncByte]) (hk : s.chk = 0#8) (hr : s.rem = 0)
  | readId (hc : s.cstate = .readId) (hs : s.scratch = [syncByte, syncByte]) (hk : s.chk = 0#8) (hr : s.rem = 0)
  | readLen (id : Byte) (hc : s.cstate = .readLen) (hs : s.scratch = [syncByte, syncByte, id])
      (hid : id ≠ syncByte) (hk : s.chk = 0#8) (hr : s.rem = 0)
  | readInstr (id len : Byte) (hc : s.cstate = .readInstr) (hs : s.scratch = [syncByte, syncByte, id, len])
      (hid : (s.cfg.targetOf id).isSome = true) (hl : s.cfg.lengthLegal len = true) (hk : s.chk = 0#8)
      (hr : s.rem = 0)
  | confirm (k : Kind) (hck : ConfirmState s.cstate k) (len : Byte)
      (hs : s.scratch = [syncByte, syncByte, s.cfg.localId, len, s.cfg.codeOf k])
      (hl : s.cfg.lengthLegal len = true) (hk : s.chk = s.cfg.localId + len + s.cfg.codeOf k)
      (hr : s.rem + 1 = len.toNat)
  | collectParams (id len op : Byte) (ps : List Byte) (k : Kind) (hc : s.cstate = .collectParams)
      (hs : s.scratch = syncByte :: syncByte :: id :: len :: op :: ps)
      (hid : (s.cfg.targetOf id).isSome = true) (hl : s.cfg.lengthLegal len = true)
      (ho : s.cfg.collectKindOf op = some k) (hk : s.chk = sum8 (id :: len :: op :: ps)) (hr1 : 1 ≤ s.rem)
      (hr : s.rem + ps.length + 1 = len.toNat)
  | relayRemainder (hc : s.cstate = .relayRemainder) (hs : s.scratch = []) (hk : s.chk = 0#8) (hr1 : 1 ≤ s.rem)
      (hr : s.rem ≤ 255)

theorem confirmOk_shape {k : Kind} (hck : ConfirmState s.cstate k) (h : confirmOk s (s.cfg.codeOf k) = true) :
    ClassifierShape s := by
  unfold confirmOk at h
  split at h
  · rename_i s0 s1 id len op hs
    simp only [Bool.and_eq_true, beq_iff_eq] at h
    obtain ⟨⟨⟨⟨⟨⟨rfl, rfl⟩, rfl⟩, hl⟩, rfl⟩, hk⟩, hr⟩ := h
    exact .confirm k hck len hs hl hk hr
  · cases h

theorem classifierOk_shape (h : classifierOk s = true) : ClassifierShape s := by
  unfold classifierOk at h
  cases hc : s.cstate <;> simp only [hc] at h
  case seekSync1 =>
    simp only [Bool.and_eq_true, beq_iff_eq] at h
    exact .seekSync1 hc h.1.1 h.1.2 h.2
  case seekSync2 =>
    simp only [Bool.and_eq_true, beq_iff_eq] at h
    exact .seekSync2 hc h.1.1 h.1.2 h.2
  case readId =>
    simp only [Bool.and_eq_true, beq_iff_eq] at h
    exact .readId hc h.1.1 h.1.2 h.2
  case readLen =>
    simp only [Bool.and_eq_true, beq_iff_eq] at h
    obtain ⟨⟨⟨hh, hlen⟩, hk⟩, hr⟩ := h
    unfold headerOk at hh
    split at hh
    · rename_i s0 s1 id hs
      simp only [Bool.and_eq_true, beq_iff_eq, bne_iff_ne] at hh
      obtain ⟨⟨rfl, rfl⟩, hid⟩ := hh
      exact .readLen id hc hs hid hk hr
    · simp_all
    · cases hh
  case readInstr =>
    simp only [Bool.and_eq_true, beq_iff_eq] at h
    obtain ⟨⟨⟨hh, hlen⟩, hk⟩, hr⟩ := h
    unfold headerOk at hh
    split at hh
    · simp_all
    · rename_i s0 s1 id len hs
      simp only [Bool.and_eq_true, beq_iff_eq] at hh
      obtain ⟨⟨⟨rfl, rfl⟩, hid⟩, hl⟩ := hh
      exact .readInstr id len hc hs hid hl hk hr
    · cases hh
  case pingConfirm => exact confirmOk_shape (k := .ping) (hc ▸ .ping) h
  case resetConfirm => exact confirmOk_shape (k := .reset) (hc ▸ .reset) h
  case bootloadConfirm => exact confirmOk_shape (k := .bootload) (hc ▸ .bootload) h
  case collectParams =>
    unfold collectOk at h
    split at h
    · rename_i s0 s1 id len op ps hs
      simp only [Bool.and_eq_true, beq_iff_eq, decide_eq_true_eq] at h
      obtain ⟨⟨⟨⟨⟨⟨⟨rfl, rfl⟩, hid⟩, hl⟩, ho⟩, hk⟩, hr1⟩, hr⟩ := h
      obtain ⟨k, ho⟩ := Option.isSome_iff_exists.1 ho
      exact .collectParams id len op ps k hc hs hid hl ho hk hr1 hr
    · cases h
  case relayRemainder =>
    simp only [Bool.and_eq_true, beq_iff_eq, decide_eq_true_eq] at h
    exact .relayRemainder hc h.1.1 h.1.2 h.2.1 h.2.2

/-- A retained identifier is no sync byte (00_scope.md R12). -/
theorem ne_sync_of_isSome {c : Config} {id : Byte} (hw : c.wf = true) (h : (c.targetOf id).isSome = true) :
    id ≠ syncByte := by
  obtain ⟨tg, ht⟩ := Option.isSome_iff_exists.1 h
  rw [c.idOf_of_targetOf ht]
  exact c.idOf_ne_sync hw tg

/-- The scratch buffer always has room (40_classifier.md R127). -/
theorem ClassifierShape.room (hw : s.cfg.wf = true) (h : ClassifierShape s) : s.scratch.length < s.cfg.scratchCap := by
  have hc := (s.cfg.wf_iff.1 hw).2.2.2.2
  cases h <;> simp_all only [List.length_cons, List.length_nil, Config.lengthLegal, decide_eq_true_eq] <;> omega

theorem configOk_wf (h : configOk s = true) : s.cfg.wf = true := by
  simp only [configOk, Bool.and_eq_true] at h
  exact h.1.1

/-- After a resync the classifier is idle, or has one sync byte pending (40_classifier.md R111). -/
theorem classifierOk_resync (r : RejectReason) (s : State) : classifierOk (resync r s) = true := by
  by_cases h : s.scratch.getLast? = some syncByte <;> simp [resync, classifierOk, h, resyncKept]

/-- An accepted frame leaves the classifier idle (40_classifier.md R123, R129). -/
theorem classifierOk_acceptFrame (k : Kind) (p : Packet) (s : State) : classifierOk (acceptFrame k p s) = true := by
  simp [acceptFrame, classifierOk]

/-- What a transition answers from a state with the invariant: the classifier's registers fit its new state, the
micro-operations are relays and the range-error status, or the one dispatch of a packet that may be dispatched,
no byte is lost, and an accepted and a rejected frame leave the registers of R111, R123 and R129 behind
(40_classifier.md R131, R133). -/
structure ConsumeSpec (b : Byte) (s t : State) : Prop where
  classifier : classifierOk t = true
  packets : ∀ k p, Uop.dispatch k p ∈ t.uops → t.uops = [.dispatch k p] ∧ packetOk s.cfg k p = true
  bytes : (t.lastAction = .frameComplete ∧ t.scratch = [] ∧ ∃ k p, t.uops = [.dispatch k p])
    ∨ (t.lastAction ≠ .frameComplete ∧ relayed t.uops ++ t.scratch = s.scratch ++ [b])
  accepted : t.lastAction = .frameComplete → t.cstate = .seekSync1 ∧ t.chk = 0#8 ∧ t.rem = 0
  rejected : t.lastAction = .frameRejected →
    t.cstate = (if b = syncByte then .seekSync2 else .seekSync1)
      ∧ t.scratch = (if b = syncByte then [syncByte] else []) ∧ t.chk = 0#8 ∧ t.rem = 0

theorem ConsumeSpec.of_resync (r : RejectReason) (us : List Uop) (hr : relayed us = [])
    (hd : ∀ k p, Uop.dispatch k p ∉ us) :
    ConsumeSpec b s (resync r { appended b s with uops := us }) := by
  refine ⟨classifierOk_resync _ _, ?_, .inr ⟨by simp [resync], ?_⟩, by simp [resync], fun _ => ?_⟩
  · intro k p h
    simp [resync, hd] at h
  · simp [resync, relayed_append, relayed, hr, resync_conserves, appended]
  · simp [resync, resyncKept, appended]

theorem ConsumeSpec.of_accept {k : Kind} {p : Packet} {u : State} (h : packetOk s.cfg k p = true) :
    ConsumeSpec b s (acceptFrame k p u) := by
  refine ⟨classifierOk_acceptFrame k p u, ?_, .inl ⟨rfl, rfl, k, p, rfl⟩, fun _ => ⟨rfl, rfl, rfl⟩, nofun⟩
  intro k' p' h'
  simp only [acceptFrame, List.mem_singleton, Uop.dispatch.injEq] at h'
  obtain ⟨rfl, rfl⟩ := h'
  exact ⟨rfl, h⟩

/-- A transition that keeps every byte and leaves no micro-operation. -/
theorem ConsumeSpec.of_buffered (hcl : classifierOk t = true) (hu : t.uops = []) (hs : t.scratch = s.scratch ++ [b])
    (ha : t.lastAction = .buffered) : ConsumeSpec b s t := by
  refine ⟨hcl, by simp [hu], .inr ⟨by simp [ha], by simp [hu, hs, relayed]⟩, by simp [ha], by simp [ha]⟩

/-- A transition that only relays. -/
theorem ConsumeSpec.of_relayed {bs : List Byte} (hcl : classifierOk t = true) (hu : t.uops = bs.map .busWrite)
    (hs : bs ++ t.scratch = s.scratch ++ [b]) (ha : t.lastAction ≠ .frameComplete ∧ t.lastAction ≠ .frameRejected) :
    ConsumeSpec b s t := by
  refine ⟨hcl, by simp [hu], .inr ⟨ha.1, by simp [hu, hs]⟩, fun h => absurd h ha.1, fun h => absurd h ha.2⟩

/-- From a state with the invariant every transition has a rule, and answers as `ConsumeSpec` says. -/
theorem consume_spec (hw : s.cfg.wf = true) (hsh : ClassifierShape s) (b : Byte) :
    ∃ t, consume b s = .next t ∧ ConsumeSpec b s t := by
  have hroom := hsh.room hw
  cases hsh with
  | seekSync1 hc hs hk hr =>
    simp only [consume, hc, consumeSeekSync1]
    by_cases hb : b = syncByte
    · subst hb
      exact ⟨_, if_pos rfl, .of_buffered (by simp [classifierOk, received, hk, hr]) rfl (by simp [hs]) rfl⟩
    · exact ⟨_, if_neg hb, .of_relayed (bs := [b]) (by simp [classifierOk, received, hc, hs, hk, hr]) rfl
        (by simp [received, hs]) (by simp)⟩
  | seekSync2 hc hs hk hr =>
    simp only [consume, hc, consumeSeekSync2, withAppend_of_room hroom]
    by_cases hb : b = syncByte
    · subst hb
      exact ⟨_, if_pos rfl, .of_buffered (by simp [classifierOk, appended, received, hs, hk, hr]) rfl rfl rfl⟩
    · exact ⟨_, if_neg hb, .of_resync .badSync2 [] rfl (by simp)⟩
  | readId hc hs hk hr =>
    simp only [consume, hc, consumeReadId, withAppend_of_room hroom]
    by_cases hb : b = syncByte
    · subst hb
      simp only [if_true, appended, hs, List.cons_append, List.nil_append]
      exact ⟨_, rfl, .of_relayed (bs := [syncByte]) (by simp [classifierOk, received, hc, hk, hr]) rfl
        (by simp [hs]) (by simp)⟩
    · exact ⟨_, if_neg hb, .of_buffered (by simp [classifierOk, headerOk, appended, received, hs, hk, hr, hb]) rfl
        rfl rfl⟩
  | readLen id hc hs hid hk hr =>
    have hv : idView s.scratch = some id := by simp [hs, idView]
    simp only [consume, hc, consumeReadLen, hv, withAppend_of_room hroom]
    cases ht : s.cfg.targetOf id with
    | none =>
      refine ⟨_, if_pos rfl, .of_relayed (bs := (appended b s).scratch) ?_ rfl ?_ (by simp [relayForeign])⟩
      · by_cases hb : b = 0#8
        · simp [relayForeign, classifierOk, appended, received, hb, hk, hr]
        · have h0 : b.toNat ≠ 0 := fun h => hb (BitVec.eq_of_toNat_eq (by simpa using h))
          have := b.isLt
          simp [relayForeign, classifierOk, appended, received, hb, hk]
          omega
      · simp [relayForeign, appended]
    | some tg =>
      simp only [Option.isNone_some, Bool.false_eq_true, if_false]
      cases hl : s.cfg.lengthLegal b with
      | true =>
        exact ⟨_, if_pos rfl, .of_buffered
          (by simp [classifierOk, headerOk, appended, received, hs, hk, hr, ht, hl]) rfl rfl rfl⟩
      | false =>
        exact ⟨_, if_neg (by simp), .of_resync .lenRange _ (by simp [emitStatus]) (by simp [emitStatus])⟩
  | readInstr id len hc hs hid hl hk hr =>
    have hv : idView s.scratch = some id := by simp [hs, idView]
    have hv' : lenView s.scratch = some len := by simp [hs, lenView]
    have hl2 : 2 ≤ len.toNat := by
      simp only [Config.lengthLegal, decide_eq_true_eq] at hl
      omega
    simp only [consume, hc, consumeReadInstr, hv, hv', rejectInstrByte, withAppend_of_room hroom]
    cases hcl : s.cfg.classOf id b with
    | collect k =>
      obtain ⟨hk', hb, -⟩ := s.cfg.classOf_collect hcl
      refine ⟨_, rfl, .of_buffered ?_ rfl rfl rfl⟩
      have hko : s.cfg.collectKindOf b = some k := hb ▸ s.cfg.collectKindOf_codeOf hw hk'
      have hst : stateAfterInstr k = .collectParams := by rcases hk' with rfl | rfl | rfl <;> rfl
      simp only [classifierOk, acceptInstrByte, hst, collectOk, appended, received, hs, hid, hl, hko,
        List.cons_append, List.nil_append, sum8_cons, sum8_nil, BitVec.add_zero, BitVec.add_assoc, beq_self_eq_true,
        Option.isSome_some, Bool.and_true, Bool.true_and, List.length_nil, Nat.add_zero, Bool.and_eq_true,
        decide_eq_true_eq, beq_iff_eq]
      omega
    | confirm k =>
      obtain ⟨hk', hb, rfl⟩ := s.cfg.classOf_confirm hcl
      refine ⟨_, rfl, .of_buffered ?_ rfl rfl rfl⟩
      have hr' : len.toNat - 1 + 1 = len.toNat := by omega
      rcases hk' with rfl | rfl | rfl <;>
        simp [classifierOk, acceptInstrByte, stateAfterInstr, confirmOk, appended, received, hs, hl, hb, hr',
          Config.codeOf]
    | rejected => exact ⟨_, rfl, .of_resync .badInstr [] rfl (by simp)⟩
  | confirm k hck len hs hl hk hr =>
    have hp : packetView s.scratch [] = some ⟨s.cfg.localId, len, s.cfg.codeOf k, []⟩ := by
      simp [hs, packetView, idView, lenView, instrView]
    have hcons : consume b s = consumeConfirm k b s := by
      unfold consume
      generalize hc : s.cstate = c at hck
      cases hck <;> simp
    rw [hcons, consumeConfirm, withAppend_of_room hroom]
    cases hok : checksumAccepts s.chk b with
    | true =>
      simp only [if_true, hp]
      refine ⟨_, rfl, .of_accept ?_⟩
      generalize hc : s.cstate = c at hck
      cases hck <;> simp [packetOk, hl]
    | false => exact ⟨_, if_neg (by simp), .of_resync .checksum [] rfl (by simp)⟩
  | collectParams id len op ps k hc hs hid hl ho hk hr1 hr =>
    simp only [consume, hc, consumeCollect]
    obtain ⟨n, hn⟩ := Nat.exists_eq_add_of_le' hr1
    cases n with
    | zero =>
      simp only [hn, withAppend_of_room hroom]
      have hp : packetView s.scratch (s.scratch.drop 5) = some ⟨id, len, op, ps⟩ := by
        simp [hs, packetView, idView, lenView, instrView]
      cases hok : checksumAccepts s.chk b with
      | true =>
        simp only [if_true, hp, ho]
        refine ⟨_, rfl, .of_accept ?_⟩
        obtain ⟨hk', rfl⟩ := s.cfg.collectKindOf_some ho
        have hlen : ps.length + 2 = len.toNat := by omega
        rcases hk' with rfl | rfl | rfl <;> simp [packetOk, hl, hid, hlen]
      | false => exact ⟨_, if_neg (by simp), .of_resync .checksum [] rfl (by simp)⟩
    | succ n =>
      simp only [hn, withAppend_of_room hroom]
      refine ⟨_, rfl, .of_buffered ?_ rfl rfl rfl⟩
      simp only [classifierOk, hc, collectOk, appended, received, hs, hid, hl, ho, hk, sum8_cons, sum8_append,
        List.cons_append, List.length_append, List.length_singleton, sum8_nil, BitVec.add_zero, BitVec.add_assoc,
        beq_self_eq_true, Option.isSome_some, Bool.and_true, Bool.true_and, Bool.and_eq_true, decide_eq_true_eq,
        beq_iff_eq]
      omega
  | relayRemainder hc hs hk hr1 hr =>
    simp only [consume, hc, consumeRelay]
    obtain ⟨n, hn⟩ := Nat.exists_eq_add_of_le' hr1
    simp only [hn]
    refine ⟨_, rfl, .of_relayed (bs := [b]) ?_ rfl (by simp [received, hs]) (by simp)⟩
    by_cases h0 : n = 0
    · simp [classifierOk, received, hs, hk, h0]
    · simp [classifierOk, received, hs, hk, h0]
      omega

end Sys2Proof.Machine
end

