-- ==== Sys2Proof/Laws/Invariant.lean ====
section
/-! SUPPORT. Each shared operation keeps the invariant. -/

namespace Sys2Proof.Machine

open Sys2Proof

variable {s : State}

theorem inv_takeMove (h : Inv s) : Inv (takeMove s) := { h with }

theorem inv_raise (h : Inv s) (hh : s.halted = none) (c : FaultCode) : Inv (raise c s) :=
  { h with oneEnd := .inr hh }

theorem countTimer_lt {c : Config} {n : Nat} (h : n < 2 ^ c.timerWidth) : countTimer c n < 2 ^ c.timerWidth := by
  unfold countTimer
  split
  · omega
  · exact Nat.mod_lt _ (by omega)

theorem inv_tick (h : Inv s) : Inv (tick s) :=
  { h with
    rxTimer := countTimer_lt h.rxTimer
    sendTimer := countTimer_lt h.sendTimer
    busTimer := countTimer_lt h.busTimer }

theorem inv_pushEgress (h : Inv s) (b : Byte) (hf : egressFull s = false) : Inv (pushEgress b s) := by
  simp only [egressFull, decide_eq_false_iff_not] at hf
  exact { h with
    sendTimer := Nat.two_pow_pos _
    egress := by
      simp only [pushEgress, List.length_append, List.length_singleton]
      omega
    flushes := by
      have := h.flushes
      simp only [pushEgress, List.length_append]
      omega }

theorem inv_pushCapture (h : Inv s) (b : Byte) (hf : captureFull s = false) : Inv (pushCapture b s) := by
  simp only [captureFull, decide_eq_false_iff_not] at hf
  exact { h with
    busTimer := Nat.two_pow_pos _
    cap := by
      simp only [pushCapture, List.length_append, List.length_singleton]
      omega }

theorem inv_busRx (b : Byte) (h : Inv s) (hh : s.halted = none) : Inv (busRx b s) := by
  rcases busRx_cases b s with ⟨-, he⟩ | ⟨-, -, he⟩ | ⟨-, -, -, he⟩ | ⟨-, -, hf, he⟩ <;> rw [he]
  · exact h
  · rcases enqueue_cases b s with ⟨-, h'⟩ | ⟨hf, h'⟩ <;> rw [h']
    · exact inv_raise h hh _
    · exact inv_pushEgress h b hf
  · exact inv_raise h hh _
  · exact inv_pushCapture h b hf

theorem inv_sendBus (b : Byte) (h : Inv s) (hf : busTxFull s = false) : Inv (sendBus b s) := by
  simp only [busTxFull, decide_eq_false_iff_not, Nat.not_le] at hf
  exact { h with
    busTx := hf
    listening := by simp [sendBus]
    held := fun hh => ⟨(h.held hh).1, Nat.le_add_left _ _⟩ }

/-- A bus request of the executor, during its poll (42_arbiter.md R182, R183). -/
theorem inv_request {r : BusRequest} {t : State} (h : Inv { s with executorHold := none })
    (ha : inAggregatedRead s = true) (he : RequestEffect s r t) : Inv t := by
  have hd : 1 ≤ s.cfg.busTxDepth := (s.cfg.wf_iff.1 (configOk_wf h.config)).2.2.2.2.2.2.2.2.2
  cases he with
  | listening => exact { h with held := fun hh => absurd rfl hh }
  | switched _ hp => exact { h with listening := fun _ => hp, held := fun hh => absurd rfl hh }
  | undrained _ hp => exact { h with held := fun _ => ⟨ha, hp⟩ }
  | sent b hf => exact inv_sendBus b h hf
  | full b hf =>
    simp only [busTxFull, decide_eq_true_eq] at hf
    exact { h with held := fun _ => ⟨ha, by show 1 ≤ s.busTxPending; omega⟩ }

theorem flushesPending_tail (us : List Uop) : flushesPending us.tail ≤ flushesPending us := by
  cases us with
  | nil => exact Nat.le_refl _
  | cons u us => cases u <;> simp [flushesPending]

theorem writesCommitted_tail {us : List Uop} (h : writesCommitted us = true) : writesCommitted us.tail = true := by
  cases us with
  | nil => rfl
  | cons u us => cases u <;> simp_all [writesCommitted]

theorem writesCommitted_append {us vs : List Uop} (hu : flushesPending us = 0) (hv : writesCommitted vs = true) :
    writesCommitted (us ++ vs) = true := by
  induction us with
  | nil => exact hv
  | cons u us ih => cases u <;> simp_all [writesCommitted, flushesPending]

theorem writesCommitted_flush (n : Nat) {us : List Uop} (hm : Uop.hostCommit ∈ us) (h : writesCommitted us = true) :
    writesCommitted (List.replicate n .flushByte ++ us) = true := by
  induction n with
  | zero => exact h
  | succ n ih => simp [List.replicate_succ, writesCommitted, ih, hm]

/-- Between flushes no byte stands uncommitted (41_egress.md R163). -/
theorem hostFrame_of_no_uops (h : Inv s) (hu : s.uops = []) : s.hostFrame = [] := by
  have := h.uncommitted
  simpa [hu] using this

/-- A dispatch stands alone in `uops`, and nothing is uncommitted then (43_service_timeout.md R201, R202). -/
theorem dispatch_alone {k : Kind} {p : Packet} {rest : List Uop} (h : Inv s) (hu : s.uops = .dispatch k p :: rest) :
    rest = [] ∧ s.mainPhase = .consume ∧ s.hostFrame = [] := by
  have hw := h.work
  rw [hu] at hw
  have hl := workOk_last hw (by cases s.mainPhase <;> rfl)
  refine ⟨hl.1, ?_, ?_⟩
  · have := hl.2
    cases hm : s.mainPhase <;> simp_all [mayEnd]
  · have := h.uncommitted
    simpa [hu, hl.1] using this

/-- Dispatch takes its own micro-operation off, and what it puts in its place is work of the DISPATCH phase. -/
theorem inv_beginDispatch {us : List Uop} (h : Inv s) (hp : s.pendingCall = none) (ht : s.uops.tail = [])
    (hh : s.hostFrame = []) (hf : flushesPending us = 0) (hd : ∀ k p, Uop.dispatch k p ∉ us)
    (hw : workOk .dispatch us = true) : Inv (beginDispatch us s) :=
  { h with
    commits := by
      simpa [beginDispatch, ht] using writesCommitted_append (vs := []) hf rfl
    uncommitted := .inr hh
    flushes := by simp [beginDispatch, ht, hf]
    packets := by simp [beginDispatch, ht, hd]
    work := by simpa [beginDispatch, ht] using hw
    callPhase := fun hc => absurd hp hc }

/-- Outside a call the executor does not hold (42_arbiter.md R187). -/
theorem executorHold_of_no_call (h : Inv s) (hp : s.pendingCall = none) : s.executorHold = none := by
  cases hh : s.executorHold with
  | none => rfl
  | some r =>
    have := (h.held (by simp [hh])).1
    simp [inAggregatedRead, hp] at this

theorem inv_issueCall {c : Call} (h : Inv s) (hm : s.mainPhase = .dispatch) (hu : s.uops ≠ [])
    (hp : s.passthrough = true) (hh : s.executorHold = none) : Inv (issueCall c s) :=
  { h with
    callPhase := fun _ => ⟨hm, hu⟩
    modeFlag := fun hf => absurd (hp.symm.trans hf) (by simp)
    held := fun hne => absurd hh hne }

theorem inv_restartBlock {b : Bool} (h : Inv s) (hf : s.fault = none) : Inv (restartBlock b s) :=
  { h with oneEnd := .inl hf }

/-- Outside a call the mode is pass-through (42_arbiter.md R192). -/
theorem passthrough_of_no_call (h : Inv s) (hp : s.pendingCall = none) : s.passthrough = true := by
  cases hpt : s.passthrough with
  | true => rfl
  | false =>
    have := h.modeFlag hpt
    simp [inAggregatedRead, hp] at this

end Sys2Proof.Machine
end

