-- ==== Sys2Proof/Laws/Fair.lean ====
section
/-! SUPPORT. Progress of MAIN through its service cycle along a run: what a step does to MAIN's place in the cycle,
and that under the named premises MAIN completes a cycle; what a step that consumes no byte does to the classifier; and
how a short queue leaves. -/

namespace Sys2Proof.Machine

open Sys2Proof

variable {s t u : State}

/-! ### MAIN's place in the cycle -/

/-- The phases in their order, the one that ends the cycle lowest (43_service_timeout.md R200). -/
def phaseRank : MainPhase → Nat
  | .rxReturn => 4
  | .consume | .dispatch => 3
  | .timeout => 2
  | .flush => 1
  | .waitConn => 0

/-- The micro-operation is a `DISPATCH`. -/
def Uop.isDispatch : Uop → Bool
  | .dispatch _ _ => true
  | _ => false

/-- How far the work of a phase still is from its last list of micro-operations. -/
def stageRank (s : State) : Nat :=
  match s.mainPhase with
  | .consume => if s.uops.any Uop.isDispatch then 3 else 0
  | .dispatch => if s.pendingCall = none then 1 else 2
  | .timeout => if s.uops = [] then 1 else 0
  | .flush => if s.uops = [] then 2 else if .tryFlush ∈ s.uops then 1 else 0
  | .waitConn | .rxReturn => 0

/-- `t` is nearer to the end of the cycle than `s`: by its phase, else by the host bytes left, else by the stage of
the phase, else by the micro-operations left. -/
def Nearer (t s : State) : Prop :=
  phaseRank t.mainPhase < phaseRank s.mainPhase ∨ phaseRank t.mainPhase = phaseRank s.mainPhase ∧
    (t.hostIn.length < s.hostIn.length ∨ t.hostIn.length = s.hostIn.length ∧
      (stageRank t < stageRank s ∨ stageRank t = stageRank s ∧ t.uops.length < s.uops.length))

theorem nearer_wf : WellFounded Nearer := by
  have h := (InvImage.wf (fun s : State => (phaseRank s.mainPhase, s.hostIn.length, stageRank s, s.uops.length))
    (Prod.lex Nat.lt_wfRel (Prod.lex Nat.lt_wfRel (Prod.lex Nat.lt_wfRel Nat.lt_wfRel))).wf)
  refine Subrelation.wf (fun {t s} hn => ?_) h
  simp only [InvImage, WellFoundedRelation.rel, Prod.lex_def]
  exact hn

/-- Nothing is nearer to the end of the cycle than `WAIT_CONN`. -/
theorem Nearer.waitConn (h : Nearer t s) (hp : s.mainPhase = .waitConn) : t.mainPhase = .waitConn := by
  have h0 : phaseRank t.mainPhase = 0 := by
    rcases h with h' | ⟨h', -⟩ <;> rw [hp] at h' <;> simp only [phaseRank] at h'
    · omega
    · exact h'
  cases hm : t.mainPhase <;> simp_all [phaseRank]

/-- MAIN stands at the same place of its cycle, and no byte has been added to the transmitter but by a call. -/
structure SamePlace (s t : State) : Prop where
  cfg : t.cfg = s.cfg
  phase : t.mainPhase = s.mainPhase
  uops : t.uops = s.uops
  call : t.pendingCall = s.pendingCall
  input : t.hostIn = s.hostIn
  bus : s.pendingCall = none → t.busTxPending ≤ s.busTxPending

theorem SamePlace.refl (s : State) : SamePlace s s := ⟨rfl, rfl, rfl, rfl, rfl, fun _ => Nat.le_refl _⟩

theorem SamePlace.trans (h : SamePlace s t) (h' : SamePlace t u) : SamePlace s u where
  cfg := h'.cfg.trans h.cfg
  phase := h'.phase.trans h.phase
  uops := h'.uops.trans h.uops
  call := h'.call.trans h.call
  input := h'.input.trans h.input
  bus := fun hc => Nat.le_trans (h'.bus (h.call.trans hc)) (h.bus hc)

theorem SamePlace.nearer (h : SamePlace s t) : Nearer u t ↔ Nearer u s := by
  simp only [Nearer, stageRank, h.phase, h.uops, h.call, h.input]

/-- MAIN waits: in a call, for the transmitter, or for the host. -/
def Waits (s : State) : Prop :=
  s.pendingCall ≠ none ∨ (∃ b rest, s.uops = .busWrite b :: rest ∧ busTxFull s = true)
    ∨ s.mainPhase = .waitConn ∧ s.hostConnected = false

/-- In `WAIT_CONN` and `RX_RETURN` MAIN has no micro-operations. -/
theorem uops_of_phase (h : Inv s) (hp : s.mainPhase = .waitConn ∨ s.mainPhase = .rxReturn) : s.uops = [] := by
  have hw := h.work
  cases hu : s.uops with
  | nil => rfl
  | cons u us =>
    rw [hu] at hw
    rcases hp with hp | hp <;> rw [hp] at hw <;>
      exact absurd (workOk_last hw rfl).2 (by simp [mayEnd])

/-- A micro-operation that cannot end the timeout or the flush brings MAIN nearer to the end of its cycle. -/
theorem nearer_of_tail {v : Uop} {rest : List Uop} (h : Inv s) (hu : s.uops = v :: rest)
    (hv : mayEnd .timeout v = false ∧ mayEnd .flush v = false) (htu : t.uops = rest)
    (hph : t.mainPhase = s.mainPhase) (hcall : t.pendingCall = s.pendingCall) (hin : t.hostIn = s.hostIn) :
    Nearer t s := by
  have hw := h.work
  have hne : s.mainPhase = .timeout ∨ s.mainPhase = .flush → rest ≠ [] := by
    rintro hm rfl
    rw [hu] at hw
    rcases hm with hm | hm <;> rw [hm] at hw
    · exact absurd hw (by simp [workOk, hv.1])
    · exact absurd hw (by simp [workOk, hv.2])
  refine .inr ⟨by rw [hph], .inr ⟨by rw [hin], ?_⟩⟩
  have hl : t.uops.length < s.uops.length := by simp [htu, hu]
  suffices hs : stageRank t ≤ stageRank s by omega
  unfold stageRank
  rw [hph, hcall, htu, hu]
  cases hm : s.mainPhase with
  | waitConn | rxReturn | dispatch => exact Nat.le_refl _
  | consume => cases hr : rest.any Uop.isDispatch <;> simp [hr]
  | timeout => simp [hne (.inl hm)]
  | flush =>
    by_cases hr : Uop.tryFlush ∈ rest
    · simp [hne (.inr hm), hr]
    · simp [hne (.inr hm), hr]

/-- What a micro-operation does to MAIN's place. -/
theorem uop_place {v : Uop} {rest : List Uop} (h : Inv s) (hp : s.pendingCall = none)
    (hu : s.uops = v :: rest) (ht : stopReason t = none) (he : UopEffect s rest v t) :
    t = s ∧ Waits s ∨ Nearer t s := by
  have hf := (stopReason_eq_none_iff.1 ht)
  have hw := h.work
  rw [hu] at hw
  cases he with
  | hold b hb => exact .inl ⟨rfl, .inr (.inl ⟨b, rest, hu, hb⟩)⟩
  | overflow => simp [raise] at hf
  | restart b => simp [restartBlock] at hf
  | busWrite | enqueue | reject | countInput | flushByte | hostCommit | resetSendTimer | oweEmptyFrame
  | clearEmptyFrame =>
    exact .inr (nearer_of_tail h hu ⟨rfl, rfl⟩ rfl rfl rfl rfl)
  | tryFlush =>
    have hl := workOk_last hw (by cases s.mainPhase <;> rfl)
    have hm : s.mainPhase = .flush := by
      have := hl.2
      cases hm : s.mainPhase <;> simp_all [mayEnd]
    obtain ⟨rfl, -⟩ := hl
    rcases tryFlush_cases { s with uops := [] } with ⟨-, h'⟩ | ⟨-, -, -, h'⟩ | ⟨-, -, h'⟩ | h' <;> rw [h']
    · exact .inr (.inr ⟨rfl, .inr ⟨rfl, .inl (by simp [stageRank, hm, hu, flushFullUops])⟩⟩)
    · exact .inr (.inr ⟨rfl, .inr ⟨rfl, .inl (by simp [stageRank, hm, hu, flushPartialUops])⟩⟩)
    · exact .inr (.inr ⟨rfl, .inr ⟨rfl, .inl (by simp [stageRank, hm, hu, flushEmptyUops])⟩⟩)
    · exact .inr (.inl (by simp [hm, phaseRank]))
  | enterPhase p =>
    obtain ⟨rfl, hl⟩ := workOk_last hw (by cases s.mainPhase <;> rfl)
    cases hm : s.mainPhase <;> rw [hm] at hl <;> cases p <;> simp [mayEnd] at hl
    · exact .inr (.inl (by simp [hm, phaseRank]))
    · exact .inr (.inl (by simp [hm, phaseRank]))
    · exact .inr (.inr ⟨by simp [hm, phaseRank], .inr ⟨rfl, .inl (by simp [stageRank, hm, hp])⟩⟩)

/-- What a phase step does to MAIN's place: it waits for the host, begins a cycle, or comes nearer to its end. -/
theorem phase_place (hp : s.pendingCall = none) (hu : s.uops = []) (ht : stopReason t = none)
    (he : PhaseEffect s t) :
    t = s ∧ Waits s ∨ (s.mainPhase = .waitConn ∧ t.mainPhase = .rxReturn) ∨ Nearer t s := by
  cases he with
  | hold hm hc => exact .inl ⟨rfl, .inr (.inr ⟨hm, hc⟩)⟩
  | connected hm => exact .inr (.inl ⟨hm, rfl⟩)
  | rxReturn hm => exact .inr (.inr (.inl (by simp [hm, phaseRank])))
  | consumed hm => exact .inr (.inr (.inl (by simp [hm, phaseRank])))
  | inTime hm => exact .inr (.inr (.inl (by simp [hm, phaseRank])))
  | notReady hm => exact .inr (.inr (.inl (by simp [hm, phaseRank])))
  | consume hm hl b q hq hc =>
    rcases consume_next hc with ⟨-, rfl⟩ | hf
    · simp [stopReason, raise] at ht
    · refine .inr (.inr (.inr ⟨by rw [hf.eq], .inl ?_⟩))
      rw [hf.eq]
      simp [hq]
  | abandon hm => exact .inr (.inr (.inr ⟨rfl, .inr ⟨rfl, .inl (by simp [stageRank, abandon, hm, hu])⟩⟩))
  | flush hm => exact .inr (.inr (.inr ⟨rfl, .inr ⟨rfl, .inl (by simp [stageRank, hm, hu])⟩⟩))
  | dispatched hm =>
    exact .inr (.inr (.inr ⟨by simp [hm, phaseRank], .inr ⟨rfl, .inl (by simp [stageRank, hm, hu, hp])⟩⟩))

/-- What an instruction does to MAIN's place. -/
theorem exec_place {i : Instr} (h : Inv s) (hp : s.pendingCall = none) (hf : fetch s = some i)
    (ht : stopReason t = none) (he : ExecEffect s i t) : Nearer t s := by
  have hd : (∀ id len code, i ≠ .reject id len code) → s.mainPhase = .consume ∧ stageRank s = 3 := by
    intro hi
    rcases fetch_uops hf with hu | ⟨k, p, rest, hu⟩
    · exfalso
      simp only [fetch, hp, hu, fetchRejected] at hf
      split at hf
      · split at hf
        · cases hf
          exact hi _ _ _ rfl
        · cases hf
      · cases hf
    · obtain ⟨rfl, hm, -⟩ := dispatch_alone h hu
      exact ⟨hm, by simp [stageRank, hm, hu, Uop.isDispatch]⟩
  have hstop := stopReason_eq_none_iff.1 ht
  have key : (∀ id len code, i ≠ .reject id len code) → t.mainPhase = .dispatch → t.hostIn = s.hostIn →
      Nearer t s := by
    intro hi hm hin
    obtain ⟨hm', hs⟩ := hd hi
    refine .inr ⟨by simp [hm, hm', phaseRank], .inr ⟨by rw [hin], .inl ?_⟩⟩
    rw [hs]
    simp only [stageRank, hm]
    split_ifs <;> omega
  cases he with
  | shape | rejectFull => simp [raise] at hstop
  | restart => simp [restartBlock] at hstop
  | status hi err => exact key hi rfl rfl
  | call hi c => exact key hi rfl rfl
  | erase len => exact key (by simp) rfl rfl
  | reject id len code =>
    have hl := (fetch_reject hf).2.2.1
    refine .inr ⟨rfl, .inl ?_⟩
    simp [resync, appended, received]
    omega

/-- What MAIN's step does to its place: it waits, begins a cycle, or comes nearer to the cycle's end. -/
theorem main_place (h : Inv s) (ht : stopReason t = none) (hm : mainStep s = .next t) :
    t = s ∧ Waits s ∨ (s.mainPhase = .waitConn ∧ t.mainPhase = .rxReturn) ∨ Nearer t s := by
  rcases mainStep_next hm with ⟨i, hf, hp, hi⟩ | ⟨hp, rfl⟩ | ⟨v, rest, hp, hu, hu'⟩ | ⟨hp, hu, hph⟩
  · exact .inr (.inr (exec_place h hp hf ht hi))
  · exact .inl ⟨rfl, .inl hp⟩
  · rcases uop_place h hp hu ht hu' with h' | h'
    · exact .inl h'
    · exact .inr (.inr h')
  · exact phase_place hp hu ht hph

/-- What a move of ENV other than a host byte does to MAIN's place. -/
theorem env_place {e : EnvMove} (h : Inv s) (ht : stopReason t = none) (he : EnvEffect s e t)
    (hb : ∀ b, e ≠ .hostByte b) : SamePlace s t ∨ Nearer t s := by
  have hreq : ∀ {r : BusRequest} {v w : State}, RequestEffect v r w → inAggregatedRead s = true →
      v.cfg = s.cfg → v.mainPhase = s.mainPhase → v.uops = s.uops → v.pendingCall = s.pendingCall →
      v.hostIn = s.hostIn → SamePlace s w := by
    intro r v w hq ha h1 h2 h3 h4 h5
    have hw := hq.writes
    have hc : s.pendingCall ≠ none := by
      intro hc
      simp [inAggregatedRead, hc] at ha
    exact ⟨by rw [hw, ← h1], by rw [hw, ← h2], by rw [hw, ← h3], by rw [hw, ← h4], by rw [hw, ← h5],
      fun hn => absurd hn hc⟩
  cases he with
  | txDone hp hh => exact .inl ⟨rfl, rfl, rfl, rfl, rfl, fun _ => Nat.sub_le _ _⟩
  | release r hp hh hq => exact .inl (hreq hq (h.held (by simp [hh])).1 rfl rfl rfl rfl rfl)
  | hostByte b => exact absurd rfl (hb b)
  | setConnected | setWriteReady | setTimeouts | modeSet | dirTransmit | clearCapture =>
    exact .inl ⟨rfl, rfl, rfl, rfl, rfl, fun _ => Nat.le_refl _⟩
  | dirReceive ha hq => exact .inl (hreq hq (executorFree_iff.1 ha).1 rfl rfl rfl rfl rfl)
  | executorWrite ha b hq => exact .inl (hreq hq (executorFree_iff.1 ha).1 rfl rfl rfl rfl rfl)
  | oversize => simp [stopReason, raise] at ht
  | ret r bs hc hp =>
    have hm := (h.callPhase hc).1
    exact .inr (.inr ⟨rfl, .inr ⟨rfl, .inl (by simp [stageRank, hm, hc])⟩⟩)

theorem busRx_place (b : Byte) (s : State) : SamePlace s (busRx b s) := by
  rw [busRx_writes]
  exact ⟨rfl, rfl, rfl, rfl, rfl, fun _ => Nat.le_refl _⟩

/-! ### Runs -/

variable {sched : Nat → Move} {tr : Nat → State} {n m : Nat}

/-- The step of a run from its state `n`. -/
theorem IsRun.step_cases (h : IsRun sched tr) (n : Nat) :
    Running (tr n) ∧
      (sched n = .main ∧ mainStep { tr n with moves := [] } = .next (tr (n + 1))
        ∨ sched n = .tick ∧ tr (n + 1) = tick { tr n with moves := [] }
        ∨ (∃ b, sched n = .busRx b ∧ tr (n + 1) = busRx b { tr n with moves := [] })
        ∨ ∃ e, sched n = .env e ∧ EnvEffect { tr n with moves := [] } e (tr (n + 1))) := by
  obtain ⟨hr, hm⟩ := step_next (h n)
  refine ⟨hr, ?_⟩
  have h1 : nextMove { tr n with moves := [sched n] } = sched n := rfl
  have h2 : takeMove { tr n with moves := [sched n] } = { tr n with moves := [] } := rfl
  rw [h1, h2] at hm
  exact hm

theorem IsRun.not_stopped (h : IsRun sched tr) (n : Nat) : stopReason (tr n) = none := (h.step_cases n).1.1

/-- A step of a run that is no host byte: MAIN keeps its place, begins a cycle, or comes nearer to the end of it. -/
theorem IsRun.place (h : IsRun sched tr) (hi : Inv (tr n)) (hb : ∀ b, sched n ≠ .env (.hostByte b)) :
    SamePlace (tr n) (tr (n + 1)) ∨ ((tr n).mainPhase = .waitConn ∧ (tr (n + 1)).mainPhase = .rxReturn)
      ∨ Nearer (tr (n + 1)) (tr n) := by
  have ht := h.not_stopped (n + 1)
  have hi' : Inv { tr n with moves := [] } := { hi with }
  obtain ⟨hr, ⟨-, hm⟩ | ⟨-, hm⟩ | ⟨b, -, hm⟩ | ⟨e, hs, he⟩⟩ := h.step_cases n
  · rcases main_place hi' ht hm with ⟨he, -⟩ | h' | h'
    · rw [he]
      exact .inl ⟨rfl, rfl, rfl, rfl, rfl, fun _ => Nat.le_refl _⟩
    · exact .inr (.inl h')
    · exact .inr (.inr h')
  · rw [hm]
    exact .inl ⟨rfl, rfl, rfl, rfl, rfl, fun _ => Nat.le_refl _⟩
  · have := busRx_place b { tr n with moves := [] }
    rw [hm]
    exact .inl ⟨this.cfg, this.phase, this.uops, this.call, this.input, this.bus⟩
  · rcases env_place hi' ht he (fun b hb' => hb b (hb' ▸ hs)) with h' | h'
    · exact .inl ⟨h'.cfg, h'.phase, h'.uops, h'.call, h'.input, h'.bus⟩
    · exact .inr (.inr h')

/-- From one state of a run to a later one, with no host byte between: MAIN has kept its place, or it has come
nearer to the end of its cycle, or it has been in `WAIT_CONN`. -/
theorem IsRun.place_until (h : IsRun sched tr) (hi : ∀ n, Inv (tr n))
    (hb : ∀ k, n ≤ k → ∀ b, sched k ≠ .env (.hostByte b)) (hnm : n ≤ m) :
    SamePlace (tr n) (tr m) ∨ ∃ k, n ≤ k ∧ k ≤ m ∧ ((tr k).mainPhase = .waitConn ∨ Nearer (tr k) (tr n)) := by
  induction m, hnm using Nat.le_induction with
  | base => exact .inl (.refl _)
  | succ m hnm ih =>
    rcases ih with hs | ⟨k, hk, hkm, hx⟩
    · rcases h.place (hi m) (hb m hnm) with h' | ⟨h', -⟩ | h'
      · exact .inl (hs.trans h')
      · exact .inr ⟨m, hnm, Nat.le_succ m, .inl h'⟩
      · exact .inr ⟨m + 1, by omega, Nat.le_refl _, .inr (hs.nearer.1 h')⟩
    · exact .inr ⟨k, hk, by omega, hx⟩

/-- MAIN's step where it neither waits nor stands in `WAIT_CONN` brings it nearer to the end of its cycle. -/
theorem IsRun.main_nearer (h : IsRun sched tr) (hi : Inv (tr n)) (hs : sched n = .main) (hw : ¬ Waits (tr n))
    (hp : (tr n).mainPhase ≠ .waitConn) : Nearer (tr (n + 1)) (tr n) := by
  obtain ⟨hr, ⟨-, hm⟩ | ⟨h', -⟩ | ⟨b, h', -⟩ | ⟨e, h', -⟩⟩ := h.step_cases n
  · have hi' : Inv { tr n with moves := [] } := { hi with }
    rcases main_place hi' (h.not_stopped (n + 1)) hm with ⟨-, h'⟩ | ⟨h', -⟩ | h'
    · exact absurd h' hw
    · exact absurd h' hp
    · exact h'
  · exact absurd (hs.symm.trans h') (by simp)
  · exact absurd (hs.symm.trans h') (by simp)
  · exact absurd (hs.symm.trans h') (by simp)

/-- MAIN's step in `WAIT_CONN` with the host connected begins a cycle. -/
theorem IsRun.leaves_waitConn (h : IsRun sched tr) (hi : Inv (tr n)) (hs : sched n = .main)
    (hp : (tr n).mainPhase = .waitConn) (hc : (tr n).hostConnected = true) :
    (tr (n + 1)).mainPhase = .rxReturn := by
  have hu := uops_of_phase hi (.inl hp)
  have hcall : (tr n).pendingCall = none := by
    by_contra hne
    have := (hi.callPhase hne).1
    simp [hp] at this
  obtain ⟨-, ⟨-, hm⟩ | ⟨h', -⟩ | ⟨b, h', -⟩ | ⟨e, h', -⟩⟩ := h.step_cases n
  · simp only [mainStep, fetch, hcall, hu, fetchRejected, hp, mainMicroStep, phaseStep, hc, if_true,
      Host.Outcome.next.injEq] at hm
    rw [← hm]
  · exact absurd (hs.symm.trans h') (by simp)
  · exact absurd (hs.symm.trans h') (by simp)
  · exact absurd (hs.symm.trans h') (by simp)

/-- The step of `tx_done` takes a byte off the transmitter, where no call is outstanding. -/
theorem IsRun.drained (h : IsRun sched tr) (hi : Inv (tr n)) (hs : sched n = .env .txDone)
    (hc : (tr n).pendingCall = none) : (tr (n + 1)).busTxPending + 1 ≤ (tr n).busTxPending := by
  obtain ⟨-, ⟨h', -⟩ | ⟨h', -⟩ | ⟨b, h', -⟩ | ⟨e, h', he⟩⟩ := h.step_cases n
  · exact absurd (hs.symm.trans h') (by simp)
  · exact absurd (hs.symm.trans h') (by simp)
  · exact absurd (hs.symm.trans h') (by simp)
  · cases hs.symm.trans h'
    have hx := executorHold_of_no_call hi hc
    generalize hv : tr (n + 1) = v at he
    cases he with
    | txDone hp hh => simp at hp ⊢; omega
    | release r hp hh => simp [hx] at hh

/-- Under the named premises, with no host byte coming, MAIN comes nearer to the end of its cycle or has been in
`WAIT_CONN`. -/
theorem IsRun.comes_nearer (h : IsRun sched tr) (hi : ∀ n, Inv (tr n)) (hmain : FairMain sched)
    (hdrain : FairDrain sched tr) (hcall : FairCall tr) (hb : ∀ k, n ≤ k → ∀ b, sched k ≠ .env (.hostByte b)) :
    ∃ k, n ≤ k ∧ ((tr k).mainPhase = .waitConn ∨ Nearer (tr k) (tr n)) := by
  by_contra hcon
  have hstay : ∀ {m}, n ≤ m → SamePlace (tr n) (tr m) := by
    intro m hm
    rcases h.place_until hi hb hm with h' | ⟨k, hk, -, h'⟩
    · exact h'
    · exact absurd ⟨k, hk, h'⟩ hcon
  have hnc : (tr n).pendingCall = none := by
    by_contra hne
    obtain ⟨m, hm, h'⟩ := hcall n hne
    exact hne ((hstay hm).call.symm.trans h')
  have hroom : ∃ m, n ≤ m ∧ ∀ k, m ≤ k → ¬ Waits (tr k) := by
    have hnw : ∀ {k}, n ≤ k → (busTxFull (tr k) = false) → ¬ Waits (tr k) := by
      rintro k hk hf (h' | ⟨b, rest, -, h'⟩ | ⟨h', -⟩)
      · exact h' ((hstay hk).call.trans hnc)
      · simp [hf] at h'
      · exact hcon ⟨k, hk, .inl h'⟩
    have hd : 1 ≤ (tr n).cfg.busTxDepth := ((tr n).cfg.wf_iff.1 (configOk_wf (hi n).config)).2.2.2.2.2.2.2.2.2
    have hdrop : ∃ m, n ≤ m ∧ (tr m).busTxPending < (tr n).cfg.busTxDepth := by
      by_cases h0 : (tr n).busTxPending = 0
      · exact ⟨n, Nat.le_refl _, by omega⟩
      · obtain ⟨m, hm, hs⟩ := hdrain n (by omega)
        have h1 := h.drained (hi m) hs ((hstay hm).call.trans hnc)
        have h2 := (hstay hm).bus hnc
        have h3 := (hi n).busTx
        exact ⟨m + 1, by omega, by omega⟩
    obtain ⟨m, hm, hlt⟩ := hdrop
    refine ⟨m, hm, fun k hk => hnw (by omega) ?_⟩
    rcases h.place_until hi (fun j hj => hb j (by omega)) hk with h' | ⟨j, hj, -, h'⟩
    · have h1 := h'.bus ((hstay hm).call.trans hnc)
      have h2 := (hstay (Nat.le_trans hm hk)).cfg
      simp only [busTxFull, decide_eq_false_iff_not, h2]
      omega
    · rcases h' with h' | h'
      · exact absurd ⟨j, by omega, .inl h'⟩ hcon
      · exact absurd ⟨j, by omega, .inr ((hstay hm).nearer.1 h')⟩ hcon
  obtain ⟨m, hm, hnw⟩ := hroom
  obtain ⟨k, hk, hs⟩ := hmain m
  have hne : (tr k).mainPhase ≠ .waitConn := fun h' => hcon ⟨k, by omega, .inl h'⟩
  have := h.main_nearer (hi k) hs (hnw k hk) hne
  exact hcon ⟨k + 1, by omega, .inr ((hstay (by omega : n ≤ k)).nearer.1 this)⟩

/-- Under the named premises, with no host byte coming, MAIN comes back to `WAIT_CONN`. -/
theorem IsRun.reaches_waitConn (h : IsRun sched tr) (hi : ∀ n, Inv (tr n)) (hmain : FairMain sched)
    (hdrain : FairDrain sched tr) (hcall : FairCall tr) (hb : ∀ k, n ≤ k → ∀ b, sched k ≠ .env (.hostByte b)) :
    ∃ m, n ≤ m ∧ (tr m).mainPhase = .waitConn := by
  generalize hs : tr n = s
  induction s using nearer_wf.induction generalizing n with
  | _ s ih =>
    subst hs
    obtain ⟨k, hk, h' | h'⟩ := h.comes_nearer hi hmain hdrain hcall hb
    · exact ⟨k, hk, h'⟩
    · obtain ⟨m, hm, h''⟩ := ih (tr k) h' (fun j hj => hb j (by omega)) rfl
      exact ⟨m, by omega, h''⟩

/-- Under the named premises, with no host byte coming, MAIN completes a cycle. -/
theorem IsRun.completes_cycle (h : IsRun sched tr) (hi : ∀ n, Inv (tr n)) (hmain : FairMain sched)
    (hdrain : FairDrain sched tr) (hcall : FairCall tr) (hconn : FairConn tr)
    (hb : ∀ k, n ≤ k → ∀ b, sched k ≠ .env (.hostByte b)) : ∃ k, CycleDone tr n k := by
  obtain ⟨m, hm, hc⟩ := hconn n
  by_contra hcon
  have hconn' : ∀ k, m ≤ k → (tr k).hostConnected = true := by
    refine fun k hk => hc k hk fun ⟨i, j, h1, h2⟩ => hcon ⟨k, i, j, by omega, h2⟩
  obtain ⟨i, hi0, hi1⟩ := h.reaches_waitConn hi hmain hdrain hcall (n := m) (fun j hj => hb j (by omega))
  have hleave : ∃ i', i ≤ i' ∧ (tr i').mainPhase = .waitConn ∧ (tr (i' + 1)).mainPhase = .rxReturn := by
    by_contra hno
    have hstay : ∀ k, i ≤ k → (tr k).mainPhase = .waitConn := by
      intro k hk
      induction k, hk using Nat.le_induction with
      | base => exact hi1
      | succ k hk ih =>
        rcases h.place (hi k) (hb k (by omega)) with h' | h' | h'
        · exact h'.phase.trans ih
        · exact absurd ⟨k, hk, h'⟩ hno
        · exact h'.waitConn ih
    obtain ⟨k, hk, hs⟩ := hmain i
    exact hno ⟨k, hk, hstay k hk, h.leaves_waitConn (hi k) hs (hstay k hk) (hconn' k (by omega))⟩
  obtain ⟨i', h1, h2, h3⟩ := hleave
  obtain ⟨j, h4, h5⟩ := h.reaches_waitConn hi hmain hdrain hcall (n := i' + 1) (fun j hj => hb j (by omega))
  exact hcon ⟨j, i', j, by omega, by omega, Nat.le_refl _, h2, h3, h5⟩

/-! ### The configuration and the timers of a run -/

theorem execEffect_cfg {i : Instr} (he : ExecEffect s i t) : t.cfg = s.cfg := by
  cases he <;> rfl

theorem uopEffect_cfg {v : Uop} {rest : List Uop} (he : UopEffect s rest v t) : t.cfg = s.cfg := by
  cases he with
  | tryFlush => rw [tryFlush_writes]
  | _ => rfl

theorem phaseEffect_cfg (he : PhaseEffect s t) : t.cfg = s.cfg := by
  cases he with
  | rxReturn => rcases returnToReceive_cases s with h | ⟨-, -, h⟩ <;> rw [h]
  | consume hp hl b q hq hc =>
    rcases consume_next hc with ⟨-, rfl⟩ | hf
    · rfl
    · rw [hf.eq]
  | _ => rfl

theorem mainStep_cfg (hm : mainStep s = .next t) : t.cfg = s.cfg := by
  rcases mainStep_next hm with ⟨i, -, -, hi⟩ | ⟨-, rfl⟩ | ⟨v, rest, -, -, hu⟩ | ⟨-, -, hp⟩
  · exact execEffect_cfg hi
  · rfl
  · exact uopEffect_cfg hu
  · exact phaseEffect_cfg hp

theorem envEffect_cfg {e : EnvMove} (he : EnvEffect s e t) : t.cfg = s.cfg := by
  cases he with
  | release r hp hh hq => rw [hq.writes]
  | dirReceive ha hq => rw [hq.writes]
  | executorWrite ha b hq => rw [hq.writes]
  | _ => rfl

/-- No step writes the configuration. -/
theorem IsRun.cfg_eq (h : IsRun sched tr) (n : Nat) : (tr n).cfg = (tr 0).cfg := by
  induction n with
  | zero => rfl
  | succ n ih =>
    rw [← ih]
    obtain ⟨-, ⟨-, hm⟩ | ⟨-, hm⟩ | ⟨b, -, hm⟩ | ⟨e, -, he⟩⟩ := h.step_cases n
    · exact (mainStep_cfg hm).trans rfl
    · rw [hm]
      rfl
    · rw [hm, busRx_writes]
    · exact (envEffect_cfg he).trans rfl

theorem countTimer_le {c : Config} {k : Nat} (hs : c.timerOvf = .saturate) (hk : k < 2 ^ c.timerWidth) :
    k ≤ countTimer c k := by
  simp only [countTimer, hs]
  omega

/-- A value that never falls from `n` on and rises at each tick until its top comes to its top. -/
theorem timer_reaches_top {f : Nat → Nat} {top : Nat} (htick : FairTick sched)
    (hmono : ∀ k, n ≤ k → f k ≤ f (k + 1)) (hrise : ∀ k, n ≤ k → sched k = .tick → min (f k + 1) top ≤ f (k + 1)) :
    ∃ m, n ≤ m ∧ ∀ k, m ≤ k → top ≤ f k := by
  have hmono' : ∀ {i j}, n ≤ i → i ≤ j → f i ≤ f j := by
    intro i j hi hij
    induction j, hij using Nat.le_induction with
    | base => exact Nat.le_refl _
    | succ j hij ih => exact Nat.le_trans ih (hmono j (by omega))
  have key : ∀ d, ∃ m, n ≤ m ∧ min d top ≤ f m := by
    intro d
    induction d with
    | zero => exact ⟨n, Nat.le_refl _, by omega⟩
    | succ d ih =>
      obtain ⟨m, hm, h1⟩ := ih
      obtain ⟨k, hk, hs⟩ := htick m
      have h2 := hrise k (by omega) hs
      have h3 := hmono' hm hk
      exact ⟨k + 1, by omega, by omega⟩
  obtain ⟨m, hm, h1⟩ := key top
  exact ⟨m, hm, fun k hk => Nat.le_trans (by omega) (hmono' hm hk)⟩

/-! ### A step that consumes no host byte -/

/-- The classifier is idle, or MAIN has yet to make the timeout check of its cycle. -/
def IdleOrUnchecked (s : State) : Prop :=
  s.cstate = .seekSync1 ∨ s.mainPhase = .rxReturn ∨ s.mainPhase = .consume ∨ s.mainPhase = .dispatch
    ∨ s.mainPhase = .timeout ∧ s.uops = []

/-- What a step that consumes no host byte does to the classifier. -/
structure Unfed (s t : State) : Prop where
  input : t.hostIn = s.hostIn
  idle : s.cstate = .seekSync1 → t.cstate = .seekSync1
  check : s.receiveTimeout < s.rxTimer → IdleOrUnchecked s → IdleOrUnchecked t

theorem Unfed.of_same (hin : t.hostIn = s.hostIn) (hc : t.cstate = s.cstate) (hp : t.mainPhase = s.mainPhase)
    (hu : t.uops = s.uops) : Unfed s t where
  input := hin
  idle := hc.trans
  check := fun _ h => by simpa only [IdleOrUnchecked, hc, hp, hu] using h

/-- What MAIN's step does to the classifier: it consumes a byte, or leaves it unfed. -/
theorem main_unfed (h : Inv s) (ht : stopReason t = none) (hm : mainStep s = .next t) :
    t.hostIn.length < s.hostIn.length ∨ t.rxTimer = s.rxTimer ∧ Unfed s t := by
  have hstop := stopReason_eq_none_iff.1 ht
  rcases mainStep_next hm with ⟨i, hf, hp, hi⟩ | ⟨hp, rfl⟩ | ⟨v, rest, hp, hu, hv⟩ | ⟨hp, hu, hph⟩
  · cases hi with
    | shape | rejectFull => simp [raise] at hstop
    | restart => simp [restartBlock] at hstop
    | status | call | erase => exact .inr ⟨rfl, rfl, id, fun _ _ => .inr (.inr (.inr (.inl rfl)))⟩
    | reject id len code =>
      have := (fetch_reject hf).2.2.1
      left
      simp [resync, appended, received]
      omega
  · exact .inr ⟨rfl, .of_same rfl rfl rfl rfl⟩
  · have hw := h.work
    rw [hu] at hw
    have hsame : t.rxTimer = s.rxTimer → t.hostIn = s.hostIn → t.cstate = s.cstate → t.mainPhase = s.mainPhase →
        t.hostIn.length < s.hostIn.length ∨ t.rxTimer = s.rxTimer ∧ Unfed s t := by
      refine fun h0 h1 h2 h3 => .inr ⟨h0, h1, h2.trans, fun _ hq => ?_⟩
      simp only [IdleOrUnchecked, hu, h2, h3, List.cons_ne_nil, and_false, or_false] at hq ⊢
      tauto
    cases hv with
    | overflow => simp [raise] at hstop
    | restart => simp [restartBlock] at hstop
    | tryFlush =>
      have hm : s.mainPhase = .flush := by
        have := (workOk_last hw (by cases s.mainPhase <;> rfl)).2
        cases hm : s.mainPhase <;> simp_all [mayEnd]
      rw [tryFlush_writes]
      refine .inr ⟨rfl, rfl, id, fun _ hq => .inl ?_⟩
      simpa [IdleOrUnchecked, hm] using hq
    | enterPhase p =>
      have hl := (workOk_last hw (by cases s.mainPhase <;> rfl)).2
      refine .inr ⟨rfl, rfl, id, fun _ hq => ?_⟩
      cases hm : s.mainPhase <;> rw [hm] at hl <;> cases p <;> simp [mayEnd] at hl <;>
        simp_all [IdleOrUnchecked]
    | _ => exact hsame rfl rfl rfl rfl
  · cases hph with
    | hold => exact .inr ⟨rfl, .of_same rfl rfl rfl rfl⟩
    | connected => exact .inr ⟨rfl, rfl, id, fun _ _ => .inr (.inl rfl)⟩
    | rxReturn =>
      rcases returnToReceive_cases s with h' | ⟨-, -, h'⟩ <;> rw [h'] <;>
        exact .inr ⟨rfl, rfl, id, fun _ _ => .inr (.inr (.inl rfl))⟩
    | consumed => exact .inr ⟨rfl, rfl, id, fun _ _ => .inr (.inr (.inr (.inr ⟨rfl, hu⟩)))⟩
    | consume hm hl b q hq hc =>
      rcases consume_next hc with ⟨-, rfl⟩ | hf
      · simp [raise] at hstop
      · left
        rw [hf.eq]
        simp [hq]
    | abandon => exact .inr ⟨rfl, rfl, fun _ => rfl, fun _ _ => .inl rfl⟩
    | inTime hm hto =>
      refine .inr ⟨rfl, rfl, id, fun hlt _ => .inl ?_⟩
      simpa [rxTimedOut, hlt] using hto
    | flush hf => exact .inr ⟨rfl, rfl, id, fun _ hq => .inl (by simpa [IdleOrUnchecked, hf] using hq)⟩
    | notReady hf => exact .inr ⟨rfl, rfl, id, fun _ hq => .inl (by simpa [IdleOrUnchecked, hf] using hq)⟩
    | dispatched => exact .inr ⟨rfl, rfl, id, fun _ _ => .inr (.inr (.inl rfl))⟩

/-- What a move of ENV other than a host byte does to the classifier. -/
theorem env_unfed {e : EnvMove} (h : Inv s) (ht : stopReason t = none) (he : EnvEffect s e t)
    (hb : ∀ b, e ≠ .hostByte b) : t.rxTimer = s.rxTimer ∧ Unfed s t := by
  cases he with
  | release r hp hh hq =>
    rw [hq.writes]
    exact ⟨rfl, .of_same rfl rfl rfl rfl⟩
  | dirReceive ha hq =>
    rw [hq.writes]
    exact ⟨rfl, .of_same rfl rfl rfl rfl⟩
  | executorWrite ha b hq =>
    rw [hq.writes]
    exact ⟨rfl, .of_same rfl rfl rfl rfl⟩
  | hostByte b => exact absurd rfl (hb b)
  | oversize => simp [stopReason, raise] at ht
  | ret r bs hc hp => exact ⟨rfl, rfl, id, fun _ _ => .inr (.inr (.inr (.inl (h.callPhase hc).1)))⟩
  | _ => exact ⟨rfl, .of_same rfl rfl rfl rfl⟩

/-- A step of a run that is no host byte: it consumes a byte, or the classifier is unfed, and then `rx_timer` counts
up at a tick and is left alone otherwise. -/
theorem IsRun.unfed (h : IsRun sched tr) (hi : Inv (tr n)) (hb : ∀ b, sched n ≠ .env (.hostByte b)) :
    (tr (n + 1)).hostIn.length < (tr n).hostIn.length ∨
      Unfed (tr n) (tr (n + 1)) ∧
        (tr (n + 1)).rxTimer = if sched n = .tick then countTimer (tr n).cfg (tr n).rxTimer else (tr n).rxTimer := by
  have hi' : Inv { tr n with moves := [] } := { hi with }
  have ht := h.not_stopped (n + 1)
  obtain ⟨-, ⟨hs, hm⟩ | ⟨hs, hm⟩ | ⟨b, hs, hm⟩ | ⟨e, hs, he⟩⟩ := h.step_cases n
  · rcases main_unfed hi' ht hm with h' | ⟨h0, h'⟩
    · exact .inl h'
    · exact .inr ⟨⟨h'.input, h'.idle, h'.check⟩, by simpa [hs] using h0⟩
  · rw [hm]
    exact .inr ⟨.of_same rfl rfl rfl rfl, by simp [hs, tick]⟩
  · rw [hm, busRx_writes]
    exact .inr ⟨.of_same rfl rfl rfl rfl, by simp [hs]⟩
  · obtain ⟨h0, h'⟩ := env_unfed hi' ht he (fun b hb' => hb b (hb' ▸ hs))
    exact .inr ⟨⟨h'.input, h'.idle, h'.check⟩, by simpa [hs] using h0⟩

/-- A measure that never rises is constant in the end. -/
theorem constant_in_the_end {f : Nat → Nat} (hf : ∀ k, n ≤ k → f (k + 1) ≤ f k) :
    ∃ m, n ≤ m ∧ ∀ k, m ≤ k → f (k + 1) = f k := by
  generalize hv : f n = v
  induction v using Nat.strong_induction_on generalizing n with
  | _ v ih =>
    by_cases hc : ∀ k, n ≤ k → f (k + 1) = f k
    · exact ⟨n, Nat.le_refl _, hc⟩
    · simp only [not_forall] at hc
      obtain ⟨k, hk, hne⟩ := hc
      have hle : f k ≤ f n := by
        clear hne
        induction k, hk using Nat.le_induction with
        | base => exact Nat.le_refl _
        | succ k hk ih' => exact Nat.le_trans (hf k hk) ih'
      have := hf k hk
      obtain ⟨m, hm, h'⟩ := ih (f (k + 1)) (by omega) (n := k + 1) (fun j hj => hf j (by omega)) rfl
      exact ⟨m, by omega, h'⟩

/-! ### A short queue on its way out -/

/-- The bytes `q` stand in the queue, nothing of them is written, and no flush has been chosen
(41_egress.md R164). -/
structure Waiting (q : List Byte) (H : List (List Byte)) (s : State) : Prop where
  egress : s.egress = q
  hostOut : s.hostOut = H
  hostFrame : s.hostFrame = []
  flush : s.mainPhase = .flush → s.uops = [] ∨ s.uops = [.tryFlush]

/-- The partial flush of the bytes `q` runs: those written stand before those still queued (41_egress.md R167). -/
structure Leaving (q : List Byte) (H : List (List Byte)) (s : State) : Prop where
  phase : s.mainPhase = .flush
  uops : s.uops = List.replicate s.egress.length .flushByte ++ [.hostCommit, .resetSendTimer, .enterPhase .waitConn]
  bytes : s.hostFrame ++ s.egress = q
  hostOut : s.hostOut = H

/-- The bytes `q` have been sent as one host frame after the frames `H`. -/
def Sent (q : List Byte) (H : List (List Byte)) (s : State) : Prop := s.egress = [] ∧ s.hostOut = H ++ [q]

/-- MAIN's step leaves the bytes waiting: in `tryFlush` it does so only before the send timer has passed its
threshold (41_egress.md R165). -/
structure WaitsOn (q : List Byte) (H : List (List Byte)) (s t : State) : Prop where
  waiting : Waiting q H t
  timer : t.sendTimer = s.sendTimer
  early : s.mainPhase = .flush → s.uops = [.tryFlush] → s.sendTimer ≤ s.sendTimeout

/-- What a step leaves as it is that touches neither the queue nor the flush. -/
structure OutSame (s t : State) : Prop where
  egress : t.egress = s.egress
  hostOut : t.hostOut = s.hostOut
  hostFrame : t.hostFrame = s.hostFrame
  timer : t.sendTimer = s.sendTimer

/-- A queued byte shows in the host stream. -/
theorem hostStream_push {b : Byte} (he : t.egress = s.egress ++ [b]) (hf : t.hostFrame = s.hostFrame)
    (ho : t.hostOut = s.hostOut) : hostStream t ≠ hostStream s := by
  intro h
  have := congrArg List.length h
  simp [hostStream, he, hf, ho] at this

/-- Outside a flush there is none of its micro-operations, so an untouched queue waits on. -/
theorem OutSame.waitsOn {q : List Byte} {H : List (List Byte)} (h : OutSame s t) (hw : Waiting q H s)
    (ht : t.mainPhase = .flush → t.uops = [] ∨ t.uops = [.tryFlush])
    (hs : s.mainPhase ≠ .flush ∨ s.uops ≠ [.tryFlush]) : WaitsOn q H s t where
  waiting := ⟨h.egress.trans hw.egress, h.hostOut.trans hw.hostOut, h.hostFrame.trans hw.hostFrame, ht⟩
  timer := h.timer
  early := fun h1 h2 => absurd h2 (hs.resolve_left (not_not_intro h1))

/-- `tryFlush` on waiting bytes: they wait on before the threshold, and are chosen for a partial flush after it. -/
theorem tryFlush_waiting {q : List Byte} {H : List (List Byte)} (hq : q ≠ []) (hlen : q.length < s.cfg.egressFrame)
    (hw : Waiting q H s) (hm : s.mainPhase = .flush) :
    WaitsOn q H s (tryFlush { s with uops := [] }) ∨ Leaving q H (tryFlush { s with uops := [] }) := by
  have h1 : ¬ s.cfg.egressFrame ≤ s.egress.length := by
    rw [hw.egress]
    omega
  have h2 : s.egress ≠ [] := hw.egress ▸ hq
  by_cases hto : s.sendTimeout < s.sendTimer
  · right
    have he : tryFlush { s with uops := [] } = { s with uops := flushPartialUops s.egress.length } := by
      simp [tryFlush, h1, sendTimedOut, hto, h2]
    rw [he]
    exact ⟨hm, rfl, by simp [hw.egress, hw.hostFrame], hw.hostOut⟩
  · left
    have he : tryFlush { s with uops := [] } = { s with uops := [], mainPhase := .waitConn } := by
      simp [tryFlush, h1, sendTimedOut, hto, h2]
    rw [he]
    exact ⟨⟨hw.egress, hw.hostOut, hw.hostFrame, by simp⟩, rfl, fun _ _ => Nat.not_lt.1 hto⟩

/-- MAIN's step while the bytes wait and none is queued: they wait on, or their partial flush begins. -/
theorem main_waiting {q : List Byte} {H : List (List Byte)} (hq : q ≠ []) (h : Inv s)
    (hlen : q.length < s.cfg.egressFrame) (hw : Waiting q H s) (ht : stopReason t = none)
    (hst : hostStream t = hostStream s) (hm : mainStep s = .next t) : WaitsOn q H s t ∨ Leaving q H t := by
  have hstop := stopReason_eq_none_iff.1 ht
  rcases mainStep_next hm with ⟨i, hf, hp, hi⟩ | ⟨hp, rfl⟩ | ⟨v, rest, hp, hu, hv⟩ | ⟨hp, hu, hph⟩
  · have hc : s.mainPhase = .consume := by
      rcases fetch_uops hf with hu | ⟨k, p, rest, hu⟩
      · simp only [fetch, hp, hu, fetchRejected] at hf
        split at hf
        · assumption
        · cases hf
      · exact (dispatch_alone h hu).2.1
    have ho : OutSame s t ∧ t.mainPhase ≠ .flush := by
      cases hi <;> refine ⟨⟨rfl, rfl, rfl, rfl⟩, ?_⟩ <;>
        simp [raise, beginDispatch, issueCall, restartBlock, resync, appended, received, hc]
    exact .inl (ho.1.waitsOn hw (fun h6 => absurd h6 ho.2) (.inl (by simp [hc])))
  · have hd := (h.callPhase hp).1
    exact .inl (OutSame.waitsOn ⟨rfl, rfl, rfl, rfl⟩ hw hw.flush (.inl (by simp [hd])))
  · have hwk := h.work
    rw [hu] at hwk
    by_cases hfl : s.mainPhase = .flush
    · have hu' := hw.flush hfl
      rw [hu] at hu'
      obtain ⟨rfl, rfl⟩ : v = .tryFlush ∧ rest = [] := by simpa using hu'
      cases hv
      exact tryFlush_waiting hq hlen hw hfl
    · have key : OutSame s t → t.mainPhase = s.mainPhase → WaitsOn q H s t ∨ Leaving q H t := fun ho hp' =>
        .inl (ho.waitsOn hw (fun h6 => absurd (hp'.symm.trans h6) hfl) (.inl hfl))
      cases hv with
      | overflow => simp [raise] at hstop
      | restart => simp [restartBlock] at hstop
      | enqueue b => exact absurd hst (hostStream_push (b := b) rfl rfl rfl)
      | hold | busWrite | reject | countInput => exact key ⟨rfl, rfl, rfl, rfl⟩ rfl
      | enterPhase p =>
        have hr := (workOk_last hwk (by cases s.mainPhase <;> rfl)).1
        exact .inl (OutSame.waitsOn ⟨rfl, rfl, rfl, rfl⟩ hw (fun _ => .inl hr) (.inl hfl))
      | _ =>
        exfalso
        cases rest with
        | nil => cases hph : s.mainPhase <;> simp [hph, workOk, mayEnd] at hwk hfl
        | cons w ws => cases hph : s.mainPhase <;> simp [hph, workOk, mayPrecede] at hwk hfl
  · have hs : s.mainPhase ≠ .flush ∨ s.uops ≠ [.tryFlush] := .inr (by simp [hu])
    have key : OutSame s t → (t.mainPhase = .flush → t.uops = [] ∨ t.uops = [.tryFlush]) →
        WaitsOn q H s t ∨ Leaving q H t := fun ho ht' => .inl (ho.waitsOn hw ht' hs)
    cases hph with
    | hold | connected | consumed | inTime | notReady | dispatched =>
      exact key ⟨rfl, rfl, rfl, rfl⟩ (fun _ => .inl hu)
    | rxReturn =>
      refine key ?_ (by simp)
      rcases returnToReceive_cases s with h' | ⟨-, -, h'⟩ <;> rw [h'] <;> exact ⟨rfl, rfl, rfl, rfl⟩
    | consume hc hl b r hr hcs =>
      rcases consume_next hcs with ⟨-, rfl⟩ | hf
      · simp [raise] at hstop
      · refine key ?_ (fun h6 => ?_)
        · rw [hf.eq]
          exact ⟨rfl, rfl, rfl, rfl⟩
        · rw [hf.eq] at h6
          exact absurd h6 (by simp [hc])
    | abandon ha => exact key ⟨rfl, rfl, rfl, rfl⟩ (fun h6 => absurd h6 (by simp [abandon, ha]))
    | flush => exact key ⟨rfl, rfl, rfl, rfl⟩ (fun _ => .inr rfl)

/-- MAIN's step during the partial flush brings it nearer to its commit, which sends the bytes. -/
theorem main_leaving {q : List Byte} {H : List (List Byte)} (h : Inv s) (hw : Leaving q H s)
    (hm : mainStep s = .next t) : (Leaving q H t ∧ t.uops.length < s.uops.length) ∨ Sent q H t := by
  have hp : s.pendingCall = none := by
    by_contra hne
    have := (h.callPhase hne).1
    simp [hw.phase] at this
  cases he : s.egress with
  | nil =>
    have hu := hw.uops
    simp [he] at hu
    simp [mainStep, fetch, hp, hu, mainMicroStep, performUop, hostCommit] at hm
    subst hm
    exact .inr ⟨he, by simp [hw.hostOut, ← hw.bytes, he]⟩
  | cons b r =>
    have hu := hw.uops
    simp [he, List.replicate_succ] at hu
    simp [mainStep, fetch, hp, hu, mainMicroStep, performUop, flushOne, he] at hm
    subst hm
    exact .inl ⟨⟨hw.phase, rfl, by simp [← hw.bytes, he], hw.hostOut⟩, by simp [hu]⟩

/-- No move of ENV touches the way out to the host, nor MAIN's flush. -/
theorem env_out {e : EnvMove} (h : Inv s) (he : EnvEffect s e t) :
    OutSame s t ∧ t.mainPhase = s.mainPhase ∧ (s.mainPhase = .flush → t.uops = s.uops) := by
  cases he with
  | release r hp hh hq =>
    rw [hq.writes]
    exact ⟨⟨rfl, rfl, rfl, rfl⟩, rfl, fun _ => rfl⟩
  | dirReceive ha hq =>
    rw [hq.writes]
    exact ⟨⟨rfl, rfl, rfl, rfl⟩, rfl, fun _ => rfl⟩
  | executorWrite ha b hq =>
    rw [hq.writes]
    exact ⟨⟨rfl, rfl, rfl, rfl⟩, rfl, fun _ => rfl⟩
  | ret r bs hc hp => exact ⟨⟨rfl, rfl, rfl, rfl⟩, rfl, fun hf => absurd hf (by simp [(h.callPhase hc).1])⟩
  | _ => exact ⟨⟨rfl, rfl, rfl, rfl⟩, rfl, fun _ => rfl⟩

/-- BUSRX, where it queues nothing and raises nothing, leaves the way out to the host alone. -/
theorem busRx_out (b : Byte) (ht : stopReason (busRx b s) = none) (hst : hostStream (busRx b s) = hostStream s) :
    OutSame s (busRx b s) := by
  have hstop := stopReason_eq_none_iff.1 ht
  rcases busRx_cases b s with ⟨-, h'⟩ | ⟨-, -, h'⟩ | ⟨-, -, -, h'⟩ | ⟨-, -, -, h'⟩
  · rw [h']
    exact ⟨rfl, rfl, rfl, rfl⟩
  · rw [h'] at hst hstop
    rcases enqueue_cases b s with ⟨-, h2⟩ | ⟨-, h2⟩ <;> rw [h2] at hst hstop
    · simp [raise] at hstop
    · exact absurd hst (hostStream_push (b := b) rfl rfl rfl)
  · rw [h']
    exact ⟨rfl, rfl, rfl, rfl⟩
  · rw [h']
    exact ⟨rfl, rfl, rfl, rfl⟩

/-- A step of a run that is not MAIN's and queues nothing: the queue, the frame being written, MAIN's phase and its
flush stay, and `send_timer` counts up at a tick and is left alone otherwise. -/
theorem IsRun.out_of_ne_main (h : IsRun sched tr) (hi : Inv (tr n)) (hs : sched n ≠ .main)
    (hst : hostStream (tr (n + 1)) = hostStream (tr n)) :
    (tr (n + 1)).egress = (tr n).egress ∧ (tr (n + 1)).hostOut = (tr n).hostOut
      ∧ (tr (n + 1)).hostFrame = (tr n).hostFrame ∧ (tr (n + 1)).mainPhase = (tr n).mainPhase
      ∧ ((tr n).mainPhase = .flush → (tr (n + 1)).uops = (tr n).uops)
      ∧ (tr (n + 1)).sendTimer = if sched n = .tick then countTimer (tr n).cfg (tr n).sendTimer else (tr n).sendTimer := by
  obtain ⟨-, ⟨hs', -⟩ | ⟨hs', hm⟩ | ⟨b, hs', hm⟩ | ⟨e, hs', he⟩⟩ := h.step_cases n
  · exact absurd hs' hs
  · rw [hm]
    exact ⟨rfl, rfl, rfl, rfl, fun _ => rfl, by simp [hs', tick]⟩
  · have ho := busRx_out (s := { tr n with moves := [] }) b (hm ▸ h.not_stopped (n + 1)) (by rw [← hm]; exact hst)
    have hp := busRx_place b { tr n with moves := [] }
    rw [hm]
    exact ⟨ho.egress, ho.hostOut, ho.hostFrame, hp.phase, fun _ => hp.uops, by simpa [hs'] using ho.timer⟩
  · obtain ⟨ho, hp, hu⟩ := env_out (s := { tr n with moves := [] }) { hi with } he
    exact ⟨ho.egress, ho.hostOut, ho.hostFrame, hp, hu, by simpa [hs'] using ho.timer⟩

end Sys2Proof.Machine
end

