-- ==== Sys2Proof/Laws/PerInstr.lean ====
section
/-! SUPPORT. The family `EncodeFrame`: what the encoding of each instruction looks like. -/

namespace Sys2Proof.Laws.EncodeFrame

open Sys2Proof

/-- How many bytes the block reads for an instruction: two sync bytes, id, length and instruction, then the
parameters and the checksum (30_encoding.md R82; the confirm states: 40_classifier.md R121); the reject row ends
with its instruction byte (R122). -/
def size : Instr → Nat
  | .ping _ => 6
  | .reset _ => 6
  | .bootload _ => 6
  | .read _ params => params.length + 6
  | .write _ params => params.length + 6
  | .aggRead _ params => params.length + 6
  | .reject _ _ _ => 5

/-- The frame starts with two sync bytes and has the instruction's size. -/
def Statement (i : Instr) : Prop :=
  ∀ c : Config, (encode c i).take 2 = [syncByte, syncByte] ∧ (encode c i).length = size i

theorem ping (len : Byte) : Statement (.ping len) := fun _ => ⟨rfl, frameBytes_length _ _ _ _⟩

theorem read (target : Target) (params : List Byte) : Statement (.read target params) :=
  fun _ => ⟨rfl, frameBytes_length _ _ _ _⟩

theorem write (target : Target) (params : List Byte) : Statement (.write target params) :=
  fun _ => ⟨rfl, frameBytes_length _ _ _ _⟩

theorem reset (len : Byte) : Statement (.reset len) := fun _ => ⟨rfl, frameBytes_length _ _ _ _⟩

theorem bootload (len : Byte) : Statement (.bootload len) := fun _ => ⟨rfl, frameBytes_length _ _ _ _⟩

theorem aggRead (target : Target) (params : List Byte) : Statement (.aggRead target params) :=
  fun _ => ⟨rfl, frameBytes_length _ _ _ _⟩

theorem reject (id len code : Byte) : Statement (.reject id len code) := fun _ => ⟨rfl, rfl⟩

end Sys2Proof.Laws.EncodeFrame
end

