-- ==== Sys2Proof/Laws/Runs.lean ====
section
/-! SUPPORT. Runs of several steps whose moves are fixed: bytes queued one a step, a flush, ticks, and the
consumption of one host byte. -/

namespace Sys2Proof.Machine

open Sys2Proof

variable {s t : State}

theorem mains_succ (n : Nat) : mains (n + 1) = .main :: mains n := rfl

theorem mains_add (m n : Nat) : mains (m + n) = mains m ++ mains n := by
  simp [mains, List.replicate_append_replicate]

/-- MAIN's step on a counted host byte in the CONSUME phase is the classifier's transition on it. -/
theorem mainStep_consume {b : Byte} {q : List Byte} (hp : s.pendingCall = none) (hu : s.uops = [])
    (hph : s.mainPhase = .consume) (hl : 1 ≤ s.consumeLeft) (hin : s.hostIn = b :: q) : mainStep s = consume b s := by
  have h0 : s.consumeLeft ≠ 0 := by omega
  unfold mainStep
  cases hf : fetch s with
  | none => simp [mainMicroStep, hp, hu, phaseStep, hph, hin, h0]
  | some i =>
    simp only [fetch, hp, hu, fetchRejected, hph, hin] at hf
    split at hf
    · rename_i heq1 heq2 heq3 heq4 heq5 heq6
      split at hf
      · cases hf
        cases heq4
        simp [exec, execReject, consume, consumeReadInstr, *]
      · cases hf
    · cases hf

/-- One consumed byte of a run whose next move is MAIN's. -/
theorem runSteps_consume {b : Byte} {q : List Byte} {ms : List Move} (n : Nat) (hr : Running s)
    (hp : s.pendingCall = none) (hu : s.uops = []) (hph : s.mainPhase = .consume) (hl : 1 ≤ s.consumeLeft)
    (hin : s.hostIn = b :: q) (hm : s.moves = .main :: ms)
    (hc : consume b { s with moves := ms } = .next t) : runSteps (n + 1) s = runSteps n t := by
  refine runSteps_cons n hr hm ?_
  exact (mainStep_consume (s := { s with moves := ms }) hp hu hph hl hin).trans hc

/-- Bytes that MAIN queues for the host, one a move, with room for all of them (41_egress.md R161). -/
theorem runSteps_enqueues (bs : List Byte) : ∀ {s : State} (rest : List Uop) (ms : List Move),
    Running s → s.pendingCall = none → s.uops = bs.map .enqueue ++ rest →
    s.egress.length + bs.length ≤ s.cfg.egressCap → s.moves = mains bs.length ++ ms →
    runSteps bs.length s = .next { s with
      moves := ms, uops := rest, egress := s.egress ++ bs
      sendTimer := if bs = [] then s.sendTimer else 0 } := by
  induction bs with
  | nil =>
    intro s rest ms hr hp hu hc hm
    simp [mains] at hm hu
    subst hu; subst hm
    simp [runSteps]
  | cons b bs ih =>
    intro s rest ms hr hp hu hc hm
    have hm' : s.moves = .main :: (mains bs.length ++ ms) := by simpa [mains, List.replicate_succ] using hm
    simp only [List.length_cons] at hc
    let u : State := { s with
      moves := mains bs.length ++ ms, uops := bs.map .enqueue ++ rest, egress := s.egress ++ [b], sendTimer := 0 }
    refine (runSteps_cons (t := u) _ hr hm' ?_).trans ?_
    · have hlt : ¬ s.cfg.egressCap ≤ s.egress.length := by omega
      simp [u, runMove, mainStep, fetch, hp, hu, mainMicroStep, performUop, egressFull, hlt, pushEgress]
    · refine (ih (s := u) rest ms hr hp rfl ?_ rfl).trans (by simp [u])
      simp only [u, List.length_append, List.length_singleton]
      omega

/-- Bytes that a flush takes from the queue, one a move (41_egress.md R166, R167). -/
theorem runSteps_flushBytes (bs : List Byte) : ∀ {s : State} (q : List Byte) (rest : List Uop) (ms : List Move),
    Running s → s.pendingCall = none → s.uops = List.replicate bs.length .flushByte ++ rest → s.egress = bs ++ q →
    s.moves = mains bs.length ++ ms →
    runSteps bs.length s = .next { s with moves := ms, uops := rest, egress := q, hostFrame := s.hostFrame ++ bs } := by
  induction bs with
  | nil =>
    intro s q rest ms hr hp hu he hm
    simp [mains] at hu he hm
    subst hu; subst he; subst hm
    simp [runSteps]
  | cons b bs ih =>
    intro s q rest ms hr hp hu he hm
    have hm' : s.moves = .main :: (mains bs.length ++ ms) := by simpa [mains, List.replicate_succ] using hm
    let u : State := { s with
      moves := mains bs.length ++ ms, uops := List.replicate bs.length .flushByte ++ rest, egress := bs ++ q
      hostFrame := s.hostFrame ++ [b] }
    refine (runSteps_cons (t := u) _ hr hm' ?_).trans ?_
    · simp [u, runMove, mainStep, fetch, hp, hu, mainMicroStep, performUop, flushOne, he, List.replicate_succ]
    · exact (ih (s := u) q rest ms hr hp rfl rfl rfl).trans (by simp [u])

/-- Saturating ticks: nothing but the timers changes, and `rx_timer` counts up to its top
(60_exceptions.md R262). -/
theorem runSteps_ticks (n : Nat) : ∀ {s : State} (ms : List Move), Running s → s.cfg.timerOvf = .saturate →
    s.moves = List.replicate n .tick ++ ms →
    ∃ a b c, runSteps n s = .next { s with moves := ms, rxTimer := a, sendTimer := b, busTimer := c }
      ∧ min (s.rxTimer + n) (2 ^ s.cfg.timerWidth - 1) ≤ a := by
  induction n with
  | zero =>
    intro s ms hr hs hm
    simp at hm
    subst hm
    exact ⟨s.rxTimer, s.sendTimer, s.busTimer, rfl, by simp⟩
  | succ n ih =>
    intro s ms hr hs hm
    obtain ⟨a, b, c, hab, hle⟩ := ih (s := tick { s with moves := List.replicate n .tick ++ ms }) ms hr hs rfl
    refine ⟨a, b, c, ?_, ?_⟩
    · exact (runSteps_cons n hr (by simpa [List.replicate_succ] using hm) rfl).trans hab
    · refine Nat.le_trans ?_ hle
      simp [tick, countTimer, hs]
      omega

end Sys2Proof.Machine
end

