-- ==== Sys2Proof/Tests/Slice0.lean ====
section
/-! SUPPORT. Tests: an ill-formed term for each check, words written out from the encodings of the spec, single
steps whose results are the vectors of 95_test_vectors.md, and a witness for the hypotheses of every statement. -/

namespace Sys2Proof.Tests

open Sys2Proof Sys2Proof.Machine

/-! ### Helpers -/

/-- The state after a step, if it answers one. -/
def after : Result → Option State
  | .next t => some t
  | _ => none

/-- The fault a step stops with. -/
def stops : Result → Option Fault
  | .fault r => some r
  | _ => none

/-- The refusal a step stops with. -/
def refuses : Result → Option Refusal
  | .refused r => some r
  | _ => none

/-- The reset state in phase `p`, with the schedule `ms`. -/
def at' (p : MainPhase) (ms : List Move) : State := { State.reset with mainPhase := p, moves := ms }

/-- A state whose next move is MAIN's dispatch of `p`. -/
def dispatching (k : Kind) (p : Packet) (ms : List Move) : State :=
  { at' .consume ms with uops := [.dispatch k p] }

/-- A state about to consume the host bytes `bs`. -/
def receiving (bs : List Byte) (ms : List Move) : State :=
  { at' .consume ms with hostIn := bs, consumeLeft := bs.length }

/-- A state that holds in the call `c`. -/
def calling (c : Call) (ms : List Move) : State := { at' .dispatch ms with pendingCall := some c }

theorem configOk_reset : configOk State.reset = true := by decide

theorem wf_rc : Config.rc.wf = true := by decide

theorem running_of (s : State) (h : stopReason s = none) (hc : configOk s = configOk State.reset) : Running s :=
  ⟨h, hc.trans configOk_reset⟩

/-! ### Well-formedness: what each check refuses (00_scope.md R12, 30_encoding.md R85, R87) -/

theorem test_wf_localId_sync : ({ Config.rc with localId := 0xFF#8 } : Config).wf = false := by decide
theorem test_wf_broadcastId_sync : ({ Config.rc with broadcastId := 0xFF#8 } : Config).wf = false := by decide
theorem test_wf_ids_equal : ({ Config.rc with broadcastId := 0x01#8 } : Config).wf = false := by decide
theorem test_wf_codes_equal : ({ Config.rc with opReset := 0x08#8 } : Config).wf = false := by decide
theorem test_wf_no_devices : ({ Config.rc with maxAggDevices := 0 } : Config).wf = false := by decide
theorem test_wf_too_many_devices :
    ({ Config.rc with maxAggDevices := 253, scratchCap := 300 } : Config).wf = false := by decide
theorem test_wf_scratch_too_small : ({ Config.rc with scratchCap := 14 } : Config).wf = false := by decide
theorem test_wf_no_frame : ({ Config.rc with egressFrame := 0 } : Config).wf = false := by decide
theorem test_wf_frame_over_queue : ({ Config.rc with egressFrame := 65 } : Config).wf = false := by decide
theorem test_wf_no_capture : ({ Config.rc with captureCap := 0 } : Config).wf = false := by decide
theorem test_wf_no_out_frame : ({ Config.rc with maxOutFrame := 0 } : Config).wf = false := by decide
theorem test_wf_no_transmitter : ({ Config.rc with busTxDepth := 0 } : Config).wf = false := by decide
theorem test_threshold_range : Config.rc.thresholdOk 255 = false ∧ Config.rc.thresholdOk 254 = true := by decide
theorem test_step_refuses_ill_formed :
    refuses (step { State.reset with sendTimeout := 255 }) = some .illFormedConfig := by decide
theorem test_instr_length_range :
    Instr.wf Config.rc (.ping 0x01#8) = false ∧ Instr.wf Config.rc (.ping 0x02#8) = true
      ∧ Instr.wf Config.rc (.ping 0x0B#8) = true ∧ Instr.wf Config.rc (.ping 0x0C#8) = false := by decide
theorem test_instr_params_over :
    Instr.wf Config.rc (.write .device (List.replicate 10 0#8)) = false
      ∧ Instr.wf Config.rc (.write .device (List.replicate 9 0#8)) = true := by decide
theorem test_reject_is_for_other_codes :
    Instr.wf Config.rc (.reject 0x01#8 0x02#8 0x01#8) = false
      ∧ Instr.wf Config.rc (.reject 0xFE#8 0x02#8 0x01#8) = true
      ∧ Instr.wf Config.rc (.reject 0x05#8 0x02#8 0x07#8) = false
      ∧ Instr.wf Config.rc (.reject 0x01#8 0x0C#8 0x07#8) = false := by decide
theorem test_shape :
    Instr.shapeOk (.read .device [0#8]) = false ∧ Instr.shapeOk (.read .device [0#8, 0#8, 0#8]) = false
      ∧ Instr.shapeOk (.write .device [0#8]) = false ∧ Instr.shapeOk (.aggRead .device [0#8]) = false := by decide
theorem test_cstate_codes_refused : cstateOfCode 0xA#4 = none ∧ cstateOfCode 0xF#4 = none := by decide

/-! ### Decoding: words written out from the encodings (30_encoding.md R88 to R93, R101; 95_test_vectors.md) -/

-- WE-1: PING(01)
theorem test_decode_ping :
    decode Config.rc [0xFF#8, 0xFF#8, 0x01#8, 0x02#8, 0x01#8, 0xFB#8] = .ok (.ping 0x02#8, []) := by decide
-- WE-10: READ(01, 2B, 01)
theorem test_decode_read :
    decode Config.rc [0xFF#8, 0xFF#8, 0x01#8, 0x04#8, 0x02#8, 0x2B#8, 0x01#8, 0xCC#8]
      = .ok (.read .device [0x2B#8, 0x01#8], []) := by decide
-- WE-3: WRITE(01, 1E, 05)
theorem test_decode_write :
    decode Config.rc [0xFF#8, 0xFF#8, 0x01#8, 0x04#8, 0x03#8, 0x1E#8, 0x05#8, 0xD4#8]
      = .ok (.write .device [0x1E#8, 0x05#8], []) := by decide
theorem test_decode_reset :
    decode Config.rc [0xFF#8, 0xFF#8, 0x01#8, 0x02#8, 0x06#8, 0xF6#8] = .ok (.reset 0x02#8, []) := by decide
theorem test_decode_bootload :
    decode Config.rc [0xFF#8, 0xFF#8, 0x01#8, 0x02#8, 0x08#8, 0xF4#8] = .ok (.bootload 0x02#8, []) := by decide
-- WE-10: AGGREAD(FE, 24, 02, 03, 04)
theorem test_decode_agg_read :
    decode Config.rc [0xFF#8, 0xFF#8, 0xFE#8, 0x06#8, 0x84#8, 0x24#8, 0x02#8, 0x03#8, 0x04#8, 0x4A#8]
      = .ok (.aggRead .broadcast [0x24#8, 0x02#8, 0x03#8, 0x04#8], []) := by decide
-- CL-17 and CL-20
theorem test_decode_reject :
    decode Config.rc [0xFF#8, 0xFF#8, 0x01#8, 0x02#8, 0x05#8] = .ok (.reject 0x01#8 0x02#8 0x05#8, [])
      ∧ decode Config.rc [0xFF#8, 0xFF#8, 0xFE#8, 0x02#8, 0x06#8, 0xF9#8]
          = .ok (.reject 0xFE#8 0x02#8 0x06#8, [0xF9#8]) := by decide
-- CL-25: a ping that declares L = 3; the byte after the instruction is its checksum
theorem test_decode_ping_long :
    decode Config.rc [0xFF#8, 0xFF#8, 0x01#8, 0x03#8, 0x01#8, 0xFA#8, 0x00#8] = .ok (.ping 0x03#8, [0x00#8]) := by
  decide
-- WE-3 flipped, CL-23, CL-02, CL-03, WE-9, CL-10, CL-11
theorem test_decode_refuses :
    decode Config.rc [0xFF#8, 0xFF#8, 0x01#8, 0x04#8, 0x03#8, 0x1E#8, 0x04#8, 0xD4#8] = .error .badChecksum
      ∧ decode Config.rc [0xFF#8, 0xFF#8, 0x01#8, 0x02#8, 0x01#8, 0xFA#8] = .error .badChecksum
      ∧ decode Config.rc [0x41#8, 0xFF#8, 0x01#8, 0x02#8, 0x01#8, 0xFB#8] = .error .noSync
      ∧ decode Config.rc [0xFF#8, 0x41#8, 0x01#8, 0x02#8, 0x01#8, 0xFB#8] = .error .badSync2
      ∧ decode Config.rc [0xFF#8, 0xFF#8, 0xFF#8, 0x02#8, 0x01#8, 0xFB#8] = .error .realign
      ∧ decode Config.rc [0xFF#8, 0xFF#8, 0x05#8, 0x04#8, 0x01#8, 0x02#8] = .error .foreign
      ∧ decode Config.rc [0xFF#8, 0xFF#8, 0x01#8, 0x01#8, 0x01#8, 0xFB#8] = .error .lenRange
      ∧ decode Config.rc [0xFF#8, 0xFF#8, 0x01#8, 0x0C#8, 0x01#8, 0xFB#8] = .error .lenRange
      ∧ decode Config.rc [0xFF#8, 0xFF#8, 0x01#8, 0x02#8, 0x01#8] = .error .truncated := by decide
theorem test_table_words :
    [0x01, 0x02, 0x03, 0x06, 0x08, 0x84, 0x05].map (decodeTableWord 8)
      = [some (.ping 0x02#8), some (.read .device [0#8, 0#8]), some (.write .device [0#8, 0#8]),
          some (.reset 0x02#8), some (.bootload 0x02#8), some (.aggRead .device [0#8, 0#8]),
          some (.reject 0x01#8 0x02#8 0x05#8)] := by decide
-- the step right after a table word is placed runs its instruction
theorem test_withFetchWord_call :
    (after (step (State.reset.withFetchWord 8 0x02))).map (·.calls) = some [.localRead 0#8 0#8] := by decide
theorem test_withFetchWord_reject :
    (after (step (State.reset.withFetchWord 8 0x05))).map (·.uops)
      = some [.reject .badInstr, .busWrite 0xFF#8, .busWrite 0xFF#8, .busWrite 0x01#8, .busWrite 0x02#8,
          .busWrite 0x05#8] := by decide

/-! ### One step of each instruction (95_test_vectors.md) -/

-- WE-1: STATUS(00) is FF FF 01 02 00 FC
theorem test_ping_status :
    (after (exec (.ping 0x02#8) State.reset)).map (fun t => queued t.uops)
      = some [0xFF#8, 0xFF#8, 0x01#8, 0x02#8, 0x00#8, 0xFC#8] := by decide
theorem test_read_call :
    (after (exec (.read .broadcast [0x2B#8, 0x01#8]) State.reset)).map (·.pendingCall)
      = some (some (.localRead 0x2B#8 0x01#8)) := by decide
-- R89, R227: P ≠ 2 raises DISPATCH_SHAPE
theorem test_read_shape :
    (after (exec (.read .device [0x2B#8]) State.reset)).map (·.fault) = some (some .dispatchShape) := by decide
-- CL-27
theorem test_write_call :
    (after (exec (.write .device [0x1E#8, 0x05#8]) State.reset)).map (·.calls)
      = some [.localWrite 0x1E#8 [0x05#8] 0x01#8] := by decide
theorem test_reset_erases :
    (after (exec (.reset 0x02#8) State.reset)).map (fun t => (t.calls, t.halted)) = some ([.eraseConfiguration], none) := by
  decide
theorem test_bootload_halts :
    (after (exec (.bootload 0x02#8) State.reset)).map (fun t => (t.calls, t.halted))
      = some ([.restart true], some .bootload) := by decide
-- CL-31
theorem test_agg_read_call :
    (after (exec (.aggRead .device [0x24#8, 0x04#8, 1#8, 2#8, 3#8, 4#8, 5#8, 6#8, 7#8]) State.reset)).map (·.calls)
      = some [.aggregatedRead 0x24#8 0x04#8 0x07#8 [1#8, 2#8, 3#8, 4#8, 5#8, 6#8, 7#8]] := by decide
-- WE-8: m = 11, N = 3 gives 33 > 32: STATUS(08) is FF FF 01 02 08 F4
theorem test_agg_read_over :
    (after (exec (.aggRead .device [0x24#8, 0x0B#8, 1#8, 2#8, 3#8]) State.reset)).map (fun t => queued t.uops)
      = some [0xFF#8, 0xFF#8, 0x01#8, 0x02#8, 0x08#8, 0xF4#8] := by decide
-- CL-17 and CL-18
theorem test_reject_relays :
    (after (exec (.reject 0x01#8 0x02#8 0x05#8)
      { State.reset with scratch := [0xFF#8, 0xFF#8, 0x01#8, 0x02#8] })).map (fun t => relayed t.uops)
      = some [0xFF#8, 0xFF#8, 0x01#8, 0x02#8, 0x05#8] := by decide
theorem test_reject_keeps_sync :
    (after (exec (.reject 0x01#8 0x02#8 0xFF#8)
      { State.reset with scratch := [0xFF#8, 0xFF#8, 0x01#8, 0x02#8] })).map (fun t => (relayed t.uops, t.scratch))
      = some ([0xFF#8, 0xFF#8, 0x01#8, 0x02#8], [0xFF#8]) := by decide

-- AR-05: the executor's switchToReceive with one byte pending, and that byte's tx_done (R182)
theorem test_executor_drain_wait :
    (after (runSteps 2 { calling (.aggregatedRead 1#8 1#8 0#8 []) [.env .dirReceive, .env .txDone] with
        dir := .tx, busTxPending := 1 })).map (fun t => (t.dir, t.busTxPending, t.executorHold))
      = some (.rx, 0, none) := by decide
-- R25, R30, R251, R255
theorem test_codes :
    Action.code .frameComplete = 2#2 ∧ Dir.code .tx = 1#1 ∧ RejectReason.code .rxTimeout = 5
      ∧ FaultCode.code .dispatchShape = 3 := by decide

/-! ### Witnesses for the hypotheses of the statements -/

/-- The instructions at the ends of their operand ranges are well-formed. -/
theorem witness_DecodeInvertsEncode :
    Config.rc.wf = true
      ∧ [Instr.ping 0x02#8, .ping 0x0B#8, .reset 0x02#8, .bootload 0x0B#8, .read .device [], .read .broadcast [0#8, 0#8],
          .write .device (List.replicate 9 0xFF#8), .aggRead .broadcast (List.replicate 9 1#8),
          .reject 0x01#8 0x02#8 0x00#8, .reject 0xFE#8 0x0B#8 0xFF#8].all (Instr.wf Config.rc) = true := by decide

theorem witness_DecodedBytesAreTheEncodedFrame :
    Config.rc.wf = true ∧ decode Config.rc [0xFF#8, 0xFF#8, 0x01#8, 0x03#8, 0x01#8, 0xFA#8, 0x00#8]
      = .ok (.ping 0x03#8, [0x00#8]) := by decide

theorem witness_StepRunsTheDispatchedInstruction :
    let p : Packet := ⟨0xFE#8, 0x04#8, 0x02#8, [0x2B#8, 0x01#8]⟩
    let s := dispatching .read p [.main]
    Running s ∧ nextMove s = .main ∧ s.pendingCall = none ∧ s.uops = [.dispatch .read p]
      ∧ decodeDispatch s.cfg .read p = some (.read .broadcast [0x2B#8, 0x01#8]) :=
  ⟨running_of _ rfl rfl, rfl, rfl, rfl, by decide⟩

theorem witness_StepConsumesTheNextHostByte :
    let s := { receiving [0x05#8] [.main] with
      cstate := .readInstr, scratch := [0xFF#8, 0xFF#8, 0x01#8, 0x02#8] }
    Running s ∧ nextMove s = .main ∧ s.pendingCall = none ∧ s.uops = [] ∧ s.mainPhase = .consume
      ∧ 1 ≤ s.consumeLeft ∧ s.hostIn = [0x05#8] ∧ s.cstate = .readInstr
      ∧ s.scratch = [0xFF#8, 0xFF#8, 0x01#8, 0x02#8] ∧ s.cfg.classOf 0x01#8 0x05#8 = .rejected :=
  ⟨running_of _ rfl rfl, rfl, rfl, rfl, rfl, by decide, rfl, rfl, rfl, by decide⟩

theorem witness_ClassifierDeliversTheEncodedInstruction :
    let i : Instr := .read .broadcast [0x2B#8, 0x01#8]
    let s := receiving (encode Config.rc i) (mains 8)
    Running s ∧ s.pendingCall = none ∧ s.uops = [] ∧ s.mainPhase = .consume ∧ s.cstate = .seekSync1
      ∧ i.wf s.cfg = true ∧ (∀ id len code, i ≠ .reject id len code) ∧ s.hostIn = encode s.cfg i ++ []
      ∧ (encode s.cfg i).length ≤ s.consumeLeft ∧ s.moves = mains (encode s.cfg i).length ++ [] :=
  ⟨running_of _ rfl rfl, rfl, rfl, rfl, rfl, by decide, by simp, rfl, by decide, rfl⟩

theorem witness_ClassifierDeliversTheRejectedByte :
    let s := receiving [0xFF#8, 0xFF#8, 0x01#8, 0x02#8, 0x05#8] (mains 5)
    Running s ∧ s.pendingCall = none ∧ s.uops = [] ∧ s.mainPhase = .consume ∧ s.cstate = .seekSync1
      ∧ (Instr.reject 0x01#8 0x02#8 0x05#8).wf s.cfg = true
      ∧ s.hostIn = encode s.cfg (.reject 0x01#8 0x02#8 0x05#8) ++ [] ∧ 5 ≤ s.consumeLeft ∧ s.moves = mains 5 ++ [] :=
  ⟨running_of _ rfl rfl, rfl, rfl, rfl, rfl, by decide, rfl, by decide, rfl⟩

/-- Once with an ordinary wrong checksum byte, once with 0xFF (CL-23, CL-24). -/
theorem witness_WrongChecksumFrameIsResynced :
    ∀ bad ∈ [0xFA#8, 0xFF#8],
      let s := receiving [0xFF#8, 0xFF#8, 0x01#8, 0x02#8, 0x01#8, bad] (mains 6)
      Running s ∧ s.pendingCall = none ∧ s.uops = [] ∧ s.mainPhase = .consume ∧ s.cstate = .seekSync1
        ∧ (Instr.ping 0x02#8).wf s.cfg = true ∧ (encode s.cfg (.ping 0x02#8)).getLast? ≠ some bad
        ∧ s.hostIn = (encode s.cfg (.ping 0x02#8)).dropLast ++ bad :: []
        ∧ (encode s.cfg (.ping 0x02#8)).length ≤ s.consumeLeft
        ∧ s.moves = mains (encode s.cfg (.ping 0x02#8)).length ++ [] := by
  intro bad h
  simp only [List.mem_cons, List.not_mem_nil, or_false] at h
  rcases h with rfl | rfl <;>
    exact ⟨running_of _ rfl rfl, rfl, rfl, rfl, rfl, by decide, by decide, rfl, by decide, rfl⟩

theorem witness_WriteDispatchCallsTheStore : 1 ≤ [0x05#8].length := by decide

/-- Both sides of the bounds, at their ends (WE-8): m = 16 with N = 2 and m = 1 with N = 0 are inside; m = 0,
m = 17 and m = 11 with N = 3 are outside. -/
theorem witness_AggReadDispatchChecksItsBounds :
    aggregateFits State.reset.cfg 16#8 2 = true ∧ aggregateFits State.reset.cfg 1#8 0 = true
      ∧ aggregateFits State.reset.cfg 0#8 2 = false ∧ aggregateFits State.reset.cfg 17#8 1 = false
      ∧ aggregateFits State.reset.cfg 11#8 3 = false := by decide

/-- One byte of room, and none. -/
theorem witness_RejectRowResyncs :
    (List.replicate 14 0xFF#8).length < State.reset.cfg.scratchCap
      ∧ ¬ (List.replicate 15 0xFF#8).length < State.reset.cfg.scratchCap := by decide

/-- The counts next to the admitted ones. -/
theorem witness_WrongShapeRaisesDispatchShape :
    [0#8].length ≠ 2 ∧ [0#8, 0#8, 0#8].length ≠ 2 ∧ [0#8].length < 2 ∧ ([] : List Byte).length < 2 := by decide

theorem witness_DispatchLeavesTheRestAlone :
    (∃ t, exec (.bootload 0x02#8) State.reset = .next t ∧ t.halted ≠ State.reset.halted)
      ∧ (∃ t, exec (.read .device []) State.reset = .next t ∧ t.fault ≠ State.reset.fault) :=
  ⟨⟨_, rfl, by decide⟩, ⟨_, rfl, by decide⟩⟩

theorem witness_DispatchNeverRelays :
    let p : Packet := ⟨0x01#8, 0x02#8, 0x01#8, []⟩
    (dispatching .ping p []).uops = .dispatch .ping p :: []
      ∧ ∃ t, exec (.ping 0x02#8) (dispatching .ping p []) = .next t :=
  ⟨rfl, _, rfl⟩

/-- With exactly room for the six bytes: 58 of 64 are queued. -/
theorem witness_PingRunQueuesExactlyItsStatus :
    let p : Packet := ⟨0x01#8, 0x02#8, 0x01#8, []⟩
    let s := { dispatching .ping p (mains 8) with egress := List.replicate 58 0#8 }
    Running s ∧ s.pendingCall = none ∧ s.uops = .dispatch .ping p :: [] ∧ (s.cfg.targetOf p.id).isSome = true
      ∧ s.egress.length + 6 ≤ s.cfg.egressCap ∧ s.moves = mains 8 ++ [] :=
  ⟨running_of _ rfl rfl, rfl, rfl, by decide, by decide, rfl⟩

theorem witness_ReadAnswerIsQueuedAsAStatus :
    let s := calling (.localRead 0x2B#8 0x01#8) (.env (.ret (.read 0x00#8 [0x4B#8])) :: mains 7)
    Running s ∧ s.pendingCall = some (.localRead 0x2B#8 0x01#8) ∧ [0x4B#8].length ≤ 253
      ∧ s.egress.length + [0x4B#8].length + 6 ≤ s.cfg.egressCap
      ∧ s.moves = .env (.ret (.read 0x00#8 [0x4B#8])) :: mains ([0x4B#8].length + 6) ++ [] :=
  ⟨running_of _ rfl rfl, rfl, by decide, by decide, rfl⟩

/-- With pass-through on and off, and with the executor holding. -/
theorem witness_AggregateAnswerIsQueuedUnchanged :
    ∀ (pt : Bool) (h : Option BusRequest),
      let s := { calling (.aggregatedRead 1#8 1#8 1#8 [3#8]) (.env (.ret (.bytes [7#8])) :: mains 1) with
        passthrough := pt, executorHold := h }
      Running s ∧ s.pendingCall = some (.aggregatedRead 1#8 1#8 1#8 [3#8])
        ∧ s.egress.length + [7#8].length ≤ s.cfg.egressCap
        ∧ s.moves = .env (.ret (.bytes [7#8])) :: mains [7#8].length ++ [] ∧ s.passthrough = pt ∧ s.executorHold = h :=
  fun _ _ => ⟨running_of _ rfl rfl, rfl, show 1 ≤ 64 by decide, rfl, rfl, rfl⟩

/-- MAIN's step in each of the four calls; an answer of the wrong kind, and one without a call; the three answers. -/
theorem witness_CallsHoldMainUntilTheMatchingAnswer :
    (∀ c ∈ [Call.localRead 1#8 2#8, .localWrite 1#8 [2#8] 1#8, .eraseConfiguration, .aggregatedRead 1#8 1#8 0#8 []],
      let s := calling c [.main]
      Running s ∧ s.pendingCall ≠ none ∧ nextMove s = .main)
    ∧ (let s := calling .eraseConfiguration [.env (.ret (.status 0#8))]
       Running s ∧ nextMove s = .env (.ret (.status 0#8))
        ∧ ∀ c, s.pendingCall = some c → answers c (.status 0#8) = false)
    ∧ (let s := at' .consume [.env (.ret .done)]
       Running s ∧ nextMove s = .env (.ret .done) ∧ ∀ c, s.pendingCall = some c → answers c .done = false)
    ∧ (let s := calling (.localWrite 1#8 [2#8] 1#8) [.env (.ret (.status 0#8))]
       Running s ∧ s.pendingCall = some (.localWrite 1#8 [2#8] 1#8) ∧ nextMove s = .env (.ret (.status 0#8)))
    ∧ (let s := calling .eraseConfiguration [.env (.ret .done)]
       Running s ∧ s.pendingCall = some .eraseConfiguration ∧ nextMove s = .env (.ret .done))
    ∧ (let s := calling (.localRead 1#8 2#8) [.env (.ret (.read 0#8 (List.replicate 254 0#8)))]
       Running s ∧ s.pendingCall = some (.localRead 1#8 2#8)
        ∧ nextMove s = .env (.ret (.read 0#8 (List.replicate 254 0#8))) ∧ 253 < (List.replicate 254 0#8).length) :=
  ⟨fun _ _ => ⟨running_of _ rfl rfl, Option.some_ne_none _, rfl⟩,
    ⟨running_of _ rfl rfl, rfl, by rintro _ ⟨⟩; rfl⟩, ⟨running_of _ rfl rfl, rfl, by rintro _ ⟨⟩⟩,
    ⟨running_of _ rfl rfl, rfl, rfl⟩, ⟨running_of _ rfl rfl, rfl, rfl⟩,
    ⟨running_of _ rfl rfl, rfl, rfl, by rw [List.length_replicate]; decide⟩⟩

theorem witness_RestartInstructionsEndTheRun :
    let p : Packet := ⟨0x01#8, 0x02#8, 0x06#8, []⟩
    let q : Packet := ⟨0x01#8, 0x02#8, 0x08#8, []⟩
    let s := dispatching .reset p [.main, .env (.ret .done), .main]
    let t := dispatching .bootload q [.main]
    (Running s ∧ s.pendingCall = none ∧ (s.cfg.targetOf p.id).isSome = true ∧ s.uops = .dispatch .reset p :: []
      ∧ s.moves = [.main, .env (.ret .done), .main] ++ [])
    ∧ (Running t ∧ t.pendingCall = none ∧ (t.cfg.targetOf q.id).isSome = true ∧ t.uops = .dispatch .bootload q :: []
      ∧ t.moves = .main :: []) :=
  ⟨⟨running_of _ rfl rfl, rfl, by decide, rfl, rfl⟩, ⟨running_of _ rfl rfl, rfl, by decide, rfl, rfl⟩⟩

/-- The shortest payload, and the longest. -/
theorem witness_StatusFrameLayout :
    ([] : List Byte).length ≤ 253 ∧ (List.replicate 253 0#8).length ≤ 253 :=
  ⟨Nat.zero_le _, Nat.le_of_eq List.length_replicate⟩

/-- The invariant holds of the reset state with any phase and schedule. -/
theorem inv_at (p : MainPhase) (ms : List Move) : Inv (at' p ms) where
  config := configOk_reset
  classifier := show classifierOk State.reset = true by decide
  rxTimer := show 0 < 2 ^ 8 by decide
  sendTimer := show 0 < 2 ^ 8 by decide
  busTimer := show 0 < 2 ^ 8 by decide
  egress := Nat.zero_le _
  cap := Nat.zero_le _
  busTx := Nat.zero_le _
  listening := fun _ => rfl
  flushes := Nat.le_refl _
  commits := rfl
  uncommitted := .inr rfl
  packets := by
    intro k q h
    simp [at', State.reset] at h
  counted := Nat.le_refl _
  work := by cases p <;> rfl
  callPhase := fun h => absurd rfl h
  held := fun h => absurd rfl h
  modeFlag := fun h => absurd (show true = false from h) (by decide)
  oneEnd := .inl rfl

/-- Also of a state in the middle of a frame, with its bytes on the way. -/
theorem inv_partial (ms : List Move) :
    Inv { at' .waitConn ms with hostConnected := true, cstate := .seekSync2, scratch := [0xFF#8], rxTimer := 1 } :=
  { inv_at .waitConn ms with
    config := configOk_reset
    classifier := show classifierOk { State.reset with cstate := .seekSync2, scratch := [0xFF#8] } = true by decide
    rxTimer := show 1 < 2 ^ 8 by decide }

theorem witness_EveryStepKeepsTheInvariant :
    Inv (at' .waitConn [.tick]) ∧ ∃ t, step (at' .waitConn [.tick]) = .next t :=
  ⟨inv_at _ _, _, rfl⟩

/-- The three agents, each picked in a state with the invariant. -/
theorem witness_AgentsNeverLackARule :
    ∀ m ∈ [Move.main, .tick, .busRx 7#8],
      Inv (at' .waitConn [m]) ∧ stopReason (at' .waitConn [m]) = none ∧ nextMove (at' .waitConn [m]) = m :=
  fun m _ => ⟨inv_at _ [m], rfl, rfl⟩

theorem witness_ScratchNeverOverflows :
    Inv (at' .consume [.main]) ∧ ∃ t, step (at' .consume [.main]) = .next t :=
  ⟨inv_at _ _, _, rfl⟩

/-- A step that queues a byte (BUSRX in pass-through mode). -/
theorem witness_HostStreamOnlyGrowsAtItsEnd :
    (after (step (at' .waitConn [.busRx 7#8]))).map hostStream = some [7#8] := by decide

/-- MAIN's return with nothing pending, and the `tx_done` that releases a holding executor. -/
theorem witness_NoSwitchToReceiveBeforeDrain :
    (let s := { at' .rxReturn [.main] with dir := .tx }
     ∃ t, step s = .next t ∧ s.dir = .tx ∧ t.dir = .rx)
    ∧ (let s := { calling (.aggregatedRead 1#8 1#8 0#8 []) [.env .txDone] with
          dir := .tx, busTxPending := 1, executorHold := some .switchToReceive }
       ∃ t, step s = .next t ∧ s.dir = .tx ∧ t.dir = .rx) :=
  ⟨⟨_, rfl, rfl, rfl⟩, ⟨_, rfl, rfl, rfl⟩⟩

theorem witness_HistoriesOnlyGrow :
    ∃ t, step { at' .waitConn [.main] with uops := [.busWrite 7#8] } = .next t ∧ t.busOut = [7#8] :=
  ⟨_, rfl, rfl⟩

theorem witness_StoppedBlockTakesNoStep :
    ({ State.reset with fault := some .captureOverflow } : State).fault = some .captureOverflow
      ∧ ({ State.reset with halted := some .reset } : State).halted = some .reset
      ∧ configOk { State.reset with cfg := { Config.rc with busTxDepth := 0 } } = false := by decide

theorem witness_OnlyARestartHalts :
    ∃ t, step (dispatching .bootload ⟨0x01#8, 0x02#8, 0x08#8, []⟩ [.main]) = .next t ∧ t.halted = some .bootload :=
  ⟨_, rfl, rfl⟩

theorem witness_FaultStepWritesOnlyTheRecord :
    ∃ t, step (dispatching .read ⟨0x01#8, 0x02#8, 0x02#8, []⟩ [.main]) = .next t ∧ t.fault = some .dispatchShape :=
  ⟨_, rfl, rfl⟩

theorem witness_ModeFlagChangesOnlyDuringAnAggregatedRead :
    (∃ t, step (calling (.aggregatedRead 1#8 1#8 0#8 []) [.env (.modeSet false)]) = .next t ∧ t.passthrough ≠ true)
      ∧ ∃ t, step { calling (.aggregatedRead 1#8 1#8 0#8 []) [.env .clearCapture] with cap := [7#8] } = .next t
          ∧ t.cap = [] :=
  ⟨⟨_, rfl, by decide⟩, ⟨_, rfl, rfl⟩⟩

theorem witness_OnlyMainWritesTheClassifier :
    ∀ m ∈ [Move.tick, .busRx 7#8, .env (.hostByte 7#8)],
      (∃ t, step (at' .waitConn [m]) = .next t) ∧ nextMove (at' .waitConn [m]) ≠ .main := by
  intro m h
  simp only [List.mem_cons, List.not_mem_nil, or_false] at h
  rcases h with rfl | rfl | rfl <;> exact ⟨⟨_, rfl⟩, by decide⟩

/-! The classifier's statements, at the ends of their ranges. -/

theorem witness_SyncBytesStartAFrame :
    State.reset.cstate = .seekSync1
    ∧ (let s := { State.reset with cstate := .seekSync2, scratch := [0xFF#8] }
       s.cfg.wf = true ∧ s.cstate = .seekSync2 ∧ s.scratch = [0xFF#8])
    ∧ (let s := { State.reset with cstate := .readId, scratch := [0xFF#8, 0xFF#8] }
       s.cfg.wf = true ∧ s.cstate = .readId ∧ s.scratch = [0xFF#8, 0xFF#8]) :=
  ⟨rfl, ⟨wf_rc, rfl, rfl⟩, ⟨wf_rc, rfl, rfl⟩⟩

theorem witness_ForeignPrefixIsRelayed :
    let s := { State.reset with cstate := .readLen, scratch := [0xFF#8, 0xFF#8, 0x05#8] }
    s.cfg.wf = true ∧ s.cstate = .readLen ∧ s.scratch = [0xFF#8, 0xFF#8, 0x05#8] ∧ 0x05#8 ≠ s.cfg.localId
      ∧ 0x05#8 ≠ s.cfg.broadcastId :=
  ⟨wf_rc, rfl, rfl, by decide, by decide⟩

/-- Lengths 2 and 11 are inside, 1, 12 and 255 outside (CL-10 to CL-13). -/
theorem witness_RetainedLengthIsRangeChecked :
    let s := { State.reset with cstate := .readLen, scratch := [0xFF#8, 0xFF#8, 0x01#8] }
    (s.cfg.wf = true ∧ s.cstate = .readLen ∧ s.scratch = [0xFF#8, 0xFF#8, 0x01#8]
      ∧ (0x01#8 = s.cfg.localId ∨ 0x01#8 = s.cfg.broadcastId))
    ∧ (∀ l ∈ [2#8, 11#8], 1 < l.toNat ∧ l.toNat < s.cfg.maxAggDevices + 4)
    ∧ (∀ l ∈ [1#8, 12#8, 255#8], ¬ (1 < l.toNat ∧ l.toNat < s.cfg.maxAggDevices + 4)) :=
  ⟨⟨wf_rc, rfl, rfl, .inl rfl⟩, by decide, by decide⟩

theorem witness_AdmittedInstructionSeedsTheFrame :
    let s := { State.reset with cstate := .readInstr, scratch := [0xFF#8, 0xFF#8, 0xFE#8, 0x04#8] }
    let t := { State.reset with cstate := .readInstr, scratch := [0xFF#8, 0xFF#8, 0x01#8, 0x02#8] }
    (s.cfg.wf = true ∧ s.cstate = .readInstr ∧ s.scratch = [0xFF#8, 0xFF#8, 0xFE#8, 0x04#8]
      ∧ (0xFE#8 = s.cfg.localId ∨ 0xFE#8 = s.cfg.broadcastId)
      ∧ (Kind.read = .ping ∨ Kind.read = .reset ∨ Kind.read = .bootload → 0xFE#8 = s.cfg.localId))
    ∧ (t.cfg.wf = true ∧ t.cstate = .readInstr ∧ t.scratch = [0xFF#8, 0xFF#8, 0x01#8, 0x02#8]
      ∧ (0x01#8 = t.cfg.localId ∨ 0x01#8 = t.cfg.broadcastId)
      ∧ (Kind.ping = .ping ∨ Kind.ping = .reset ∨ Kind.ping = .bootload → 0x01#8 = t.cfg.localId)) :=
  ⟨⟨wf_rc, rfl, rfl, .inr rfl, by simp⟩, ⟨wf_rc, rfl, rfl, .inl rfl, fun _ => rfl⟩⟩

/-- The last parameter with the scratch buffer one short of full, and the last byte of a foreign frame. -/
theorem witness_BodyBytesAreHeldOrRelayed :
    (let s := { State.reset with cstate := .collectParams, rem := 2, scratch := List.replicate 14 0xFF#8 }
     s.cstate = .collectParams ∧ 2 ≤ s.rem ∧ s.scratch.length < s.cfg.scratchCap)
    ∧ (let s := { State.reset with cstate := .relayRemainder, rem := 1 }
       s.cstate = .relayRemainder ∧ 1 ≤ s.rem) :=
  ⟨⟨rfl, by decide, by decide⟩, ⟨rfl, by decide⟩⟩

/-- An idle byte is relayed; the checksum byte of a ping accepts, and another one rejects. -/
theorem witness_ConsumedBytesAreNeverLost :
    (∃ t, consume 0x41#8 (at' .consume []) = .next t ∧ t.lastAction = .passedThrough) ∧ Inv (at' .consume [])
    ∧ (let s := { at' .consume [] with
          cstate := .pingConfirm, scratch := [0xFF#8, 0xFF#8, 0x01#8, 0x02#8, 0x01#8], chk := 0x04#8, rem := 1 }
       Inv s ∧ (∃ t, consume 0xFB#8 s = .next t ∧ t.lastAction = .frameComplete)
        ∧ ∃ t, consume 0xFF#8 s = .next t ∧ t.lastAction = .frameRejected) :=
  ⟨⟨_, rfl, rfl⟩, inv_at _ _,
    { inv_at .consume [] with config := configOk_reset, classifier := by decide }, ⟨_, rfl, rfl⟩, ⟨_, rfl, rfl⟩⟩

/-! Timers, interrupts, the bus, the flush and the timeout. -/

theorem witness_TickAdvancesEveryTimer :
    (Running (at' .waitConn [.tick]) ∧ nextMove (at' .waitConn [.tick]) = .tick
      ∧ (at' .waitConn [.tick]).cfg.timerOvf = .saturate)
    ∧ (let s := { at' .waitConn [.tick] with cfg := { Config.rc with timerOvf := .wrap } }
       Running s ∧ nextMove s = .tick ∧ s.cfg.timerOvf = .wrap) :=
  ⟨⟨running_of _ rfl rfl, rfl, rfl⟩, ⟨⟨rfl, by decide⟩, rfl, rfl⟩⟩

/-- Each branch, with the queue and the capture buffer one short of full and full. -/
theorem witness_BusByteGoesWhereTheModeSays :
    let s := at' .waitConn [.busRx 7#8]
    Running s ∧ nextMove s = .busRx 7#8
      ∧ (after (step { s with dir := .tx })).map (·.egress) = some []
      ∧ (after (step { s with egress := List.replicate 63 0#8 })).map (·.egress.length) = some 64
      ∧ (after (step { s with egress := List.replicate 64 0#8 })).map (·.fault) = some (some .egressOverflow)
      ∧ (after (step { s with passthrough := false, cap := List.replicate 15 0#8 })).map (·.cap.length) = some 16
      ∧ (after (step { s with passthrough := false, cap := List.replicate 16 0#8 })).map (·.fault)
          = some (some .captureOverflow) :=
  ⟨running_of _ rfl rfl, rfl, by decide, by decide, by decide, by decide, by decide⟩

/-- A byte with room for one and with none, and a rejection. -/
theorem witness_EnqueueAndRejectMicroOperations :
    let s := { at' .dispatch [.main] with uops := [.enqueue 7#8] }
    let u := { at' .consume [.main] with uops := [.reject .lenRange], rejects := [.checksum] }
    (Running s ∧ nextMove s = .main ∧ s.pendingCall = none ∧ s.uops = .enqueue 7#8 :: []
      ∧ (after (step { s with egress := List.replicate 63 0#8 })).map (·.egress.length) = some 64
      ∧ (after (step { s with egress := List.replicate 64 0#8 })).map (·.fault) = some (some .egressOverflow))
    ∧ (Running u ∧ nextMove u = .main ∧ u.pendingCall = none ∧ u.uops = .reject .lenRange :: []
      ∧ (after (step u)).map (·.rejects) = some [.checksum, .lenRange]) :=
  ⟨⟨running_of _ rfl rfl, rfl, rfl, rfl, by decide, by decide⟩, ⟨running_of _ rfl rfl, rfl, rfl, rfl, by decide⟩⟩

/-- With one byte pending of two, and with two. -/
theorem witness_BusWriteSwitchesToTransmitOrHolds :
    let s := { at' .consume [.main] with uops := [.busWrite 7#8] }
    Running s ∧ nextMove s = .main ∧ s.pendingCall = none ∧ s.uops = .busWrite 7#8 :: []
      ∧ (after (step { s with busTxPending := 1 })).map (·.busOut) = some [7#8]
      ∧ (after (step { s with busTxPending := 2 })).map (·.busOut) = some [] :=
  ⟨running_of _ rfl rfl, rfl, rfl, rfl, by decide, by decide⟩

theorem witness_RelayedBytesReachTheBusInOrder :
    let s := { at' .consume [.main, .env .txDone, .main, .env .txDone] with uops := [.busWrite 7#8, .busWrite 8#8] }
    Running s ∧ s.pendingCall = none ∧ s.executorHold = none ∧ s.busTxPending = 0 ∧ s.uops = [7#8, 8#8].map .busWrite ++ []
      ∧ s.moves = [7#8, 8#8].flatMap (fun _ => [.main, .env .txDone]) ++ [] :=
  ⟨running_of _ rfl rfl, rfl, rfl, rfl, rfl, rfl⟩

/-- MAIN's return with a byte pending; `tx_done` with none pending, with one, and with the executor holding for the
drain at one and at two bytes pending, and for a full transmitter (AR-05). -/
theorem witness_ReturnToReceiveNeedsADrainedBus :
    let u := { calling (.aggregatedRead 1#8 1#8 0#8 []) [.env .txDone] with
      dir := .tx, busTxPending := 1, executorHold := some .switchToReceive }
    let v := { u with busTxPending := 2, executorHold := some (.busWrite 7#8) }
    (let s := { at' .rxReturn [.main] with dir := .tx, busTxPending := 1 }
     Running s ∧ nextMove s = .main ∧ s.pendingCall = none ∧ s.uops = [] ∧ s.mainPhase = .rxReturn)
    ∧ (let s := at' .waitConn [.env .txDone]
       Running s ∧ nextMove s = .env .txDone ∧ s.busTxPending = 0)
    ∧ (let s := { at' .waitConn [.env .txDone] with dir := .tx, busTxPending := 1 }
       Running s ∧ nextMove s = .env .txDone ∧ 1 ≤ s.busTxPending ∧ s.executorHold = none)
    ∧ (Running u ∧ nextMove u = .env .txDone ∧ u.dir = .tx ∧ u.busTxPending = 1
      ∧ u.executorHold = some .switchToReceive ∧ (after (step u)).map (·.dir) = some .rx)
    ∧ (let s := { u with busTxPending := 2 }
       Running s ∧ nextMove s = .env .txDone ∧ s.dir = .tx ∧ 2 ≤ s.busTxPending
        ∧ s.executorHold = some .switchToReceive)
    ∧ (Running v ∧ nextMove v = .env .txDone ∧ 1 ≤ v.busTxPending ∧ v.busTxPending ≤ v.cfg.busTxDepth
      ∧ v.executorHold = some (.busWrite 7#8) ∧ (after (step v)).map (·.busOut) = some [7#8]) :=
  ⟨⟨running_of _ rfl rfl, rfl, rfl, rfl, rfl⟩, ⟨running_of _ rfl rfl, rfl, rfl⟩,
    ⟨running_of _ rfl rfl, rfl, by decide, rfl⟩, ⟨running_of _ rfl rfl, rfl, rfl, rfl, rfl, by decide⟩,
    ⟨running_of _ rfl rfl, rfl, rfl, by decide, rfl⟩, ⟨running_of _ rfl rfl, rfl, by decide, by decide, rfl, by decide⟩⟩

/-- The five moves during an aggregated read, free and while the executor holds; a byte for a transmitter with room and
for a full one; `switchToReceive` with a byte pending; and a move outside a read. -/
theorem witness_ExecutorActsOnlyDuringAnAggregatedRead :
    (∀ e ∈ [EnvMove.modeSet false, .dirTransmit, .dirReceive, .executorWrite 7#8, .clearCapture],
      ∀ h : Option BusRequest,
        let s := { calling (.aggregatedRead 1#8 1#8 0#8 []) [.env e] with executorHold := h }
        Running s ∧ nextMove s = .env e ∧ inAggregatedRead s = true ∧ s.executorHold = h)
    ∧ (after (step { calling (.aggregatedRead 1#8 1#8 0#8 []) [.env (.executorWrite 7#8)] with
        dir := .tx, busTxPending := 1 })).map (·.busOut) = some [7#8]
    ∧ (after (step { calling (.aggregatedRead 1#8 1#8 0#8 []) [.env (.executorWrite 7#8)] with
        dir := .tx, busTxPending := 2 })).map (·.executorHold) = some (some (.busWrite 7#8))
    ∧ (after (step { calling (.aggregatedRead 1#8 1#8 0#8 []) [.env .dirReceive] with
        dir := .tx, busTxPending := 1 })).map (·.executorHold) = some (some .switchToReceive)
    ∧ refuses (step (calling (.localRead 1#8 1#8) [.env .dirReceive])) = some .noSuchMove :=
  ⟨fun _ _ _ => ⟨running_of _ rfl rfl, rfl, rfl, rfl⟩, by decide, by decide, by decide, by decide⟩

/-- Each clause; the thresholds at the ends of their range, and one past it. -/
theorem witness_ServiceCycleWaitsAndCounts :
    (∀ v : Bool,
      let s := { at' .waitConn [.main] with hostConnected := v }
      Running s ∧ nextMove s = .main ∧ s.pendingCall = none ∧ s.uops = [] ∧ s.mainPhase = .waitConn)
    ∧ (let s := { at' .consume [.main] with uops := [.countInput], hostIn := [1#8, 2#8] }
       Running s ∧ nextMove s = .main ∧ s.pendingCall = none ∧ s.uops = .countInput :: []
        ∧ (after (step s)).map (·.consumeLeft) = some 2)
    ∧ (let s := receiving [1#8] [.main]
       Inv s ∧ Running s ∧ nextMove s = .main ∧ s.pendingCall = none ∧ s.uops = [] ∧ s.mainPhase = .consume
        ∧ 1 ≤ s.consumeLeft)
    ∧ (let s := at' .consume [.main]
       Running s ∧ nextMove s = .main ∧ s.pendingCall = none ∧ s.uops = [] ∧ s.mainPhase = .consume
        ∧ s.consumeLeft = 0)
    ∧ (∀ e ∈ [EnvMove.hostByte 7#8, .setConnected true, .setWriteReady true, .setTimeouts 0 254, .setTimeouts 255 0],
        Running (receiving [1#8] [.env e]) ∧ nextMove (receiving [1#8] [.env e]) = .env e)
    ∧ (after (step (receiving [1#8] [.env (.setTimeouts 0 254)]))).map (·.sendTimeout) = some 254
    ∧ refuses (step (receiving [1#8] [.env (.setTimeouts 255 0)])) = some .noSuchMove :=
  ⟨fun _ => ⟨running_of _ rfl rfl, rfl, rfl, rfl, rfl⟩, ⟨running_of _ rfl rfl, rfl, rfl, rfl, by decide⟩,
    ⟨{ inv_at .consume [.main] with counted := Nat.le_refl _ }, running_of _ rfl rfl, rfl, rfl, rfl, rfl, Nat.le_refl _⟩,
    ⟨running_of _ rfl rfl, rfl, rfl, rfl, rfl, rfl⟩, fun _ _ => ⟨running_of _ rfl rfl, rfl⟩, by decide, by decide⟩

/-- No ready host; a short queue at its threshold; an empty queue with and without an owed frame. -/
theorem witness_FlushSendsNothingOrTheOwedEmptyFrame :
    let s := at' .flush (mains 1)
    let u := { at' .flush (mains 2) with writeReady := true, egress := [7#8], sendTimer := 2 }
    let v := { at' .flush (mains 2) with writeReady := true }
    let w := { at' .flush (mains 5) with writeReady := true, zlpOwed := true }
    (Running s ∧ s.pendingCall = none ∧ s.uops = [] ∧ s.mainPhase = .flush ∧ s.writeReady = false
      ∧ s.moves = mains 1 ++ [])
    ∧ (Running u ∧ u.pendingCall = none ∧ u.uops = [] ∧ u.mainPhase = .flush ∧ u.writeReady = true
      ∧ u.egress.length < u.cfg.egressFrame ∧ u.egress ≠ [] ∧ u.sendTimer ≤ u.sendTimeout ∧ u.moves = mains 2 ++ [])
    ∧ (Running v ∧ v.pendingCall = none ∧ v.uops = [] ∧ v.mainPhase = .flush ∧ v.writeReady = true ∧ v.egress = []
      ∧ v.zlpOwed = false ∧ v.moves = mains 2 ++ [])
    ∧ (Running w ∧ w.pendingCall = none ∧ w.uops = [] ∧ w.mainPhase = .flush ∧ w.writeReady = true ∧ w.egress = []
      ∧ w.zlpOwed = true ∧ w.hostFrame = [] ∧ w.moves = mains 5 ++ []) :=
  ⟨⟨running_of _ rfl rfl, rfl, rfl, rfl, rfl, rfl⟩,
    ⟨running_of _ rfl rfl, rfl, rfl, rfl, rfl, by decide, by decide, by decide, rfl⟩,
    ⟨running_of _ rfl rfl, rfl, rfl, rfl, rfl, rfl, rfl, rfl⟩,
    ⟨running_of _ rfl rfl, rfl, rfl, rfl, rfl, rfl, rfl, rfl, rfl⟩⟩

/-- With exactly one frame queued. -/
theorem witness_FullFlushSendsOneFrame :
    let s := { at' .flush (mains 14) with writeReady := true, egress := List.replicate 8 7#8 }
    Running s ∧ s.pendingCall = none ∧ s.uops = [] ∧ s.mainPhase = .flush ∧ s.writeReady = true ∧ s.hostFrame = []
      ∧ s.cfg.egressFrame ≤ s.egress.length ∧ s.moves = mains (s.cfg.egressFrame + 6) ++ [] :=
  ⟨running_of _ rfl rfl, rfl, rfl, rfl, rfl, rfl, by decide, rfl⟩

/-- One tick past the threshold, with a byte of BUSRX after the first byte written and one before the commit
(EG-08), so that the queue has a frame's worth of bytes during the flush. -/
theorem witness_PartialFlushSendsExactlyTheSnapshot :
    let sched : List Move := [.main, .busRx 1#8] ++ mains 6 ++ [.busRx 2#8] ++ mains 3
    let s := { at' .flush (mains 2 ++ sched) with
      writeReady := true, egress := List.replicate 7 7#8, sendTimer := 3 }
    Running s ∧ s.pendingCall = none ∧ s.uops = [] ∧ s.mainPhase = .flush ∧ s.writeReady = true ∧ s.hostFrame = []
      ∧ s.egress ≠ [] ∧ s.egress.length < s.cfg.egressFrame ∧ s.sendTimeout < s.sendTimer
      ∧ (∀ m ∈ sched, m = .main ∨ ∃ b, m = .busRx b) ∧ sched.count .main = s.egress.length + 3
      ∧ offered sched = [1#8, 2#8] ∧ (s.dir = .rx ∧ s.passthrough = true)
      ∧ s.egress.length + (offered sched).length ≤ s.cfg.egressCap ∧ s.moves = mains 2 ++ sched ++ [] :=
  ⟨running_of _ rfl rfl, rfl, rfl, rfl, rfl, rfl, by decide, by decide, by decide, by simp [mains], by decide, rfl,
    ⟨rfl, rfl⟩, by decide, rfl⟩

/-- One tick past the threshold, and at it. -/
theorem witness_TimeoutAbandonsThePartialFrame :
    let s := { at' .timeout [.main] with cstate := .seekSync2, scratch := [0xFF#8], rxTimer := 4 }
    Running s ∧ nextMove s = .main ∧ s.pendingCall = none ∧ s.uops = [] ∧ s.mainPhase = .timeout
      ∧ (after (step s)).map (·.cstate) = some .seekSync1
      ∧ (after (step { s with rxTimer := 3 })).map (·.cstate) = some .seekSync2 :=
  ⟨running_of _ rfl rfl, rfl, rfl, rfl, rfl, by decide, by decide⟩

theorem witness_PartialFrameNeverWedges :
    let ms := List.replicate 4 Move.tick ++ mains 5
    let s := { at' .waitConn ms with hostConnected := true, cstate := .seekSync2, scratch := [0xFF#8], rxTimer := 1 }
    Inv s ∧ stopReason s = none ∧ s.cfg.timerOvf = .saturate ∧ s.pendingCall = none ∧ s.uops = []
      ∧ s.mainPhase = .waitConn ∧ s.hostConnected = true ∧ s.hostIn = []
      ∧ s.moves = List.replicate (s.receiveTimeout + 1) .tick ++ mains 5 ++ [] :=
  ⟨inv_partial _, rfl, rfl, rfl, rfl, rfl, rfl, rfl, rfl⟩

/-! The statements about whole runs: a run that repeats itself from some state on. -/

/-- The run from `s` under a schedule, standing still where a step answers no next state. -/
def runFrom (sched : Nat → Move) (s : State) : Nat → State
  | 0 => s
  | n + 1 =>
      match step { runFrom sched s n with moves := [sched n] } with
      | .next t => t
      | _ => runFrom sched s n

/-- The schedule that makes the moves `pre` once and the moves `cycle` for ever. -/
def schedule (pre cycle : List Move) (n : Nat) : Move :=
  match pre[n]? with
  | some m => m
  | none => cycle.getD ((n - pre.length) % cycle.length) .tick

theorem schedule_add (pre cycle : List Move) {n : Nat} (h : pre.length ≤ n) :
    schedule pre cycle (n + cycle.length) = schedule pre cycle n := by
  have h1 : pre[n]? = none := List.getElem?_eq_none h
  have h2 : pre[n + cycle.length]? = none := List.getElem?_eq_none (by omega)
  simp only [schedule, h1, h2, Nat.sub_add_comm h, Nat.add_mod_right]

section
variable {pre cycle : List Move} {s : State} {N : Nat} (hN : pre.length ≤ N)
  (hrep : runFrom (schedule pre cycle) s (N + cycle.length) = runFrom (schedule pre cycle) s N)
include hN hrep

/-- Once a state comes back, the whole run does. -/
theorem runFrom_add {n : Nat} (hn : N ≤ n) :
    runFrom (schedule pre cycle) s (n + cycle.length) = runFrom (schedule pre cycle) s n := by
  induction n, hn using Nat.le_induction with
  | base => exact hrep
  | succ n hn ih => rw [Nat.add_right_comm, runFrom, runFrom, ih, schedule_add _ _ (by omega)]

theorem runFrom_mul {n : Nat} (hn : N ≤ n) (k : Nat) :
    runFrom (schedule pre cycle) s (n + k * cycle.length) = runFrom (schedule pre cycle) s n
      ∧ schedule pre cycle (n + k * cycle.length) = schedule pre cycle n := by
  induction k with
  | zero => simp
  | succ k ih =>
    rw [Nat.succ_mul, ← Nat.add_assoc, runFrom_add hN hrep (by omega), schedule_add _ _ (by omega)]
    exact ih

/-- What the run does at a state of its repeated part it does again and again. -/
theorem recurs (hc : 1 ≤ cycle.length) {P : State → Move → Prop} (n : Nat) (hn : N ≤ n)
    (hP : P (runFrom (schedule pre cycle) s n) (schedule pre cycle n)) (k : Nat) :
    ∃ m, k ≤ m ∧ P (runFrom (schedule pre cycle) s m) (schedule pre cycle m) := by
  obtain ⟨h1, h2⟩ := runFrom_mul hN hrep hn k
  refine ⟨n + k * cycle.length, ?_, by rwa [h1, h2]⟩
  exact Nat.le_trans (Nat.le_mul_of_pos_right k hc) (Nat.le_add_left _ _)

/-- What holds of the states from `K` to the first repetition, and of their moves, holds of all from `K` on. -/
theorem everywhere (hc : 1 ≤ cycle.length) {P : State → Move → Prop} {K : Nat} (hK : K ≤ N)
    (hP : ∀ n < N + cycle.length, K ≤ n → P (runFrom (schedule pre cycle) s n) (schedule pre cycle n)) (n : Nat)
    (hn : K ≤ n) : P (runFrom (schedule pre cycle) s n) (schedule pre cycle n) := by
  induction n using Nat.strong_induction_on with
  | _ n ih =>
    by_cases hlt : n < N + cycle.length
    · exact hP n hlt hn
    · obtain ⟨m, rfl⟩ : ∃ m, n = m + cycle.length := ⟨n - cycle.length, by omega⟩
      rw [runFrom_add hN hrep (by omega), schedule_add _ _ (by omega)]
      exact ih m (by omega) (by omega)

theorem isRun_of_repeats (hc : 1 ≤ cycle.length)
    (hP : ∀ n < N + cycle.length, (after (step { runFrom (schedule pre cycle) s n with
      moves := [schedule pre cycle n] })).isSome = true) :
    IsRun (schedule pre cycle) (runFrom (schedule pre cycle) s) := by
  intro n
  have h := everywhere hN hrep hc (P := fun u m => (after (step { u with moves := [m] })).isSome = true)
    (Nat.zero_le _) (fun n hn _ => hP n hn) n (Nat.zero_le _)
  rw [runFrom]
  revert h
  generalize step _ = r
  cases r <;> simp [after]

end

/-- A partial frame that has timed out, on a host that takes no bytes. -/
def lateFrame : State :=
  { at' .waitConn [] with
    hostConnected := true, cstate := .seekSync2, scratch := [0xFF#8], rxTimer := 255, sendTimer := 255, busTimer := 255 }

/-- One cycle in which the frame is abandoned, and the `tx_done` of its byte. -/
def latePre : List Move := mains 9 ++ [.env .txDone]

/-- For ever after: a tick and an idle cycle. -/
def lateCycle : List Move := .tick :: mains 6

theorem lateFrame_repeats : runFrom (schedule latePre lateCycle) lateFrame (17 + lateCycle.length)
    = runFrom (schedule latePre lateCycle) lateFrame 17 := by decide +kernel

theorem lateFrame_steps : ∀ n < 17 + lateCycle.length,
    (after (step { runFrom (schedule latePre lateCycle) lateFrame n with
      moves := [schedule latePre lateCycle n] })).isSome = true := by decide +kernel

/-- What the premises ask of single states. -/
def latePremises (s : State) (m : Move) : Prop :=
  s.pendingCall = none ∧ s.hostConnected = true ∧ (m = .main ∨ m = .tick ∨ m = .env .txDone)

theorem lateFrame_premises (n : Nat) :
    latePremises (runFrom (schedule latePre lateCycle) lateFrame n) (schedule latePre lateCycle n) := by
  refine everywhere (by decide) lateFrame_repeats (by decide) (Nat.zero_le _) ?_ n (Nat.zero_le _)
  unfold latePremises
  decide +kernel

theorem lateFrame_drained (n : Nat) (hn : 10 ≤ n) :
    (runFrom (schedule latePre lateCycle) lateFrame n).busTxPending = 0 := by
  refine everywhere (by decide) lateFrame_repeats (by decide) (K := 10) (P := fun s _ => s.busTxPending = 0) (by decide)
    ?_ n hn
  decide +kernel

theorem inv_lateFrame : Inv lateFrame :=
  { inv_partial [] with
    config := configOk_reset
    classifier := show classifierOk lateFrame = true by decide
    rxTimer := show 255 < 2 ^ 8 by decide
    sendTimer := show 255 < 2 ^ 8 by decide
    busTimer := show 255 < 2 ^ 8 by decide }

theorem witness_ClassifierIsIdleInTheEnd :
    let sched := schedule latePre lateCycle
    let tr := runFrom sched lateFrame
    IsRun sched tr ∧ Inv (tr 0) ∧ (tr 0).cfg.timerOvf = .saturate ∧ FairMain sched ∧ FairTick sched
      ∧ FairDrain sched tr ∧ FairCall tr ∧ FairConn tr ∧ (∀ m, 0 ≤ m → ∀ b, sched m ≠ .env (.hostByte b))
      ∧ (tr 0).cstate ≠ .seekSync1 := by
  refine ⟨isRun_of_repeats (by decide) lateFrame_repeats (by decide) lateFrame_steps, inv_lateFrame, rfl,
    recurs (by decide) lateFrame_repeats (by decide) (P := fun _ m => m = .main) 18 (by decide) (by decide),
    recurs (by decide) lateFrame_repeats (by decide) (P := fun _ m => m = .tick) 17 (by decide) (by decide),
    fun n hn => ⟨9, ?_, by decide⟩, fun n hn => absurd (lateFrame_premises n).1 hn,
    fun n => ⟨n, Nat.le_refl _, fun k _ _ => (lateFrame_premises k).2.1⟩, fun m _ b hb => ?_,
    fun h => nomatch (h : CState.seekSync2 = .seekSync1)⟩
  · by_contra hlt
    have := lateFrame_drained n (by omega)
    omega
  · have := (lateFrame_premises m).2.2
    simp [hb] at this

/-- One byte queued past its send timeout, timers of two bits. -/
def lateByte : State :=
  { at' .waitConn [] with
    cfg := { Config.rc with timerWidth := 2 }, receiveTimeout := 2, hostConnected := true, writeReady := true
    egress := [7#8], rxTimer := 3, sendTimer := 3, busTimer := 3 }

/-- The cycle that sends it, and three ticks. -/
def sendPre : List Move := mains 11 ++ List.replicate 3 .tick

/-- For ever after: a cycle with nothing to send, and a tick. -/
def sendCycle : List Move := mains 7 ++ [.tick]

theorem lateByte_repeats : runFrom (schedule sendPre sendCycle) lateByte (14 + sendCycle.length)
    = runFrom (schedule sendPre sendCycle) lateByte 14 := by decide +kernel

theorem lateByte_steps : ∀ n < 14 + sendCycle.length,
    (after (step { runFrom (schedule sendPre sendCycle) lateByte n with
      moves := [schedule sendPre sendCycle n] })).isSome = true := by decide +kernel

theorem lateByte_stream (n : Nat) : hostStream (runFrom (schedule sendPre sendCycle) lateByte n) = [7#8] := by
  refine everywhere (by decide) lateByte_repeats (by decide) (K := 0) (P := fun s _ => hostStream s = [7#8]) (Nat.zero_le _)
    ?_ n (Nat.zero_le _)
  decide +kernel

theorem inv_lateByte : Inv lateByte :=
  { inv_at .waitConn [] with
    config := by decide
    classifier := show classifierOk lateByte = true by decide
    rxTimer := show 3 < 2 ^ 2 by decide
    sendTimer := show 3 < 2 ^ 2 by decide
    busTimer := show 3 < 2 ^ 2 by decide
    egress := show 1 ≤ 64 by decide
    flushes := Nat.zero_le _
    packets := by
      intro k p h
      simp [lateByte, at', State.reset] at h }

theorem witness_ShortQueueIsSentInTheEnd :
    let sched := schedule sendPre sendCycle
    let tr := runFrom sched lateByte
    IsRun sched tr ∧ Inv (tr 0) ∧ (tr 0).cfg.timerOvf = .saturate ∧ FairMain sched ∧ FairTick sched
      ∧ FairReady sched tr ∧ (tr 0).mainPhase ≠ .flush ∧ (tr 0).egress ≠ []
      ∧ (tr 0).egress.length < (tr 0).cfg.egressFrame ∧ (∀ m, 0 ≤ m → hostStream (tr m) = hostStream (tr 0)) :=
  ⟨isRun_of_repeats (by decide) lateByte_repeats (by decide) lateByte_steps, inv_lateByte, rfl,
    recurs (by decide) lateByte_repeats (by decide) (P := fun _ m => m = .main) 14 (by decide) (by decide),
    recurs (by decide) lateByte_repeats (by decide) (P := fun _ m => m = .tick) 21 (by decide) (by decide),
    recurs (by decide) lateByte_repeats (by decide)
      (P := fun s m => s.mainPhase = .flush ∧ s.uops = [] ∧ m = .main ∧ s.writeReady = true) 19 (by decide) (by decide +kernel),
    (fun h => nomatch (h : MainPhase.waitConn = .flush)), List.cons_ne_nil _ _, show 1 < 8 by decide,
    fun m _ => lateByte_stream m⟩

end Sys2Proof.Tests
end

/-! The proofs of 00_scope.md's family: every part of the step keeps the invariant, and so every step does (O27).
The inversion lemmas of Laws/Step.lean give the effects; each part below goes through its effects one by one. -/

namespace Sys2Proof.Machine

open Sys2Proof

section

variable {s t : State}

/-! ### MAIN's work -/

/-- Work without a flush owes no commit (41_egress.md R166). -/
theorem writesCommitted_of_no_flush {us : List Uop} (h : flushesPending us = 0) : writesCommitted us = true := by
  simpa using writesCommitted_append (vs := []) h rfl

/-- New work between flushes: what is laid out belongs to the phase, has its bytes in the queue, and commits them. -/
theorem inv_newWork {us : List Uop} {p : MainPhase} (h : Inv s) (hp : s.pendingCall = none) (hh : s.hostFrame = [])
    (hf : flushesPending us ≤ s.egress.length) (hc : writesCommitted us = true) (hd : ∀ k q, Uop.dispatch k q ∉ us)
    (hw : workOk p us = true) : Inv { s with uops := us, mainPhase := p } :=
  { h with
    flushes := hf
    commits := hc
    uncommitted := .inr hh
    packets := fun k q hm => absurd hm (hd k q)
    work := hw
    callPhase := fun hne => absurd hp hne }

/-- With no work left MAIN may go on in any phase (43_service_timeout.md R200). -/
theorem inv_enterPhase (h : Inv s) (hp : s.pendingCall = none) (hu : s.uops = []) (p : MainPhase) :
    Inv { s with mainPhase := p } :=
  { h with
    work := by
      show workOk p s.uops = true
      rw [hu]
      rfl
    callPhase := fun hne => absurd hp hne }

/-- Taking a micro-operation off (43_service_timeout.md R201), where the bytes `frame` written to the host after it
are committed later or none. -/
theorem inv_takeUop {u : Uop} {rest : List Uop} {frame : List Byte} (h : Inv s) (hp : s.pendingCall = none)
    (hu : s.uops = u :: rest) (hh : Uop.hostCommit ∈ rest ∨ frame = []) :
    Inv { s with uops := rest, hostFrame := frame } where
  __ := h
  flushes := by
    have := flushesPending_tail s.uops
    rw [hu] at this
    exact this.trans (hu ▸ h.flushes)
  commits := by
    have := writesCommitted_tail h.commits
    rwa [hu] at this
  uncommitted := hh
  packets := fun k q hm => h.packets k q (hu ▸ List.mem_cons_of_mem _ hm)
  work := workOk_tail (hu ▸ h.work)
  callPhase := fun hne => absurd hp hne

/-- A micro-operation other than the commit leaves the commit that is owed in the work after it. -/
theorem uncommitted_tail {u : Uop} {rest : List Uop} (h : Inv s) (hu : s.uops = u :: rest) (hne : u ≠ .hostCommit) :
    Uop.hostCommit ∈ rest ∨ s.hostFrame = [] := by
  have := h.uncommitted
  simpa [hu, hne.symm] using this

/-- The commit of a flushed byte stands after it (41_egress.md R166, R167). -/
theorem hostCommit_after_flushByte {rest : List Uop} (h : Inv s) (hu : s.uops = .flushByte :: rest) :
    Uop.hostCommit ∈ rest := by
  have := h.commits
  simp only [hu, writesCommitted, Bool.and_eq_true, List.contains_iff_mem] at this
  exact this.1

/-! ### The flush -/

theorem flushBytes_precede (n : Nat) : ∀ u ∈ List.replicate n Uop.flushByte, mayPrecede .flush u = true :=
  fun _ hu => List.eq_of_mem_replicate hu ▸ rfl

/-- A flush of `n` queued bytes, its other micro-operations `us` standing after them (41_egress.md R166, R167). -/
theorem inv_flush {us : List Uop} (n : Nat) (h : Inv s) (hm : s.mainPhase = .flush) (hp : s.pendingCall = none)
    (hu : s.uops = []) (hn : n ≤ s.egress.length) (hf : flushesPending us = 0) (hc : Uop.hostCommit ∈ us)
    (hd : ∀ k q, Uop.dispatch k q ∉ us) (hw : workOk .flush us = true) :
    Inv { s with uops := List.replicate n .flushByte ++ us ++ s.uops } := by
  have hwork : workOk s.mainPhase (List.replicate n .flushByte ++ us) = true := by
    rw [hm]
    exact workOk_append (flushBytes_precede n) (List.ne_nil_of_mem hc) hw
  rw [hu, List.append_nil]
  exact inv_newWork h hp (hostFrame_of_no_uops h hu) (by simpa [flushesPending_append, hf] using hn)
    (writesCommitted_flush n hc (writesCommitted_of_no_flush hf)) (by simp [hd]) hwork

/-- Each case of the flush policy keeps the invariant (41_egress.md R164 to R169). -/
theorem inv_tryFlush (h : Inv s) (hm : s.mainPhase = .flush) (hp : s.pendingCall = none) (hu : s.uops = []) :
    Inv (tryFlush s) := by
  rcases tryFlush_cases s with ⟨hn, he⟩ | ⟨-, -, -, he⟩ | ⟨-, -, he⟩ | he <;> rw [he]
  · exact inv_flush _ h hm hp hu hn rfl (by simp) (by simp) rfl
  · exact inv_flush _ h hm hp hu (Nat.le_refl _) rfl (by simp) (by simp) rfl
  · exact inv_flush 0 h hm hp hu (Nat.zero_le _) rfl (by simp) (by simp) rfl
  · exact inv_enterPhase h hp hu .waitConn

/-! ### Micro-operations -/

/-- A micro-operation keeps the invariant: it is taken off, unless it holds or faults, and the two that go on to other
work, `tryFlush` and `enterPhase`, stand last (43_service_timeout.md R201). -/
theorem inv_uop {u : Uop} {rest : List Uop} (h : Inv s) (hs : stopReason s = none) (hp : s.pendingCall = none)
    (hu : s.uops = u :: rest) (he : UopEffect s rest u t) : Inv t := by
  obtain ⟨hfault, hhalt⟩ := stopReason_eq_none_iff.1 hs
  have htake (hne : u ≠ .hostCommit) : Inv { s with uops := rest } :=
    inv_takeUop h hp hu (uncommitted_tail h hu hne)
  have hwork : workOk s.mainPhase (u :: rest) = true := hu ▸ h.work
  cases he with
  | hold b hf => exact h
  | busWrite b hf => exact inv_sendBus b (htake nofun) hf
  | overflow b hf => exact inv_raise h hhalt _
  | enqueue b hf => exact inv_pushEgress (htake nofun) b hf
  | reject r => exact { htake nofun with }
  | countInput => exact { htake nofun with counted := Nat.le_refl _ }
  | tryFlush =>
    obtain ⟨rfl, hend⟩ := workOk_last hwork (by cases s.mainPhase <;> rfl)
    have hm : s.mainPhase = .flush := by cases hm : s.mainPhase <;> simp_all [mayEnd]
    exact inv_tryFlush (htake nofun) hm hp rfl
  | flushByte b q hq =>
    have hc := hostCommit_after_flushByte h hu
    have hle : flushesPending rest + 1 ≤ q.length + 1 := by
      simpa [hu, hq, flushesPending] using h.flushes
    have hcap : q.length + 1 ≤ s.cfg.egressCap := by simpa [hq] using h.egress
    exact { inv_takeUop (frame := s.hostFrame ++ [b]) h hp hu (.inl hc) with
      egress := Nat.le_of_succ_le hcap
      flushes := Nat.le_of_succ_le_succ hle }
  | hostCommit => exact { inv_takeUop h hp hu (.inr rfl) with }
  | resetSendTimer => exact { htake nofun with sendTimer := Nat.two_pow_pos _ }
  | oweEmptyFrame => exact { htake nofun with }
  | clearEmptyFrame => exact { htake nofun with }
  | restart b => exact inv_restartBlock (htake nofun) hfault
  | enterPhase p =>
    obtain ⟨rfl, -⟩ := workOk_last hwork (by cases s.mainPhase <;> rfl)
    exact inv_enterPhase (htake nofun) hp rfl p

/-! ### The classifier's transitions -/

/-- A transition from a phase with no work left keeps the invariant where it keeps the classifier's registers
(40_classifier.md R110, R131). -/
theorem inv_of_consumeFrame (h : Inv s) (hm : s.mainPhase = .consume) (hp : s.pendingCall = none) (hu : s.uops = [])
    (hf : ConsumeFrame s t) (hcl : classifierOk t = true)
    (hd : ∀ k p, Uop.dispatch k p ∈ t.uops → packetOk s.cfg k p = true) : Inv t := by
  obtain ⟨heq, hflushes, hwork⟩ := hf
  have hcommit := writesCommitted_of_no_flush hflushes
  have hcounted : s.consumeLeft - 1 ≤ s.hostIn.tail.length := by
    have := h.counted
    rw [List.length_tail]
    omega
  have hframe := hostFrame_of_no_uops h hu
  rw [heq] at hcl ⊢
  exact { h with
    classifier := hcl
    rxTimer := Nat.two_pow_pos _
    flushes := hflushes.le.trans (Nat.zero_le _)
    commits := hcommit
    uncommitted := .inr hframe
    packets := hd
    counted := hcounted
    work := by
      show workOk s.mainPhase t.uops = true
      rw [hm]
      exact hwork
    callPhase := fun hne => absurd hp hne }

theorem inv_consume {b : Byte} (h : Inv s) (hm : s.mainPhase = .consume) (hp : s.pendingCall = none)
    (hu : s.uops = []) (hc : consume b s = .next t) : Inv t := by
  have hwf := configOk_wf h.config
  have hshape := classifierOk_shape h.classifier
  obtain ⟨t', hc', hspec⟩ := consume_spec hwf hshape b
  obtain rfl : t = t' := by simpa [hc] using hc'
  have hroom : scratchFull s = false := by simpa [scratchFull] using hshape.room hwf
  rcases consume_next hc with ⟨hfull, -⟩ | hframe
  · simp [hroom] at hfull
  · exact inv_of_consumeFrame h hm hp hu hframe hspec.classifier fun k p hmem => (hspec.packets k p hmem).2

/-! ### Phases -/

/-- The abandonment of a partial frame leaves the classifier idle and relays as its work (43_service_timeout.md
R206). -/
theorem inv_abandon (h : Inv s) (hm : s.mainPhase = .timeout) (hp : s.pendingCall = none) (hu : s.uops = []) :
    Inv (abandon s) := by
  have hprecede : ∀ u ∈ Uop.reject .rxTimeout :: s.scratch.map .busWrite, mayPrecede .timeout u = true :=
    List.forall_mem_cons.2 ⟨rfl, busWrites_precede rfl _⟩
  have hflushes : flushesPending (Uop.reject .rxTimeout :: s.scratch.map .busWrite ++ [.enterPhase .flush]) = 0 := by
    simp [flushesPending, flushesPending_append]
  have hwork : workOk s.mainPhase (Uop.reject .rxTimeout :: s.scratch.map .busWrite ++ [.enterPhase .flush]) = true := by
    rw [hm]
    exact workOk_append hprecede (by simp) rfl
  exact { inv_newWork h hp (hostFrame_of_no_uops h hu) (hflushes.le.trans (Nat.zero_le _))
      (writesCommitted_of_no_flush hflushes) (by simp) hwork with
    classifier := rfl }

theorem inv_returnToReceive (h : Inv s) : Inv (returnToReceive s) := by
  rcases returnToReceive_cases s with he | ⟨-, hp, he⟩ <;> rw [he]
  · exact h
  · exact { h with listening := fun _ => hp }

theorem returnToReceive_pendingCall (s : State) : (returnToReceive s).pendingCall = s.pendingCall := by
  rcases returnToReceive_cases s with he | ⟨-, -, he⟩ <;> rw [he]

theorem returnToReceive_uops (s : State) : (returnToReceive s).uops = s.uops := by
  rcases returnToReceive_cases s with he | ⟨-, -, he⟩ <;> rw [he]

theorem inv_phase (h : Inv s) (hp : s.pendingCall = none) (hu : s.uops = []) (he : PhaseEffect s t) : Inv t := by
  have hframe := hostFrame_of_no_uops h hu
  cases he with
  | hold _ _ => exact h
  | connected _ _ => exact inv_enterPhase h hp hu _
  | rxReturn _ =>
    have hr := inv_returnToReceive h
    exact inv_newWork hr ((returnToReceive_pendingCall s).trans hp)
      (hostFrame_of_no_uops hr ((returnToReceive_uops s).trans hu)) (Nat.zero_le _) rfl (by simp) rfl
  | consumed _ _ => exact inv_enterPhase h hp hu _
  | consume hm _ b q _ hc => exact inv_consume h hm hp hu hc
  | abandon hm _ => exact inv_abandon h hm hp hu
  | inTime _ _ => exact inv_enterPhase h hp hu _
  | flush hm _ => exact inv_newWork h hp hframe (Nat.zero_le _) rfl (by simp) (by rw [hm]; rfl)
  | notReady _ _ => exact inv_enterPhase h hp hu _
  | dispatched _ => exact inv_enterPhase h hp hu _

/-! ### Instructions -/

/-- Where MAIN runs an instruction, nothing else is left to do and nothing is uncommitted (43_service_timeout.md
R201, R202). -/
theorem fetch_alone {i : Instr} (h : Inv s) (hf : fetch s = some i) : s.uops.tail = [] ∧ s.hostFrame = [] := by
  rcases fetch_uops hf with hu | ⟨k, p, rest, hu⟩
  · exact ⟨by simp [hu], hostFrame_of_no_uops h hu⟩
  · obtain ⟨hrest, -, hframe⟩ := dispatch_alone h hu
    exact ⟨by simpa [hu] using hrest, hframe⟩

/-- An instruction that calls out holds MAIN with the end `u` of the dispatch still to do (44_dispatch.md R221). -/
theorem inv_dispatchCall {u : Uop} (c : Call) (h : Inv (beginDispatch [u] s)) (hp : s.pendingCall = none) :
    Inv (issueCall c (beginDispatch [u] s)) :=
  inv_issueCall h rfl (by simp [beginDispatch]) (passthrough_of_no_call h hp) (executorHold_of_no_call h hp)

theorem inv_exec {i : Instr} (h : Inv s) (hs : stopReason s = none) (hp : s.pendingCall = none)
    (hf : fetch s = some i) (he : ExecEffect s i t) : Inv t := by
  obtain ⟨hfault, hhalt⟩ := stopReason_eq_none_iff.1 hs
  obtain ⟨htail, hframe⟩ := fetch_alone h hf
  have hbegin {us : List Uop} (hfl : flushesPending us = 0) (hd : ∀ k p, Uop.dispatch k p ∉ us)
      (hw : workOk .dispatch us = true) : Inv (beginDispatch us s) :=
    inv_beginDispatch h hp htail hframe hfl hd hw
  cases he with
  | shape _ => exact inv_raise h hhalt _
  | status _ err =>
    exact hbegin (by simp [emitStatus, flushesPending_append, flushesPending]) (by simp [emitStatus])
      (workOk_append (enqueues_precede rfl _) (by simp) rfl)
  | call _ c => exact inv_dispatchCall c (hbegin rfl (by simp) rfl) hp
  | erase len => exact inv_dispatchCall _ (hbegin rfl (by simp) rfl) hp
  | restart len => exact inv_restartBlock (hbegin rfl (by simp) rfl) hfault
  | rejectFull id len code _ => exact inv_raise h hhalt _
  | reject id len code =>
    obtain ⟨hu, -, -, hm⟩ := fetch_reject hf
    exact inv_of_consumeFrame h hm hp hu (resync_frame .badInstr [] rfl (by simp)) (classifierOk_resync _ _)
      (by simp [resync, appended, received])

theorem inv_mainStep (h : Inv s) (hs : stopReason s = none) (hm : mainStep s = .next t) : Inv t := by
  rcases mainStep_next hm with ⟨i, hf, hp, he⟩ | ⟨-, rfl⟩ | ⟨u, rest, hp, hu, he⟩ | ⟨hp, hu, he⟩
  · exact inv_exec h hs hp hf he
  · exact h
  · exact inv_uop h hs hp hu he
  · exact inv_phase h hp hu he

/-! ### ENV -/

/-- The transmitter without its oldest byte, before the executor's held request is tested again (42_arbiter.md R182,
R184). -/
theorem inv_drained (h : Inv s) : Inv { s with busTxPending := s.busTxPending - 1, executorHold := none } :=
  { h with
    busTx := (Nat.sub_le _ _).trans h.busTx
    listening := fun hd => by simp [h.listening hd]
    held := fun hne => absurd rfl hne }

/-- An executor that may move does not hold, so its bus request starts from the invariant (44_dispatch.md R222). -/
theorem inv_executorRequest {r : BusRequest} (h : Inv s) (hf : executorFree s = true) (he : RequestEffect s r t) :
    Inv t :=
  inv_request { h with held := fun hne => absurd rfl hne } (executorFree_iff.1 hf).1 he

/-- A call's return puts its bytes before the work that MAIN left, which is work of DISPATCH (44_dispatch.md
R221). -/
theorem inv_ret (bs : List Byte) (h : Inv s) (hc : s.pendingCall ≠ none)
    (ha : inAggregatedRead s = true → s.passthrough = true ∧ s.executorHold = none) :
    Inv { s with pendingCall := none, uops := bs.map .enqueue ++ s.uops } := by
  obtain ⟨hm, hu⟩ := h.callPhase hc
  have hwork : workOk s.mainPhase (bs.map .enqueue ++ s.uops) = true := by
    have := h.work
    rw [hm] at this ⊢
    exact workOk_append (enqueues_precede rfl bs) hu this
  exact { h with
    flushes := by simpa [flushesPending_append] using h.flushes
    commits := writesCommitted_append (flushesPending_map_enqueue bs) h.commits
    uncommitted := h.uncommitted.imp_left (List.mem_append_right _)
    packets := fun k p hmem => h.packets k p (by simpa using hmem)
    work := hwork
    callPhase := fun hne => absurd rfl hne
    held := fun hne => absurd (ha (h.held hne).1).2 hne
    modeFlag := fun hpt => absurd ((ha (h.modeFlag hpt)).1.symm.trans hpt) nofun }

theorem inv_env {e : EnvMove} (h : Inv s) (hs : stopReason s = none) (he : EnvEffect s e t) : Inv t := by
  cases he with
  | txDone _ hh => exact { inv_drained h with held := fun hne => absurd hh hne }
  | release r _ hh hr =>
    exact inv_request (s := { s with busTxPending := s.busTxPending - 1 }) (inv_drained h) (h.held (by simp [hh])).1 hr
  | hostByte b => exact { h with counted := h.counted.trans (by simp) }
  | setConnected v => exact { h with }
  | setWriteReady v => exact { h with }
  | setTimeouts r w hr hw => exact { h with config := by simp [configOk, configOk_wf h.config, hr, hw] }
  | modeSet v hf => exact { h with modeFlag := fun _ => (executorFree_iff.1 hf).1 }
  | dirTransmit _ => exact { h with listening := nofun }
  | dirReceive hf hr => exact inv_executorRequest h hf hr
  | executorWrite hf b hr => exact inv_executorRequest h hf hr
  | clearCapture _ => exact { h with cap := Nat.zero_le _ }
  | oversize r => exact inv_raise h (stopReason_eq_none_iff.1 hs).2 _
  | ret r bs hc ha => exact inv_ret bs h hc ha

/-! ### The step -/

/-- Each agent keeps the invariant, and so does taking its move off the schedule. -/
theorem inv_step (h : Inv s) (hstep : step s = .next t) : Inv t := by
  obtain ⟨⟨hs, -⟩, hagent⟩ := step_next hstep
  have htaken := inv_takeMove h
  have hs' : stopReason (takeMove s) = none := stopReason_takeMove.trans hs
  rcases hagent with ⟨-, hm⟩ | ⟨-, rfl⟩ | ⟨b, -, rfl⟩ | ⟨e, -, he⟩
  · exact inv_mainStep htaken hs' hm
  · exact inv_tick htaken
  · exact inv_busRx b htaken (stopReason_eq_none_iff.1 hs').2
  · exact inv_env htaken hs' he

end

/-- Settles O27: it holds, agent by agent, through the effect of each part of the step. -/
theorem everyStepKeepsTheInvariant : Obligations.EveryStepKeepsTheInvariant := fun _ _ => inv_step

end Sys2Proof.Machine

/-! The proofs of 10_state.md's family: the codes of the registers and records (O5), what the agents other than MAIN
may write (O39), and the growth of the output histories, effect by effect (O34). -/

namespace Sys2Proof.Machine

open Sys2Proof

section

variable {s t : State}

/-! ### Codes -/

/-- A classifier state's code names that state (10_state.md R20). -/
theorem cstateOfCode_code (c : CState) : cstateOfCode c.code = some c := by
  cases c <;> rfl

/-- The table of the ten classifier states ends at code 9 (10_state.md R20). -/
theorem cstateOfCode_eq_none_iff (v : BitVec 4) : cstateOfCode v = none ↔ 10 ≤ v.toNat :=
  List.getElem?_eq_none_iff

/-! ### The steps that are not MAIN's -/

/-- What a move of ENV may write (42_arbiter.md R184, R187, R192; 44_dispatch.md R221 to R223). -/
theorem EnvEffect.writes {e : EnvMove} (he : EnvEffect s e t) : t = { s with
    dir := t.dir
    busTxPending := t.busTxPending
    busOut := t.busOut
    executorHold := t.executorHold
    passthrough := t.passthrough
    cap := t.cap
    receiveTimeout := t.receiveTimeout
    sendTimeout := t.sendTimeout
    hostIn := t.hostIn
    hostConnected := t.hostConnected
    writeReady := t.writeReady
    pendingCall := t.pendingCall
    uops := t.uops
    fault := t.fault } := by
  cases he with
  | release r _ _ hr => rw [hr.writes]
  | dirReceive _ hr => rw [hr.writes]
  | executorWrite _ b hr => rw [hr.writes]
  | _ => rfl

/-- What TICK, BUSRX and ENV may write, taken together: the timers, the bus and its buffers, the ports, the fault
record, and, where a call returns, MAIN's work; nothing else but the schedule. -/
theorem step_writes_of_ne_main (h : step s = .next t) (hne : nextMove s ≠ .main) : t = { s with
    rxTimer := t.rxTimer
    sendTimer := t.sendTimer
    busTimer := t.busTimer
    egress := t.egress
    dir := t.dir
    busTxPending := t.busTxPending
    busOut := t.busOut
    executorHold := t.executorHold
    passthrough := t.passthrough
    cap := t.cap
    receiveTimeout := t.receiveTimeout
    sendTimeout := t.sendTimeout
    hostIn := t.hostIn
    hostConnected := t.hostConnected
    writeReady := t.writeReady
    pendingCall := t.pendingCall
    uops := t.uops
    fault := t.fault
    moves := t.moves
    fresh := t.fresh } := by
  obtain ⟨-, ⟨hmain, -⟩ | ⟨-, rfl⟩ | ⟨b, -, rfl⟩ | ⟨e, -, he⟩⟩ := step_next h
  · exact absurd hmain hne
  · rfl
  · rw [busRx_writes]
    rfl
  · rw [he.writes]
    rfl

/-- No step writes the configuration (00_scope.md R11). -/
theorem step_cfg (h : step s = .next t) : t.cfg = s.cfg := by
  by_cases hmain : nextMove s = .main
  · rw [step_of_running (step_next h).1, hmain] at h
    exact mainStep_cfg (s := takeMove s) h
  · rw [step_writes_of_ne_main h hmain]

/-! ### The output histories -/

/-- The list keeps what it held and gains at most one entry, at its end. -/
def GainsAtMostOne {α : Type} (old new : List α) : Prop := ∃ added, new = old ++ added ∧ added.length ≤ 1

theorem GainsAtMostOne.refl {α : Type} (l : List α) : GainsAtMostOne l l := ⟨[], by simp, Nat.zero_le 1⟩

theorem GainsAtMostOne.snoc {α : Type} (l : List α) (a : α) : GainsAtMostOne l (l ++ [a]) :=
  ⟨[a], rfl, Nat.le_refl 1⟩

/-- Each output history of 10_state.md R39 keeps what it held and gains at most one entry. -/
structure HistoriesGrow (s t : State) : Prop where
  busOut : GainsAtMostOne s.busOut t.busOut
  hostOut : GainsAtMostOne s.hostOut t.hostOut
  calls : GainsAtMostOne s.calls t.calls
  rejects : GainsAtMostOne s.rejects t.rejects

theorem HistoriesGrow.refl (s : State) : HistoriesGrow s s := ⟨.refl _, .refl _, .refl _, .refl _⟩

/-- An instruction records at most a call (44_dispatch.md R221). -/
theorem ExecEffect.histories {i : Instr} (he : ExecEffect s i t) : HistoriesGrow s t := by
  cases he with
  | call _ c => exact { HistoriesGrow.refl s with calls := .snoc _ _ }
  | erase len => exact { HistoriesGrow.refl s with calls := .snoc _ _ }
  | restart len => exact { HistoriesGrow.refl s with calls := .snoc _ _ }
  | _ => exact { HistoriesGrow.refl s with }

/-- Four micro-operations write a history, each one entry of its own (43_service_timeout.md R201). -/
theorem UopEffect.histories {u : Uop} {rest : List Uop} (he : UopEffect s rest u t) : HistoriesGrow s t := by
  cases he with
  | busWrite b _ => exact { HistoriesGrow.refl s with busOut := .snoc _ _ }
  | hostCommit => exact { HistoriesGrow.refl s with hostOut := .snoc _ _ }
  | restart b => exact { HistoriesGrow.refl s with calls := .snoc _ _ }
  | reject r => exact { HistoriesGrow.refl s with rejects := .snoc _ _ }
  | tryFlush =>
    rw [tryFlush_writes]
    exact { HistoriesGrow.refl s with }
  | _ => exact { HistoriesGrow.refl s with }

/-- Between micro-operations MAIN writes no history: a transition leaves its output to `uops` (40_classifier.md
R110). -/
theorem PhaseEffect.histories (he : PhaseEffect s t) : HistoriesGrow s t := by
  cases he with
  | rxReturn _ =>
    rcases returnToReceive_cases s with h | ⟨-, -, h⟩ <;> rw [h] <;> exact { HistoriesGrow.refl s with }
  | consume _ _ b q _ hc =>
    rcases consume_next hc with ⟨-, rfl⟩ | hframe
    · exact { HistoriesGrow.refl s with }
    · rw [hframe.eq]
      exact { HistoriesGrow.refl s with }
  | _ => exact { HistoriesGrow.refl s with }

theorem mainStep_histories (hm : mainStep s = .next t) : HistoriesGrow s t := by
  rcases mainStep_next hm with ⟨i, -, -, hi⟩ | ⟨-, rfl⟩ | ⟨u, rest, -, -, hu⟩ | ⟨-, -, hp⟩
  · exact hi.histories
  · exact .refl _
  · exact hu.histories
  · exact hp.histories

/-- A bus request records the byte it hands over, and nothing where the executor holds (42_arbiter.md R183). -/
theorem RequestEffect.histories {r : BusRequest} (h : RequestEffect s r t) : HistoriesGrow s t := by
  cases h with
  | sent b _ => exact { HistoriesGrow.refl s with busOut := .snoc _ _ }
  | _ => exact { HistoriesGrow.refl s with }

/-- ENV writes a history only through the executor's bus requests (44_dispatch.md R222). -/
theorem EnvEffect.histories {e : EnvMove} (he : EnvEffect s e t) : HistoriesGrow s t := by
  cases he with
  | release r _ _ hr => exact { hr.histories with }
  | dirReceive _ hr => exact hr.histories
  | executorWrite _ b hr => exact hr.histories
  | _ => exact { HistoriesGrow.refl s with }

theorem busRx_histories (b : Byte) (s : State) : HistoriesGrow s (busRx b s) := by
  rw [busRx_writes]
  exact { HistoriesGrow.refl s with }

/-- Every agent's step lets each history grow by at most one entry (10_state.md R39). -/
theorem step_histories (h : step s = .next t) : HistoriesGrow s t := by
  obtain ⟨-, ⟨-, hm⟩ | ⟨-, rfl⟩ | ⟨b, -, rfl⟩ | ⟨e, -, he⟩⟩ := step_next h
  · exact { mainStep_histories hm with }
  · exact { HistoriesGrow.refl s with }
  · exact { busRx_histories b (takeMove s) with }
  · exact { he.histories with }

end

/-- Settles O5: it holds; the codes are read off the tables, and the table of states has ten entries. -/
theorem registerAndRecordCodes : Obligations.RegisterAndRecordCodes :=
  ⟨rfl, cstateOfCode_code, cstateOfCode_eq_none_iff, rfl, rfl, rfl, rfl⟩

/-- Settles O39: it holds, since none of these fields is among those the other agents may write. -/
theorem onlyMainWritesTheClassifier : Obligations.OnlyMainWritesTheClassifier := by
  intro s t h hne
  rw [step_writes_of_ne_main h hne]
  exact ⟨rfl, rfl, rfl, rfl, rfl, rfl, rfl, rfl, rfl, rfl, rfl, rfl, rfl⟩

/-- Settles O34: it holds, agent by agent, through the histories each effect writes. -/
theorem historiesOnlyGrow : Obligations.HistoriesOnlyGrow := by
  intro s t h
  obtain ⟨hbus, hhost, hcalls, hrejects⟩ := step_histories h
  exact ⟨hbus, hhost, hcalls, hrejects, step_cfg h⟩

end Sys2Proof.Machine

/-! The proof of 20_memory.md's family: the drain schedule relays one byte in two moves, MAIN's hand-over and its
`tx_done`, and leaves the transmitter empty for the next (O50). -/

namespace Sys2Proof.Machine

open Sys2Proof

section

variable {s : State} {b : Byte}

/-- A well-formed transmitter holds at least one byte, so an empty one has room (00_scope.md R12; 42_arbiter.md
R183). -/
theorem busTxFull_of_drained (hr : Running s) (h0 : s.busTxPending = 0) : busTxFull s = false := by
  obtain ⟨-, -, -, -, -, -, -, -, -, hdepth⟩ := s.cfg.wf_iff.1 (configOk_wf hr.2)
  simpa [busTxFull, h0] using Nat.pos_iff_ne_zero.1 hdepth

/-- Where a micro-operation other than a dispatch stands first, MAIN performs it (43_service_timeout.md R201). -/
theorem mainStep_uop {u : Uop} {rest : List Uop} (hp : s.pendingCall = none) (hu : s.uops = u :: rest)
    (hd : ∀ k p, u ≠ .dispatch k p) : mainStep s = performUop u rest s := by
  have hfetch : fetch s = none := by
    cases u with
    | dispatch k p => exact absurd rfl (hd k p)
    | _ => simp [fetch, hp, hu]
  simp [mainStep, hfetch, mainMicroStep, hp, hu]

/-- MAIN's `BusWrite` with room hands the byte over (42_arbiter.md R183). -/
theorem mainStep_busWrite {rest : List Uop} (hp : s.pendingCall = none) (hu : s.uops = .busWrite b :: rest)
    (hf : busTxFull s = false) : mainStep s = .next (sendBus b { s with uops := rest }) := by
  have hroom : busTxFull { s with uops := rest } = false := hf
  rw [mainStep_uop hp hu nofun]
  simp [performUop, busWrite, hroom]

/-- `tx_done` while the executor does not hold takes one byte off the transmitter (42_arbiter.md R184). -/
theorem envMove_txDone (hpend : 1 ≤ s.busTxPending) (hh : s.executorHold = none) :
    envMove .txDone s = .next { s with busTxPending := s.busTxPending - 1 } := by
  simp [envMove, hpend, txDone, retryHeld, hh]

/-- One relayed byte under the drain schedule: it joins `bus_out`, and the transmitter is empty again (42_arbiter.md
R183, R184). -/
theorem runSteps_relayByte {rest : List Uop} {ms : List Move} (n : Nat) (hr : Running s) (hp : s.pendingCall = none)
    (hh : s.executorHold = none) (h0 : s.busTxPending = 0) (hu : s.uops = .busWrite b :: rest)
    (hm : s.moves = .main :: .env .txDone :: ms) :
    runSteps (n + 2) s =
      runSteps n { s with moves := ms, uops := rest, dir := .tx, busOut := s.busOut ++ [b] } := by
  let sent : State := sendBus b { s with moves := .env .txDone :: ms, uops := rest }
  have hmain : runMove .main { s with moves := .env .txDone :: ms } = .next sent :=
    mainStep_busWrite hp hu (busTxFull_of_drained hr h0)
  have hdone : runMove (.env .txDone) { sent with moves := ms } =
      .next { s with moves := ms, uops := rest, dir := .tx, busOut := s.busOut ++ [b] } := by
    refine (envMove_txDone (s := { sent with moves := ms }) (Nat.succ_pos s.busTxPending) hh).trans ?_
    simp [sent, sendBus, h0]
  calc runSteps (n + 2) s
    _ = runSteps (n + 1) sent := runSteps_cons (n + 1) hr hm hmain
    _ = _ := runSteps_cons n hr rfl hdone

end

/-- Settles O50: it holds, by induction on the relayed bytes, two moves for each. -/
theorem relayedBytesReachTheBusInOrder : Obligations.RelayedBytesReachTheBusInOrder := by
  intro s bs
  induction bs generalizing s with
  | nil =>
    intro rest ms _ _ _ _ hu hm
    obtain rfl : s.uops = rest := hu
    obtain rfl : s.moves = ms := hm
    simp [runSteps]
  | cons b bs ih =>
    intro rest ms hr hp hh h0 hu hm
    let relayed : State := { s with
      moves := bs.flatMap (fun _ => [.main, .env .txDone]) ++ ms
      uops := bs.map .busWrite ++ rest
      dir := .tx
      busOut := s.busOut ++ [b] }
    calc runSteps (2 * (b :: bs).length) s
      _ = runSteps (2 * bs.length) relayed := runSteps_relayByte (2 * bs.length) hr hp hh h0 hu hm
      _ = _ := ih relayed rest ms hr hp hh h0 rfl rfl
      _ = _ := by simp [relayed]

end Sys2Proof.Machine

/-! The proofs of 30_encoding.md's family. The decoder accepts a byte sequence exactly when it is the frame of a
well-formed instruction and what follows it (`decode_eq_ok_iff_encode`); the two directions are O2 and O1. The rest
is the checksum law (O3), the example frames (O4) and the status frame (O26). -/

namespace Sys2Proof

open Sys2Proof.Machine

section

variable {c : Config} {t : Target} {k : Kind} {i : Instr} {id len code : Byte} {bs rest params : List Byte}

/-! ### The instructions of a kind -/

/-- Every instruction is one of a confirm state, one with parameters whose length byte counts them, or the reject
row (30_encoding.md R87). -/
theorem Instr.cases_of_class (i : Instr) :
    (∃ k len, (k = .ping ∨ k = .reset ∨ k = .bootload) ∧ i = Kind.instr k .device len [])
      ∨ (∃ k t params, (k = .read ∨ k = .write ∨ k = .aggRead)
          ∧ i = Kind.instr k t (BitVec.ofNat 8 (params.length + 2)) params)
      ∨ ∃ id len code, i = .reject id len code := by
  cases i with
  | ping len => exact .inl ⟨.ping, len, by simp, rfl⟩
  | reset len => exact .inl ⟨.reset, len, by simp, rfl⟩
  | bootload len => exact .inl ⟨.bootload, len, by simp, rfl⟩
  | read t params => exact .inr (.inl ⟨.read, t, params, by simp, rfl⟩)
  | write t params => exact .inr (.inl ⟨.write, t, params, by simp, rfl⟩)
  | aggRead t params => exact .inr (.inl ⟨.aggRead, t, params, by simp, rfl⟩)
  | reject id len code => exact .inr (.inr ⟨id, len, code, rfl⟩)

theorem wf_instr_confirm (hk : k = .ping ∨ k = .reset ∨ k = .bootload) :
    (k.instr t len params).wf c = c.lengthRetained len.toNat := by
  rcases hk with rfl | rfl | rfl <;> rfl

theorem wf_instr_collect (hk : k = .read ∨ k = .write ∨ k = .aggRead) :
    (k.instr t len params).wf c = c.lengthRetained (params.length + 2) := by
  rcases hk with rfl | rfl | rfl <;> rfl

theorem encode_instr_confirm (hk : k = .ping ∨ k = .reset ∨ k = .bootload) :
    encode c (k.instr t len params) = frameBytes c.localId len (c.codeOf k) [] := by
  rcases hk with rfl | rfl | rfl <;> rfl

theorem encode_instr_collect (hk : k = .read ∨ k = .write ∨ k = .aggRead) :
    encode c (k.instr t len params)
      = frameBytes (c.idOf t) (BitVec.ofNat 8 (params.length + 2)) (c.codeOf k) params := by
  rcases hk with rfl | rfl | rfl <;> rfl

/-- The frame of a reject row is well-formed exactly when a retained frame with a legal length carries a code that
no rule admits (30_encoding.md R85 to R87). -/
theorem wf_reject_iff : (Instr.reject id len code).wf c = true ↔
    (id = c.localId ∨ id = c.broadcastId) ∧ c.lengthLegal len = true ∧ c.classOf id code = .rejected := by
  simp only [Instr.wf, Bool.and_eq_true, Bool.or_eq_true, beq_iff_eq, Bool.not_eq_true', c.lengthLegal_iff, and_assoc]
  exact and_congr_right fun hid => and_congr_right fun _ => (c.classOf_rejected_iff hid).symm

/-! ### Identifiers, lengths and frames -/

theorem Config.retained_iff (c : Config) (id : Byte) :
    (id = c.localId ∨ id = c.broadcastId) ↔ ∃ t, id = c.idOf t := by
  constructor
  · rintro (h | h)
    · exact ⟨.device, h⟩
    · exact ⟨.broadcast, h⟩
  · rintro ⟨t, rfl⟩
    cases t
    · exact .inl rfl
    · exact .inr rfl

theorem two_le_of_lengthLegal (h : c.lengthLegal len = true) : 2 ≤ len.toNat :=
  (of_decide_eq_true h).1

/-- A retained length fits its byte, since `MAX_AGG_DEVICES` is at most 252 (00_scope.md R12; 30_encoding.md R85). -/
theorem toNat_ofNat_of_lengthRetained (hc : c.wf = true) {l : Nat} (h : c.lengthRetained l = true) :
    (BitVec.ofNat 8 l).toNat = l := by
  obtain ⟨-, -, -, -, ⟨-, hmax⟩, -⟩ := c.wf_iff.1 hc
  have hle : l ≤ c.maxAggDevices + 3 := (of_decide_eq_true h).2
  exact Nat.mod_eq_of_lt (by omega)

theorem frameBytes_append (id len code : Byte) (params rest : List Byte) :
    frameBytes id len code params ++ rest
      = syncByte :: syncByte :: id :: len :: code
          :: (params ++ checksumOf (id :: len :: code :: params) :: rest) := by
  simp [frameBytes]

/-! ### What the decoder accepts -/

/-- The header the decoder accepts: two sync bytes, a retained identifier and a legal length (30_encoding.md R82,
R85, R86). -/
theorem decode_eq_ok_iff (hc : c.wf = true) {r : Instr × List Byte} :
    decode c bs = .ok r ↔ ∃ t len code body, bs = syncByte :: syncByte :: c.idOf t :: len :: code :: body
      ∧ c.lengthLegal len = true ∧ decodeBody c t (c.idOf t) len code body = .ok r := by
  constructor
  · intro h
    unfold decode at h
    split at h
    next s0 s1 id len code body =>
      cases ht : c.targetOf id with
      | none =>
        rw [ht] at h
        split_ifs at h
      | some t =>
        rw [ht] at h
        split_ifs at h with hs0 hs1 hid hlen
        obtain rfl := c.idOf_of_targetOf ht
        exact ⟨t, len, code, body, by rw [not_not.1 hs0, not_not.1 hs1], hlen, h⟩
    next => cases h
  · rintro ⟨t, len, code, body, rfl, hlen, h⟩
    simp [decode, c.idOf_ne_sync hc t, c.targetOf_idOf hc t, hlen, h]

theorem decodeBody_rejected (h : c.classOf id code = .rejected) :
    decodeBody c t id len code bs = .ok (.reject id len code, bs) := by
  simp only [decodeBody, h]

/-- After the code of a confirm state only the checksum byte is read (40_classifier.md R121, R123). -/
theorem decodeBody_confirm_iff (h : c.classOf id code = .confirm k) :
    decodeBody c t id len code bs = .ok (i, rest)
      ↔ i = k.instr t len [] ∧ bs = checksumOf [id, len, code] :: rest := by
  have hvalid (chk : Byte) := checksumValid_append [id, len, code] chk
  simp only [List.cons_append, List.nil_append] at hvalid
  cases bs with
  | nil => simp [decodeBody, h]
  | cons chk after =>
    simp only [decodeBody, h, hvalid, List.cons.injEq]
    split_ifs with hchk
    · simp [hchk, eq_comm]
    · simp [hchk]

/-- After the code of an instruction with parameters come as many of them as the length byte says, and the checksum
byte (30_encoding.md R82, R84; 40_classifier.md R128, R129). -/
theorem decodeBody_collect_iff (h : c.classOf id code = .collect k) (hlen : 2 ≤ len.toNat) :
    decodeBody c t id len code bs = .ok (i, rest)
      ↔ ∃ params, params.length + 2 = len.toNat ∧ i = k.instr t len params
          ∧ bs = params ++ checksumOf (id :: len :: code :: params) :: rest := by
  constructor
  · intro hd
    have hsplit := List.take_append_drop (len.toNat - 2) bs
    simp only [decodeBody, h] at hd
    split at hd
    next => cases hd
    next chk after hdrop =>
      split_ifs at hd with hchk
      cases hd
      rw [checksumValid_append] at hchk
      have hcount : len.toNat - 2 < bs.length := by
        have := congrArg List.length hdrop
        simp only [List.length_drop, List.length_cons] at this
        omega
      refine ⟨bs.take (len.toNat - 2), ?_, rfl, ?_⟩
      · rw [List.length_take]
        omega
      · rw [← hchk, ← hdrop, hsplit]
  · rintro ⟨params, hcount, rfl, rfl⟩
    have hn : len.toNat - 2 = params.length := by omega
    simp only [decodeBody, h, hn, List.take_left, List.drop_left, checksumValid_append, if_true]

/-! ### The decoder and the encoder -/

/-- The decoder's answers are exactly the frames of the well-formed instructions: a frame's class settles its
instruction, and an instruction's kind its class. -/
theorem decode_eq_ok_iff_encode (hc : c.wf = true) :
    decode c bs = .ok (i, rest) ↔ i.wf c = true ∧ bs = encode c i ++ rest := by
  rw [decode_eq_ok_iff hc]
  constructor
  · rintro ⟨t, len, code, body, rfl, hlen, hbody⟩
    cases hclass : c.classOf (c.idOf t) code with
    | rejected =>
      rw [decodeBody_rejected hclass] at hbody
      cases hbody
      exact ⟨wf_reject_iff.2 ⟨(c.retained_iff _).2 ⟨t, rfl⟩, hlen, hclass⟩, rfl⟩
    | confirm k =>
      obtain ⟨rfl, rfl⟩ := (decodeBody_confirm_iff hclass).1 hbody
      obtain ⟨hk, rfl, hid⟩ := c.classOf_confirm hclass
      rw [wf_instr_confirm hk, encode_instr_confirm hk, hid, frameBytes_append]
      exact ⟨(c.lengthLegal_iff len).1 hlen, rfl⟩
    | collect k =>
      obtain ⟨params, hcount, rfl, rfl⟩ :=
        (decodeBody_collect_iff hclass (two_le_of_lengthLegal hlen)).1 hbody
      obtain ⟨hk, rfl, -⟩ := c.classOf_collect hclass
      rw [wf_instr_collect hk, encode_instr_collect hk, frameBytes_append, hcount, BitVec.ofNat_toNat,
        BitVec.setWidth_eq]
      exact ⟨(c.lengthLegal_iff len).1 hlen, rfl⟩
  · rintro ⟨hwf, rfl⟩
    obtain ⟨k, len, hk, rfl⟩ | ⟨k, t, params, hk, rfl⟩ | ⟨id, len, code, rfl⟩ := i.cases_of_class
    · rw [wf_instr_confirm hk] at hwf
      rw [encode_instr_confirm hk, frameBytes_append]
      exact ⟨.device, len, c.codeOf k, _, rfl, (c.lengthLegal_iff len).2 hwf,
        (decodeBody_confirm_iff (c.classOf_codeOf_confirm hc hk)).2 ⟨rfl, rfl⟩⟩
    · rw [wf_instr_collect hk] at hwf
      have hcount := toNat_ofNat_of_lengthRetained hc hwf
      have hlen : c.lengthLegal (BitVec.ofNat 8 (params.length + 2)) = true := by
        rwa [c.lengthLegal_iff, hcount]
      rw [encode_instr_collect hk, frameBytes_append]
      exact ⟨t, _, c.codeOf k, _, rfl, hlen,
        (decodeBody_collect_iff (c.classOf_codeOf_collect hc t hk) (two_le_of_lengthLegal hlen)).2
          ⟨params, hcount.symm, rfl, rfl⟩⟩
    · obtain ⟨hid, hlen, hclass⟩ := wf_reject_iff.1 hwf
      obtain ⟨t, rfl⟩ := (c.retained_iff id).1 hid
      exact ⟨t, len, code, rest, rfl, hlen, decodeBody_rejected hclass⟩

end

/-- Settles O1: it holds, since the decoder answers exactly the frames of well-formed instructions. -/
theorem decodeInvertsEncode : Obligations.DecodeInvertsEncode :=
  fun _ _ _ hc hwf => (decode_eq_ok_iff_encode hc).2 ⟨hwf, rfl⟩

/-- Settles O2: it holds, the other direction of the same equivalence. -/
theorem decodedBytesAreTheEncodedFrame : Obligations.DecodedBytesAreTheEncodedFrame :=
  fun _ _ _ _ hc h => (decode_eq_ok_iff_encode hc).1 h

/-- Settles O3: it holds, because a byte and its complement sum to 0xFF. -/
theorem checksumValidExactlyForTheComplement : Obligations.ChecksumValidExactlyForTheComplement :=
  fun bs chk => ⟨beq_iff_eq, checksumValid_append bs chk⟩

/-- Settles O4: it holds, since the words are the encodings of well-formed instructions under RC. -/
theorem specExampleFramesDecode : Obligations.SpecExampleFramesDecode := by
  have decodes (i : Instr) (rest : List Byte) (h : i.wf Config.rc = true) :
      decode Config.rc (encode Config.rc i ++ rest) = .ok (i, rest) :=
    decodeInvertsEncode Config.rc i rest (by decide) h
  exact ⟨decodes (.ping 0x02#8) [] (by decide),
    decodes (.read .device [0x2B#8, 0x01#8]) [] (by decide),
    decodes (.write .device [0x1E#8, 0x05#8]) [] (by decide),
    decodes (.reset 0x02#8) [] (by decide),
    decodes (.bootload 0x02#8) [] (by decide),
    decodes (.aggRead .broadcast [0x24#8, 0x02#8, 0x03#8, 0x04#8]) [] (by decide),
    decodes (.reject 0xFE#8 0x02#8 0x01#8) [0xFE#8] (by decide)⟩

/-- Settles O26: it holds, since the length of at most 253 bytes and two more fits a byte (30_encoding.md R94). -/
theorem statusFrameLayout : Obligations.StatusFrameLayout := by
  intro c err payload hpayload
  have hlen : (BitVec.ofNat 8 (payload.length + 2)).toNat = payload.length + 2 :=
    Nat.mod_eq_of_lt (by omega)
  have hsum : checksumValid ((statusFrame c err payload).drop 2) = true :=
    (checksumValid_append (c.localId :: BitVec.ofNat 8 (payload.length + 2) :: err :: payload) _).2 rfl
  exact ⟨_, hlen, rfl, frameBytes_length _ _ _ _, hsum⟩

end Sys2Proof

/-! The proofs of 40_classifier.md's family. Each rule of the classifier is an equation with its next state; O40 to
O44, O17 and O7 are read off these. The run over a whole frame goes through states `midFrame`, in which every byte
consumed since idle is held: one lemma for each part of the frame leads from one to the next, and the checksum byte
ends it (O8, O9, O10). Last comes what holds from every state with the invariant (O45, O30, O31). -/

namespace Sys2Proof.Machine

open Sys2Proof

section

variable {s t : State} {b id len : Byte} {k : Kind} {p : Packet}

/-! ### The rules, one equation each -/

theorem consume_seekSync1_sync (hc : s.cstate = .seekSync1) : consume syncByte s =
    .next { received s with scratch := [syncByte], cstate := .seekSync2, lastAction := .buffered } := by
  simp [consume, hc, consumeSeekSync1]

theorem consume_seekSync1_other (hc : s.cstate = .seekSync1) (hb : b ≠ syncByte) :
    consume b s = .next { received s with uops := [.busWrite b], lastAction := .passedThrough } := by
  simp only [consume, hc, consumeSeekSync1, if_neg hb]

theorem consume_seekSync2_sync (hc : s.cstate = .seekSync2) (hroom : s.scratch.length < s.cfg.scratchCap) :
    consume syncByte s = .next { appended syncByte s with cstate := .readId, lastAction := .buffered } := by
  simp [consume, hc, consumeSeekSync2, withAppend_of_room hroom]

theorem consume_seekSync2_other (hc : s.cstate = .seekSync2) (hroom : s.scratch.length < s.cfg.scratchCap)
    (hb : b ≠ syncByte) : consume b s = .next (resync .badSync2 (appended b s)) := by
  simp only [consume, hc, consumeSeekSync2, withAppend_of_room hroom, if_neg hb]

theorem consume_readId_sync (hc : s.cstate = .readId) (hroom : s.scratch.length < s.cfg.scratchCap)
    (hs : s.scratch = [syncByte, syncByte]) : consume syncByte s =
      .next { received s with uops := [.busWrite syncByte], lastAction := .buffered } := by
  simp only [consume, hc, consumeReadId, withAppend_of_room hroom, if_true, appended, hs, List.cons_append]
  rw [← hs]
  rfl

theorem consume_readId_other (hc : s.cstate = .readId) (hroom : s.scratch.length < s.cfg.scratchCap)
    (hb : b ≠ syncByte) :
    consume b s = .next { appended b s with cstate := .readLen, lastAction := .buffered } := by
  simp only [consume, hc, consumeReadId, withAppend_of_room hroom, if_neg hb]

theorem consume_readLen_foreign (hc : s.cstate = .readLen) (hroom : s.scratch.length < s.cfg.scratchCap)
    (hid : idView s.scratch = some id) (ht : (s.cfg.targetOf id).isSome = false) :
    consume b s = .next (relayForeign b (appended b s)) := by
  have hnone : (s.cfg.targetOf id).isNone = true := by simpa using ht
  simp only [consume, hc, consumeReadLen, hid, withAppend_of_room hroom, hnone, if_true]

theorem consume_readLen_retained (hc : s.cstate = .readLen) (hroom : s.scratch.length < s.cfg.scratchCap)
    (hid : idView s.scratch = some id) (ht : (s.cfg.targetOf id).isSome = true) : consume b s =
      .next (if s.cfg.lengthLegal b then { appended b s with cstate := .readInstr, lastAction := .buffered }
        else rejectLength (appended b s)) := by
  have hsome : (s.cfg.targetOf id).isNone = false := by simpa [Option.isSome_iff_ne_none] using ht
  simp only [consume, hc, consumeReadLen, hid, withAppend_of_room hroom, hsome, Bool.false_eq_true, if_false]
  split <;> rfl

theorem consume_readLen_legal (hc : s.cstate = .readLen) (hroom : s.scratch.length < s.cfg.scratchCap)
    (hid : idView s.scratch = some id) (ht : (s.cfg.targetOf id).isSome = true) (hl : s.cfg.lengthLegal b = true) :
    consume b s = .next { appended b s with cstate := .readInstr, lastAction := .buffered } := by
  rw [consume_readLen_retained hc hroom hid ht, if_pos hl]

theorem consume_readInstr_admitted (hc : s.cstate = .readInstr) (hroom : s.scratch.length < s.cfg.scratchCap)
    (hid : idView s.scratch = some id) (hlen : lenView s.scratch = some len)
    (hcl : s.cfg.classOf id b = .collect k ∨ s.cfg.classOf id b = .confirm k) :
    consume b s = .next (acceptInstrByte k id len b (appended b s)) := by
  rcases hcl with hcl | hcl <;> simp only [consume, hc, consumeReadInstr, hid, hlen, hcl, withAppend_of_room hroom]

/-- The byte that no rule admits is consumed by the reject row (40_classifier.md R122). -/
theorem consume_readInstr_rejected (hc : s.cstate = .readInstr) (hid : idView s.scratch = some id)
    (hlen : lenView s.scratch = some len) (hcl : s.cfg.classOf id b = .rejected) :
    consume b s = exec (.reject id len b) s := by
  simp only [consume, hc, consumeReadInstr, hid, hlen, hcl, exec, execReject]

theorem consume_collectParams_param {n : Nat} (hc : s.cstate = .collectParams)
    (hroom : s.scratch.length < s.cfg.scratchCap) (hr : s.rem = n + 2) : consume b s =
      .next { appended b s with rem := n + 1, chk := s.chk + b, lastAction := .buffered } := by
  simp only [consume, hc, consumeCollect, hr, withAppend_of_room hroom]

theorem consume_relayRemainder {n : Nat} (hc : s.cstate = .relayRemainder) (hr : s.rem = n + 1) : consume b s =
    .next { received s with
      uops := [.busWrite b]
      rem := n
      cstate := if n = 0 then .seekSync1 else .relayRemainder
      lastAction := .passedThrough } := by
  simp only [consume, hc, consumeRelay, hr]

/-- A resync on the byte just appended, with what stood in `uops` before it: the byte is kept exactly where it is a
sync byte (40_classifier.md R110, R111). -/
theorem resync_appended (r : RejectReason) (us : List Uop) (b : Byte) (s : State) :
    resync r { appended b s with uops := us } = { s with
      hostIn := s.hostIn.tail
      consumeLeft := s.consumeLeft - 1
      rxTimer := 0
      chk := 0#8
      rem := 0
      lastAction := .frameRejected
      cstate := if b = syncByte then .seekSync2 else .seekSync1
      scratch := if b = syncByte then [syncByte] else []
      uops := us ++ .reject r :: (if b = syncByte then s.scratch else s.scratch ++ [b]).map .busWrite } := by
  by_cases hb : b = syncByte <;> simp [resync, resyncKept, resyncRelayed, appended, received, hb]

/-- A status without data is six bytes (30_encoding.md R94, R95). -/
theorem emitStatus_nil (c : Config) (err : Byte) : emitStatus c err [] =
    [.enqueue syncByte, .enqueue syncByte, .enqueue c.localId, .enqueue 0x02#8, .enqueue err,
      .enqueue (~~~ (c.localId + 0x02#8 + err))] := by
  simp [emitStatus, statusFrame, frameBytes, checksumOf, BitVec.add_assoc]

/-! ### Room in the scratch buffer, and packets -/

/-- The longest frame without its checksum byte leaves room for that byte (00_scope.md R12; 40_classifier.md R127). -/
theorem room_of_length_le (hw : s.cfg.wf = true) (h : s.scratch.length ≤ s.cfg.maxAggDevices + 6) :
    s.scratch.length < s.cfg.scratchCap := by
  obtain ⟨-, -, -, -, -, hcap, -⟩ := s.cfg.wf_iff.1 hw
  omega

/-- The instruction bytes that `READ_INSTR` admits, by kind (40_classifier.md R120, R121). -/
theorem classOf_codeOf_admitted {c : Config} (hw : c.wf = true) (hid : id = c.localId ∨ id = c.broadcastId)
    (hk : k = .ping ∨ k = .reset ∨ k = .bootload → id = c.localId) :
    c.classOf id (c.codeOf k) = .collect k ∨ c.classOf id (c.codeOf k) = .confirm k := by
  by_cases hconfirm : k = .ping ∨ k = .reset ∨ k = .bootload
  · rw [hk hconfirm]
    exact .inr (c.classOf_codeOf_confirm hw hconfirm)
  · obtain ⟨tgt, rfl⟩ := (c.retained_iff id).1 hid
    exact .inl (c.classOf_codeOf_collect hw tgt (by cases k <;> simp_all))

/-- `packetOk`, clause by clause (44_dispatch.md R220, R229). -/
theorem packetOk_iff {c : Config} : packetOk c k p = true ↔ p.instr = c.codeOf k ∧ c.lengthLegal p.len = true
    ∧ ((k = .ping ∨ k = .reset ∨ k = .bootload) ∧ p.id = c.localId ∧ p.params = []
      ∨ (k = .read ∨ k = .write ∨ k = .aggRead) ∧ (p.id = c.localId ∨ p.id = c.broadcastId)
        ∧ p.params.length + 2 = p.len.toNat) := by
  cases k <;> simp [packetOk, and_assoc, c.targetOf_isSome_iff]

/-- A dispatched packet's identifier is one the block retains (30_encoding.md R86). -/
theorem retained_of_packetOk {c : Config} (h : packetOk c k p = true) : p.id = c.localId ∨ p.id = c.broadcastId := by
  obtain ⟨-, -, ⟨-, hid, -⟩ | ⟨-, hid, -⟩⟩ := packetOk_iff.1 h
  · exact .inl hid
  · exact hid

/-- The parameters of a dispatched packet are bounded by its legal length (30_encoding.md R85). -/
theorem params_length_le_of_packetOk {c : Config} (h : packetOk c k p = true) :
    p.params.length ≤ c.maxAggDevices + 1 := by
  obtain ⟨-, hlegal, ⟨-, -, hparams⟩ | ⟨-, -, hparams⟩⟩ := packetOk_iff.1 h
  · simp [hparams]
  · have hlt := (of_decide_eq_true hlegal).2
    omega

/-- A well-formed instruction other than the reject row is a packet of its kind, whose bytes are its frame
(30_encoding.md R82, R87). -/
theorem exists_packet_of_wf {c : Config} {i : Instr} (hw : c.wf = true) (hwf : i.wf c = true)
    (hne : ∀ id len code, i ≠ .reject id len code) :
    ∃ k p, packetOk c k p = true ∧ decodeDispatch c k p = some i
      ∧ encode c i = frameBytes p.id p.len p.instr p.params := by
  obtain ⟨k, len, hk, rfl⟩ | ⟨k, tgt, params, hk, rfl⟩ | ⟨id, len, code, rfl⟩ := i.cases_of_class
  · rw [wf_instr_confirm hk, ← c.lengthLegal_iff] at hwf
    refine ⟨k, ⟨c.localId, len, c.codeOf k, []⟩, packetOk_iff.2 ⟨rfl, hwf, .inl ⟨hk, rfl, rfl⟩⟩, ?_,
      encode_instr_confirm hk⟩
    exact congrArg (Option.map _) (c.targetOf_idOf hw .device)
  · rw [wf_instr_collect hk] at hwf
    have hcount := toNat_ofNat_of_lengthRetained hw hwf
    rw [← hcount, ← c.lengthLegal_iff] at hwf
    refine ⟨k, ⟨c.idOf tgt, BitVec.ofNat 8 (params.length + 2), c.codeOf k, params⟩,
      packetOk_iff.2 ⟨rfl, hwf, .inr ⟨hk, (c.retained_iff _).2 ⟨tgt, rfl⟩, hcount.symm⟩⟩, ?_,
      encode_instr_collect hk⟩
    exact congrArg (Option.map _) (c.targetOf_idOf hw tgt)
  · exact absurd rfl (hne id len code)

/-- A packet's frame up to its checksum byte (30_encoding.md R82). -/
def framePrefix (p : Packet) : List Byte := syncByte :: syncByte :: p.id :: p.len :: p.instr :: p.params

theorem frameBytes_eq_framePrefix (p : Packet) : frameBytes p.id p.len p.instr p.params
    = framePrefix p ++ [checksumOf (p.id :: p.len :: p.instr :: p.params)] := rfl

@[simp] theorem framePrefix_length (p : Packet) : (framePrefix p).length = p.params.length + 5 := rfl

/-- The checksum byte in a confirm state and in `COLLECT_PARAMS` at `rem = 1`, with the whole frame held
(40_classifier.md R123, R129). -/
theorem consume_checksum (hw : s.cfg.wf = true) (hp : packetOk s.cfg k p = true) (hc : s.cstate = stateAfterInstr k)
    (hs : s.scratch = framePrefix p) (hr : s.rem = p.len.toNat - 1 - p.params.length) :
    consume b s = .next (if checksumAccepts s.chk b then acceptFrame k p (appended b s)
      else resync .checksum (appended b s)) := by
  have hroom : s.scratch.length < s.cfg.scratchCap := by
    have := params_length_le_of_packetOk hp
    exact room_of_length_le hw (by rw [hs, framePrefix_length]; omega)
  have hview : packetView s.scratch p.params = some p := by
    simp [hs, framePrefix, packetView, idView, lenView, instrView]
  obtain ⟨hinstr, -, ⟨hk, -, hparams⟩ | ⟨hk, -, hparams⟩⟩ := packetOk_iff.1 hp
  · have hconfirm : consume b s = consumeConfirm k b s := by
      rcases hk with rfl | rfl | rfl <;> simp only [consume, hc, stateAfterInstr]
    rw [hparams] at hview
    simp only [hconfirm, consumeConfirm, withAppend_of_room hroom, hview]
    split <;> rfl
  · have hcollect : consume b s = consumeCollect b s := by
      rcases hk with rfl | rfl | rfl <;> simp only [consume, hc, stateAfterInstr]
    have hone : s.rem = 1 := by omega
    have hdrop : s.scratch.drop 5 = p.params := by simp [hs, framePrefix]
    have hkind : s.cfg.collectKindOf p.instr = some k := hinstr ▸ s.cfg.collectKindOf_codeOf hw hk
    simp only [hcollect, consumeCollect, hone, withAppend_of_room hroom, hdrop, hview, hkind]
    split <;> rfl

end

/-! ### The run over a frame -/

/-- The state in the middle of a frame: MAIN has consumed the bytes `held` since the idle state `s` and holds them
all, the bytes `q` are still to come, and nothing was put out (40_classifier.md R110). -/
def midFrame (s : State) (ms : List Move) (q held : List Byte) (cs : CState) (chk : Byte) (rem : Nat) : State :=
  { s with
    moves := ms
    hostIn := q
    consumeLeft := s.consumeLeft - held.length
    rxTimer := 0
    uops := []
    scratch := held
    cstate := cs
    chk := chk
    rem := rem
    lastAction := .buffered }

/-- The middle of the frame of a packet of kind `k`, with the registers as they stand when its checksum byte is next
(40_classifier.md R119 to R121, R128). -/
def atChecksum (s : State) (ms : List Move) (q held : List Byte) (k : Kind) (p : Packet) : State :=
  midFrame s ms q held (stateAfterInstr k) (sum8 (p.id :: p.len :: p.instr :: p.params))
    (p.len.toNat - 1 - p.params.length)

theorem appended_midFrame (s : State) (ms : List Move) (b : Byte) (q held : List Byte) (cs : CState) (chk : Byte)
    (rem : Nat) :
    appended b (midFrame s ms (b :: q) held cs chk rem) = midFrame s ms q (held ++ [b]) cs chk rem := by
  simp [appended, received, midFrame, Nat.sub_sub]

section

variable {s t : State} {b id len : Byte} {q held : List Byte} {ms : List Move} {cs : CState} {chk : Byte} {rem : Nat}
  {k : Kind} {p : Packet} (hr : Running s) (hcall : s.pendingCall = none) (hph : s.mainPhase = .consume)

include hr hcall hph

/-- One step in the middle of a frame is the transition on the next byte (43_service_timeout.md R203). -/
theorem runSteps_midFrame (hleft : held.length < s.consumeLeft)
    (hc : consume b (midFrame s ms (b :: q) held cs chk rem) = .next t) :
    runSteps 1 (midFrame s (.main :: ms) (b :: q) held cs chk rem) = .next t :=
  runSteps_consume 0 hr hcall rfl hph (Nat.sub_pos_of_lt hleft) rfl rfl hc

/-- A byte that the transition appends is held. -/
theorem runSteps_hold {cs' : CState} {chk' : Byte} {rem' : Nat} (hleft : held.length < s.consumeLeft)
    (hc : consume b (midFrame s ms (b :: q) held cs chk rem) = .next
      { appended b (midFrame s ms (b :: q) held cs chk rem) with
        cstate := cs', chk := chk', rem := rem', lastAction := .buffered }) :
    runSteps 1 (midFrame s (.main :: ms) (b :: q) held cs chk rem)
      = .next (midFrame s ms q (held ++ [b]) cs' chk' rem') := by
  rw [runSteps_midFrame hr hcall hph hleft hc, appended_midFrame]
  rfl

/-- The header of a retained frame with a legal length is held (40_classifier.md R112 to R114, R117). -/
theorem runSteps_header (hu : s.uops = []) (hc : s.cstate = .seekSync1)
    (hid : id = s.cfg.localId ∨ id = s.cfg.broadcastId) (hlen : s.cfg.lengthLegal len = true)
    (hleft : 4 ≤ s.consumeLeft) (hin : s.hostIn = syncByte :: syncByte :: id :: len :: q)
    (hm : s.moves = mains 4 ++ ms) :
    runSteps 4 s = .next (midFrame s ms q [syncByte, syncByte, id, len] .readInstr s.chk s.rem) := by
  have hw := configOk_wf hr.2
  have htarget := (s.cfg.targetOf_isSome_iff id).2 hid
  have hsync1 : runSteps 1 s = .next (midFrame s (mains 3 ++ ms) (syncByte :: id :: len :: q) [syncByte] .seekSync2
      s.chk s.rem) := by
    have hnext := consume_seekSync1_sync (s := { s with moves := mains 3 ++ ms }) hc
    refine runSteps_consume 0 hr hcall hu hph (by omega) hin hm (hnext.trans ?_)
    simp [midFrame, received, hin]
  have hsync2 : runSteps 1 (midFrame s (mains 3 ++ ms) (syncByte :: id :: len :: q) [syncByte] .seekSync2 s.chk s.rem)
      = .next (midFrame s (mains 2 ++ ms) (id :: len :: q) [syncByte, syncByte] .readId s.chk s.rem) :=
    runSteps_hold hr hcall hph (Nat.lt_of_lt_of_le (by simp) hleft)
      (consume_seekSync2_sync rfl (room_of_length_le hw (by simp [midFrame])))
  have hreadId : runSteps 1 (midFrame s (mains 2 ++ ms) (id :: len :: q) [syncByte, syncByte] .readId s.chk s.rem)
      = .next (midFrame s (mains 1 ++ ms) (len :: q) [syncByte, syncByte, id] .readLen s.chk s.rem) :=
    runSteps_hold hr hcall hph (Nat.lt_of_lt_of_le (by simp) hleft)
      (consume_readId_other rfl (room_of_length_le hw (by simp [midFrame])) (ne_sync_of_isSome hw htarget))
  have hreadLen : runSteps 1 (midFrame s (mains 1 ++ ms) (len :: q) [syncByte, syncByte, id] .readLen s.chk s.rem)
      = .next (midFrame s ms q [syncByte, syncByte, id, len] .readInstr s.chk s.rem) :=
    runSteps_hold hr hcall hph (Nat.lt_of_lt_of_le (by simp) hleft)
      (consume_readLen_legal rfl (room_of_length_le hw (by simp [midFrame])) rfl htarget hlen)
  calc runSteps 4 s
    _ = _ := runSteps_add 1 3 hsync1
    _ = _ := runSteps_add 1 2 hsync2
    _ = _ := runSteps_add 1 1 hreadId
    _ = _ := hreadLen

/-- Parameter bytes are held and summed, whatever they are (40_classifier.md R128). -/
theorem runSteps_params (params : List Byte) : ∀ {held : List Byte} {chk : Byte},
    held.length + params.length ≤ s.consumeLeft → held.length + params.length ≤ s.cfg.scratchCap →
    runSteps params.length
        (midFrame s (mains params.length ++ ms) (params ++ q) held .collectParams chk (params.length + 1))
      = .next (midFrame s ms q (held ++ params) .collectParams (chk + sum8 params) 1) := by
  induction params with
  | nil =>
    intro held chk _ _
    simp [runSteps, mains]
  | cons b params ih =>
    intro held chk hleft hroom
    simp only [List.length_cons] at hleft hroom
    have hparam : runSteps 1 (midFrame s (.main :: (mains params.length ++ ms)) (b :: (params ++ q)) held
          .collectParams chk (params.length + 2))
        = .next (midFrame s (mains params.length ++ ms) (params ++ q) (held ++ [b]) .collectParams (chk + b)
          (params.length + 1)) := by
      have hfits : held.length < s.cfg.scratchCap := by omega
      exact runSteps_hold hr hcall hph (by omega) (consume_collectParams_param rfl hfits rfl)
    have hrest := ih (held := held ++ [b]) (chk := chk + b) (by simp; omega) (by simp; omega)
    have hrun := (runSteps_add 1 params.length hparam).trans hrest
    rw [Nat.add_comm] at hrun
    refine hrun.trans ?_
    simp [BitVec.add_assoc]

/-- A packet's frame up to its checksum byte is held, with its running sum (40_classifier.md R119 to R121, R128). -/
theorem runSteps_untilChecksum (hu : s.uops = []) (hc : s.cstate = .seekSync1) (hp : packetOk s.cfg k p = true)
    (hleft : p.params.length + 5 ≤ s.consumeLeft)
    (hin : s.hostIn = framePrefix p ++ q)
    (hm : s.moves = mains (4 + (1 + p.params.length)) ++ ms) :
    runSteps (4 + (1 + p.params.length)) s = .next (atChecksum s ms q (framePrefix p) k p) := by
  have hw := configOk_wf hr.2
  obtain ⟨-, -, -, -, -, hcap, -⟩ := s.cfg.wf_iff.1 hw
  have hretained := retained_of_packetOk hp
  have hbound := params_length_le_of_packetOk hp
  obtain ⟨hinstr, hlen, hshape⟩ := packetOk_iff.1 hp
  have hadmitted : s.cfg.classOf p.id p.instr = .collect k ∨ s.cfg.classOf p.id p.instr = .confirm k := by
    rw [hinstr]
    refine classOf_codeOf_admitted hw hretained fun hk => ?_
    rcases hshape with ⟨-, hid, -⟩ | ⟨hk', -⟩
    · exact hid
    · rcases hk' with rfl | rfl | rfl <;> simp at hk
  have hheader : runSteps 4 s = .next (midFrame s (.main :: (mains p.params.length ++ ms))
      (p.instr :: (p.params ++ q)) [syncByte, syncByte, p.id, p.len] .readInstr s.chk s.rem) := by
    refine runSteps_header hr hcall hph hu hc hretained hlen (by omega) hin ?_
    rw [hm, mains_add, mains_add, List.append_assoc, List.append_assoc]
    rfl
  have hcode : runSteps 1 (midFrame s (.main :: (mains p.params.length ++ ms)) (p.instr :: (p.params ++ q))
        [syncByte, syncByte, p.id, p.len] .readInstr s.chk s.rem)
      = .next (midFrame s (mains p.params.length ++ ms) (p.params ++ q) [syncByte, syncByte, p.id, p.len, p.instr]
        (stateAfterInstr k) (p.id + p.len + p.instr) (p.len.toNat - 1)) :=
    runSteps_hold hr hcall hph (Nat.lt_of_lt_of_le (by simp) hleft)
      (consume_readInstr_admitted rfl (room_of_length_le hw (by simp [midFrame])) rfl rfl hadmitted)
  rw [runSteps_add 4 _ hheader, runSteps_add 1 _ hcode]
  rcases hshape with ⟨-, -, hparams⟩ | ⟨hk, -, hparams⟩
  · simp [atChecksum, framePrefix, hparams, runSteps, mains, BitVec.add_assoc]
  · have hstate : stateAfterInstr k = .collectParams := by rcases hk with rfl | rfl | rfl <;> rfl
    have hseed : p.len.toNat - 1 = p.params.length + 1 := by omega
    have hparamsRun := runSteps_params hr hcall hph (ms := ms) (q := q) p.params
      (held := [syncByte, syncByte, p.id, p.len, p.instr]) (chk := p.id + p.len + p.instr)
      (by simp; omega) (by simp; omega)
    rw [atChecksum, hstate, hseed, hparamsRun]
    simp [framePrefix, BitVec.add_assoc]

/-- A whole frame of a packet, its last byte `b` the right checksum or not: it is accepted or rejected with every byte
of it held (40_classifier.md R123, R129). -/
theorem runSteps_frame (hu : s.uops = []) (hc : s.cstate = .seekSync1) (hp : packetOk s.cfg k p = true)
    (hleft : p.params.length + 6 ≤ s.consumeLeft)
    (hin : s.hostIn = framePrefix p ++ b :: q)
    (hm : s.moves = mains (p.params.length + 6) ++ ms) :
    runSteps (p.params.length + 6) s = .next
      (if b = checksumOf (p.id :: p.len :: p.instr :: p.params) then
        acceptFrame k p (atChecksum s ms q (framePrefix p ++ [b]) k p)
      else resync .checksum (atChecksum s ms q (framePrefix p ++ [b]) k p)) := by
  have hcount : p.params.length + 6 = 4 + (1 + p.params.length) + 1 := by omega
  have haccepts : checksumAccepts (sum8 (p.id :: p.len :: p.instr :: p.params)) b = true
      ↔ b = checksumOf (p.id :: p.len :: p.instr :: p.params) := by
    rw [checksumAccepts, beq_iff_eq]
    exact add_eq_sync_iff _ _
  have hprefix := runSteps_untilChecksum hr hcall hph (ms := .main :: ms) hu hc hp (by omega) hin (by
    rw [hm, hcount, mains_add, List.append_assoc]
    rfl)
  rw [hcount, runSteps_add _ 1 hprefix]
  refine runSteps_midFrame hr hcall hph (by simp; omega) ?_
  have hheld : appended b (atChecksum s ms (b :: q) (framePrefix p) k p)
      = atChecksum s ms q (framePrefix p ++ [b]) k p := appended_midFrame ..
  have hnext := consume_checksum (s := atChecksum s ms (b :: q) (framePrefix p) k p) (b := b) (configOk_wf hr.2) hp
    rfl rfl rfl
  rw [hheld] at hnext
  simp only [← haccepts]
  exact hnext

end

/-- Settles O8: it holds. The instruction's packet is consumed byte by byte, and its own checksum byte accepts. -/
theorem classifierDeliversTheEncodedInstruction : Obligations.ClassifierDeliversTheEncodedInstruction := by
  intro s i rest ms hr hcall hu hph hc hwf hne hin hleft hm
  obtain ⟨k, p, hp, hdispatch, hencode⟩ := exists_packet_of_wf (configOk_wf hr.2) hwf hne
  rw [hencode, frameBytes_length] at hleft hm
  rw [hencode, frameBytes_eq_framePrefix, List.append_assoc] at hin
  have hrun := runSteps_frame hr hcall hph hu hc hp hleft hin hm
  rw [if_pos rfl] at hrun
  rw [hencode, frameBytes_length]
  refine ⟨_, hrun, ?_, ⟨k, p, rfl⟩, hr.1, rfl, rfl, ?_, rfl, rfl, rfl, rfl, rfl, rfl, rfl⟩
  · simpa [fetch, acceptFrame, atChecksum, midFrame, hcall] using hdispatch
  · simp [acceptFrame, atChecksum, midFrame]

/-- Settles O9: it holds. Four moves hold the header, and the fifth would run the reject row. -/
theorem classifierDeliversTheRejectedByte : Obligations.ClassifierDeliversTheRejectedByte := by
  intro s id len code rest ms hr hcall hu hph hc hwf hin hleft hm
  obtain ⟨hid, hlen, hclass⟩ := wf_reject_iff.1 hwf
  have hrun := runSteps_header (q := code :: rest) (ms := .main :: ms) hr hcall hph hu hc hid hlen (by omega) hin hm
  refine ⟨_, hrun, ?_, rfl, rfl, rfl, rfl, rfl⟩
  obtain ⟨n, hn⟩ := Nat.exists_eq_add_of_le' hleft
  simp [fetch, fetchRejected, midFrame, idView, lenView, hcall, hph, hclass, hn]

/-- Settles O10: it holds. Every byte of the frame is held when the wrong checksum byte rejects it, so the resync
relays or keeps exactly the frame. -/
theorem wrongChecksumFrameIsResynced : Obligations.WrongChecksumFrameIsResynced := by
  intro s i bad rest ms hr hcall hu hph hc hwf hne hbad hin hleft hm
  obtain ⟨k, p, hp, -, hencode⟩ := exists_packet_of_wf (configOk_wf hr.2) hwf hne
  rw [hencode, frameBytes_length] at hleft hm
  rw [hencode, frameBytes_eq_framePrefix, List.getLast?_concat] at hbad
  rw [hencode, frameBytes_eq_framePrefix, List.dropLast_concat] at hin
  have hwrong : bad ≠ checksumOf (p.id :: p.len :: p.instr :: p.params) := fun h => hbad (congrArg some h.symm)
  have hrun := runSteps_frame hr hcall hph hu hc hp hleft hin hm
  rw [if_neg hwrong] at hrun
  have hrelayed : relayed (resync .checksum (atChecksum s ms rest (framePrefix p ++ [bad]) k p)).uops
      = resyncRelayed (framePrefix p ++ [bad]) := by
    simp [atChecksum, midFrame, relayed]
  have hlast : (atChecksum s ms rest (framePrefix p ++ [bad]) k p).scratch.getLast? = some bad := List.getLast?_concat
  rw [hencode, frameBytes_length, frameBytes_eq_framePrefix, List.dropLast_concat]
  refine ⟨_, hrun, ?_, ?_, ?_, ?_, rfl, rfl, rfl⟩
  · rw [hrelayed]
    rfl
  · rw [hrelayed]
    exact resync_conserves _
  · simp [resyncKept, hlast]
  · simp [hlast]

/-- Settles O40: it holds, rule by rule; the two sync bytes held leave room. -/
theorem syncBytesStartAFrame : Obligations.SyncBytesStartAFrame := by
  intro s b
  refine ⟨fun hc => ?_, fun hw hc hs => ?_, fun hw hc hs => ?_⟩
  · split_ifs with hb
    · subst hb
      exact consume_seekSync1_sync hc
    · exact consume_seekSync1_other hc hb
  · have hroom := room_of_length_le hw (by simp [hs])
    split_ifs with hb
    · subst hb
      rw [consume_seekSync2_sync hc hroom, appended, hs]
      rfl
    · rw [consume_seekSync2_other hc hroom hb]
      exact congrArg _ ((resync_appended .badSync2 [] b s).trans (by simp [hb, hs]))
  · have hroom := room_of_length_le hw (by simp [hs])
    split_ifs with hb
    · subst hb
      exact consume_readId_sync hc hroom hs
    · rw [consume_readId_other hc hroom hb, appended, hs]
      rfl

/-- Settles O41: it holds, since an identifier other than the two is of no target. -/
theorem foreignPrefixIsRelayed : Obligations.ForeignPrefixIsRelayed := by
  intro s id b hw hc hs hlocal hbroadcast
  have hforeign : (s.cfg.targetOf id).isSome = false := by
    rw [Bool.eq_false_iff, Ne, s.cfg.targetOf_isSome_iff]
    exact not_or.2 ⟨hlocal, hbroadcast⟩
  rw [consume_readLen_foreign hc (room_of_length_le hw (by simp [hs])) (by simp [hs, idView]) hforeign]
  simp [relayForeign, appended, received, hs]

/-- Settles O42: it holds; the status of an illegal length stands before its resync. -/
theorem retainedLengthIsRangeChecked : Obligations.RetainedLengthIsRangeChecked := by
  intro s id b hw hc hs hid
  have htarget := (s.cfg.targetOf_isSome_iff id).2 hid
  have hroom := room_of_length_le hw (by simp [hs])
  have hview : idView s.scratch = some id := by simp [hs, idView]
  by_cases hlen : 1 < b.toNat ∧ b.toNat < s.cfg.maxAggDevices + 4
  · rw [if_pos hlen, consume_readLen_legal hc hroom hview htarget (decide_eq_true hlen), appended, hs]
    rfl
  · have hillegal : ¬ s.cfg.lengthLegal b = true := fun h => hlen (of_decide_eq_true h)
    rw [if_neg hlen, consume_readLen_retained hc hroom hview htarget, if_neg hillegal]
    refine congrArg _ ((resync_appended .lenRange _ b s).trans ?_)
    by_cases hb : b = syncByte <;> simp [emitStatus_nil, hb, hs]

/-- Settles O43: it holds, since the instruction's code is admitted for the identifier. -/
theorem admittedInstructionSeedsTheFrame : Obligations.AdmittedInstructionSeedsTheFrame := by
  intro s k id len hw hc hs hid hk
  have hidView : idView s.scratch = some id := by simp [hs, idView]
  have hlenView : lenView s.scratch = some len := by simp [hs, lenView]
  rw [consume_readInstr_admitted hc (room_of_length_le hw (by simp [hs])) hidView hlenView
    (classOf_codeOf_admitted hw hid hk), acceptInstrByte, appended, hs]
  cases k <;> rfl

/-- Settles O44: it holds, one rule each; the count is split into its last unit and the rest. -/
theorem bodyBytesAreHeldOrRelayed : Obligations.BodyBytesAreHeldOrRelayed := by
  intro s b
  refine ⟨fun hc hr hroom => ?_, fun hc hr => ?_⟩
  · obtain ⟨n, hn⟩ := Nat.exists_eq_add_of_le' hr
    rw [consume_collectParams_param hc hroom hn, hn]
    rfl
  · obtain ⟨n, hn⟩ := Nat.exists_eq_add_of_le' hr
    rw [consume_relayRemainder hc hn, hn]
    simp [received]

/-- Settles O17: it holds; the row is the append and the resync, or the fault of a full buffer. -/
theorem rejectRowResyncs : Obligations.RejectRowResyncs := by
  intro s id len code
  by_cases hroom : s.scratch.length < s.cfg.scratchCap
  · have hexec : exec (.reject id len code) s = .next (resync .badInstr (appended code s)) := by
      rw [exec, execReject, rejectInstrByte, withAppend_of_room hroom]
    rw [if_pos hroom, hexec]
    exact congrArg _ (resync_appended .badInstr [] code s)
  · have hfull : scratchFull s = true := by simpa [scratchFull] using hroom
    rw [if_neg hroom]
    simp [exec, execReject, rejectInstrByte, withAppend, hfull, raise]

/-- Settles O7: it holds; a rejected byte's transition is the reject row's. -/
theorem stepConsumesTheNextHostByte : Obligations.StepConsumesTheNextHostByte := by
  intro s b rest hr hm hp hu hph hleft hin
  have hstep : step s = consume b (takeMove s) := by
    rw [step_of_running hr, hm]
    exact mainStep_consume (s := takeMove s) hp hu hph hleft hin
  refine ⟨hstep, fun id len hc hs hclass => hstep.trans ?_⟩
  exact consume_readInstr_rejected (s := takeMove s) hc (by simp [hs, idView]) (by simp [hs, lenView]) hclass

/-- In a state with the invariant the scratch buffer has room (40_classifier.md R127). -/
theorem scratchFull_of_inv {s : State} (h : Inv s) : scratchFull s = false := by
  have hroom := (classifierOk_shape h.classifier).room (configOk_wf h.config)
  simpa only [scratchFull, decide_eq_false_iff_not, Nat.not_le] using hroom

/-- Settles O45: it holds; `consume_spec` says what becomes of the bytes, and `consume_next` what is left alone, the
scratch buffer having room. -/
theorem consumedBytesAreNeverLost : Obligations.ConsumedBytesAreNeverLost := by
  intro s t b hinv hconsume
  obtain ⟨t', hnext, hspec⟩ := consume_spec (configOk_wf hinv.config) (classifierOk_shape hinv.classifier) b
  obtain rfl : t = t' := by simpa [hconsume] using hnext
  rcases consume_next hconsume with ⟨hfull, -⟩ | hframe
  · simp [scratchFull_of_inv hinv] at hfull
  refine ⟨?_, hspec.rejected, hframe.eq⟩
  have hcfg : t.cfg = s.cfg := by rw [hframe.eq]
  rcases hspec.bytes with ⟨haction, hs, k, p, hu⟩ | ⟨haction, hbytes⟩
  · obtain ⟨hc, hchk, hrem⟩ := hspec.accepted haction
    have hpacket := (hspec.packets k p (by simp [hu])).2
    rw [if_pos haction]
    exact ⟨by simp [hu, relayed], hs, hc, hchk, hrem, k, p, hu, hcfg ▸ hpacket⟩
  · rw [if_neg haction]
    exact hbytes

section

variable {s t : State}

/-! ### Every step has a rule, and none overflows the scratch buffer -/

/-- A packet that waits for dispatch decodes to an instruction (44_dispatch.md R220). -/
theorem exists_decodeDispatch {c : Config} {k : Kind} {p : Packet} (h : packetOk c k p = true) :
    ∃ i, decodeDispatch c k p = some i := by
  obtain ⟨tgt, ht⟩ := Option.isSome_iff_exists.1 ((c.targetOf_isSome_iff p.id).2 (retained_of_packetOk h))
  exact ⟨_, congrArg (Option.map _) ht⟩

/-- Every micro-operation but a dispatch has a rule, a flush having its byte in the queue (41_egress.md R162). -/
theorem performUop_total {u : Uop} {rest : List Uop} (h : Inv s) (hu : s.uops = u :: rest)
    (hd : ∀ k p, u ≠ .dispatch k p) : ∃ t, performUop u rest s = .next t := by
  cases u with
  | dispatch k p => exact absurd rfl (hd k p)
  | enqueue b =>
    simp only [performUop]
    split <;> exact ⟨_, rfl⟩
  | flushByte =>
    have hqueue : flushesPending rest + 1 ≤ s.egress.length := by simpa [hu, flushesPending] using h.flushes
    cases hq : s.egress with
    | nil => simp [hq] at hqueue
    | cons b q => exact ⟨{ s with uops := rest, egress := q, hostFrame := s.hostFrame ++ [b] },
        by simp [performUop, flushOne, hq]⟩
  | _ => exact ⟨_, rfl⟩

/-- Every phase has a rule: a counted byte is there, and its transition has one (40_classifier.md R131;
43_service_timeout.md R203). -/
theorem phaseStep_total (h : Inv s) : ∃ t, phaseStep s = .next t := by
  unfold phaseStep
  cases s.mainPhase with
  | waitConn => dsimp only; split <;> exact ⟨_, rfl⟩
  | rxReturn => exact ⟨_, rfl⟩
  | consume =>
    dsimp only
    split
    · exact ⟨_, rfl⟩
    · have hcounted := h.counted
      cases hin : s.hostIn with
      | nil =>
        simp only [hin, List.length_nil] at hcounted
        omega
      | cons b q =>
        obtain ⟨t, ht, -⟩ := consume_spec (configOk_wf h.config) (classifierOk_shape h.classifier) b
        exact ⟨t, ht⟩
  | timeout => dsimp only; split <;> exact ⟨_, rfl⟩
  | flush => dsimp only; split <;> exact ⟨_, rfl⟩
  | dispatch => exact ⟨_, rfl⟩

/-- MAIN's pick always has a rule: an instruction completes, a hold is a step, and a packet at the head of `uops` is
always fetched. -/
theorem mainStep_total (h : Inv s) : ∃ t, mainStep s = .next t := by
  unfold mainStep
  cases hf : fetch s with
  | some i =>
    obtain ⟨t, ht, -⟩ := exec_effect i s
    exact ⟨t, ht⟩
  | none =>
    simp only [mainMicroStep]
    cases hp : s.pendingCall with
    | some c => exact ⟨s, rfl⟩
    | none =>
      cases hu : s.uops with
      | nil => exact phaseStep_total h
      | cons u rest =>
        refine performUop_total h hu fun k p hd => ?_
        obtain ⟨i, hi⟩ := exists_decodeDispatch (h.packets k p (by simp [hu, hd]))
        simp [fetch, hp, hu, hd, hi] at hf

/-- An instruction raises SCRATCH_OVERFLOW only on a full buffer (40_classifier.md R127). -/
theorem ExecEffect.no_scratchOverflow {i : Instr} (hroom : scratchFull s = false) (hfault : s.fault = none)
    (he : ExecEffect s i t) : t.fault ≠ some .scratchOverflow := by
  cases he with
  | shape _ => simp
  | rejectFull id len code hfull => simp [hroom] at hfull
  | _ => simp [hfault]

theorem UopEffect.no_scratchOverflow {u : Uop} {rest : List Uop} (hfault : s.fault = none)
    (he : UopEffect s rest u t) : t.fault ≠ some .scratchOverflow := by
  cases he with
  | overflow b _ => simp
  | tryFlush => rw [tryFlush_writes]; simp [hfault]
  | _ => simp [hfault]

theorem PhaseEffect.no_scratchOverflow (hroom : scratchFull s = false) (hfault : s.fault = none)
    (he : PhaseEffect s t) : t.fault ≠ some .scratchOverflow := by
  cases he with
  | rxReturn _ => rcases returnToReceive_cases s with h | ⟨-, -, h⟩ <;> simp [h, hfault]
  | consume _ _ b q _ hc =>
    rcases consume_next hc with ⟨hfull, -⟩ | hframe
    · simp [hroom] at hfull
    · rw [hframe.eq]
      simp [hfault]
  | _ => simp [hfault]

theorem mainStep_no_scratchOverflow (hroom : scratchFull s = false) (hfault : s.fault = none)
    (hm : mainStep s = .next t) : t.fault ≠ some .scratchOverflow := by
  rcases mainStep_next hm with ⟨i, -, -, he⟩ | ⟨-, rfl⟩ | ⟨u, rest, -, -, he⟩ | ⟨-, -, he⟩
  · exact he.no_scratchOverflow hroom hfault
  · simp [hfault]
  · exact he.no_scratchOverflow hfault
  · exact he.no_scratchOverflow hroom hfault

theorem busRx_no_scratchOverflow (b : Byte) (hfault : s.fault = none) :
    (busRx b s).fault ≠ some .scratchOverflow := by
  rcases busRx_cases b s with ⟨-, h⟩ | ⟨-, -, h⟩ | ⟨-, -, -, h⟩ | ⟨-, -, -, h⟩ <;> rw [h]
  · simp [hfault]
  · rcases enqueue_cases b s with ⟨-, h'⟩ | ⟨-, h'⟩ <;> simp [h', hfault]
  · simp
  · simp [hfault]

theorem EnvEffect.no_scratchOverflow {e : EnvMove} (hfault : s.fault = none) (he : EnvEffect s e t) :
    t.fault ≠ some .scratchOverflow := by
  cases he with
  | release r _ _ hr => rw [hr.writes]; simp [hfault]
  | dirReceive _ hr => rw [hr.writes]; simp [hfault]
  | executorWrite _ b hr => rw [hr.writes]; simp [hfault]
  | oversize r => simp
  | _ => simp [hfault]

end

/-- Settles O30: it holds; MAIN's step is total from the invariant, and TICK and BUSRX are functions. -/
theorem agentsNeverLackARule : Obligations.AgentsNeverLackARule := by
  intro s h hs hpick
  rw [step_of_running ⟨hs, h.config⟩]
  rcases hpick with hm | hm | ⟨b, hm⟩ <;> rw [hm]
  · exact mainStep_total (inv_takeMove h)
  · exact ⟨_, rfl⟩
  · exact ⟨_, rfl⟩

/-- Settles O31: it holds; from the invariant the buffer has room, and no other rule raises that fault. -/
theorem scratchNeverOverflows : Obligations.ScratchNeverOverflows := by
  intro s t h hstep
  obtain ⟨⟨hs, -⟩, hagent⟩ := step_next hstep
  have hfault : s.fault = none := (stopReason_eq_none_iff.1 hs).1
  have hroom := scratchFull_of_inv (inv_takeMove h)
  rcases hagent with ⟨-, hm⟩ | ⟨-, rfl⟩ | ⟨b, -, rfl⟩ | ⟨e, -, he⟩
  · exact mainStep_no_scratchOverflow hroom hfault hm
  · simp [tick, hfault]
  · exact busRx_no_scratchOverflow b hfault
  · exact EnvEffect.no_scratchOverflow (s := takeMove s) hfault he

end Sys2Proof.Machine

/-! The proofs of 41_egress.md's family. The host stream grows by what is queued, effect by effect (O32). A flush is the
readiness test and the snapshot, then its micro-operations one a move (O48, O54, O55); a BUSRX byte among them only
joins the end of the queue, so it may as well come after the flush (O56). Along a fair run a short queue is chosen for
its partial flush once the send timer stands at its top, and then leaves (O60). -/

namespace Sys2Proof.Machine

open Sys2Proof

section

variable {s t : State}

/-! ### The host stream -/

/-- A queued byte joins the end of the host stream (41_egress.md R161). -/
theorem hostStream_pushEgress (b : Byte) (s : State) : hostStream (pushEgress b s) = hostStream s ++ [b] := by
  simp [hostStream]

/-- A commit moves the written bytes into the frames, in place (41_egress.md R163). -/
theorem hostStream_hostCommit (s : State) : hostStream (hostCommit s) = hostStream s := by
  simp [hostStream]

theorem ExecEffect.hostStream_eq {i : Instr} (he : ExecEffect s i t) : hostStream t = hostStream s := by
  cases he <;> rfl

/-- Only an `Enqueue` makes the stream longer; a flushed byte moves from the queue to the written bytes, in place
(41_egress.md R160, R166). -/
theorem UopEffect.hostStream_grows {u : Uop} {rest : List Uop} (he : UopEffect s rest u t) :
    GainsAtMostOne (hostStream s) (hostStream t) := by
  cases he with
  | enqueue b _ =>
    rw [hostStream_pushEgress]
    exact .snoc (hostStream s) b
  | flushByte b q hq =>
    have hmoved : hostStream { s with uops := rest, egress := q, hostFrame := s.hostFrame ++ [b] } = hostStream s := by
      simp [hostStream, hq]
    rw [hmoved]
    exact .refl _
  | hostCommit =>
    rw [hostStream_hostCommit]
    exact .refl _
  | tryFlush =>
    rw [tryFlush_writes]
    exact .refl _
  | _ => exact .refl _

theorem PhaseEffect.hostStream_eq (he : PhaseEffect s t) : hostStream t = hostStream s := by
  cases he with
  | rxReturn _ => rcases returnToReceive_cases s with h | ⟨-, -, h⟩ <;> rw [h] <;> rfl
  | consume _ _ b q _ hc =>
    rcases consume_next hc with ⟨-, rfl⟩ | hframe
    · rfl
    · rw [hframe.eq]
      rfl
  | _ => rfl

theorem mainStep_hostStream_grows (hm : mainStep s = .next t) : GainsAtMostOne (hostStream s) (hostStream t) := by
  rcases mainStep_next hm with ⟨i, -, -, hi⟩ | ⟨-, rfl⟩ | ⟨u, rest, -, -, hu⟩ | ⟨-, -, hp⟩
  · rw [hi.hostStream_eq]
    exact .refl _
  · exact .refl _
  · exact hu.hostStream_grows
  · rw [hp.hostStream_eq]
    exact .refl _

/-- BUSRX lets the stream grow in pass-through mode only, by the byte it takes (42_arbiter.md R189). -/
theorem busRx_hostStream_grows (b : Byte) (s : State) : GainsAtMostOne (hostStream s) (hostStream (busRx b s)) := by
  rcases busRx_cases b s with ⟨-, h⟩ | ⟨-, -, h⟩ | ⟨-, -, -, h⟩ | ⟨-, -, -, h⟩ <;> rw [h]
  · exact .refl _
  · rcases enqueue_cases b s with ⟨-, h'⟩ | ⟨-, h'⟩ <;> rw [h']
    · exact .refl _
    · rw [hostStream_pushEgress]
      exact .snoc (hostStream s) b
  · exact .refl _
  · exact .refl _

/-- No move of ENV writes the queue, the written bytes or the frames (00_scope.md R10). -/
theorem EnvEffect.hostStream_eq {e : EnvMove} (he : EnvEffect s e t) : hostStream t = hostStream s := by
  rw [he.writes]
  rfl

/-- Every agent's step lets the stream grow by at most one byte, at its end (41_egress.md R172). -/
theorem step_hostStream_grows (h : step s = .next t) : GainsAtMostOne (hostStream s) (hostStream t) := by
  obtain ⟨-, ⟨-, hm⟩ | ⟨-, rfl⟩ | ⟨b, -, rfl⟩ | ⟨e, -, he⟩⟩ := step_next h
  · exact mainStep_hostStream_grows (s := takeMove s) hm
  · exact .refl _
  · exact busRx_hostStream_grows b (takeMove s)
  · rw [he.hostStream_eq]
    exact .refl _

end

/-- Settles O32: it holds, agent by agent; only the two `Enqueue`s, MAIN's and BUSRX's, add to the stream. -/
theorem hostStreamOnlyGrowsAtItsEnd : Obligations.HostStreamOnlyGrowsAtItsEnd := by
  intro s t h
  obtain ⟨added, hgrows, hlen⟩ := step_hostStream_grows h
  exact ⟨added, hlen, hgrows⟩

section

variable {s t : State} {ms : List Move}

/-! ### Micro-operations -/

/-- MAIN's `Enqueue` micro-operation on a queue with room, and on a full one (41_egress.md R161). -/
theorem performUop_enqueue (b : Byte) (rest : List Uop) (s : State) : performUop (.enqueue b) rest s = .next
    (if s.egress.length < s.cfg.egressCap then { s with uops := rest, egress := s.egress ++ [b], sendTimer := 0 }
    else { s with fault := some .egressOverflow }) := by
  by_cases hroom : s.egress.length < s.cfg.egressCap
  · simp [performUop, egressFull, hroom, pushEgress]
  · simp [performUop, egressFull, hroom, not_lt.1 hroom, raise]

/-- Where MAIN moves next and a micro-operation other than a dispatch stands first, the step performs it
(43_service_timeout.md R201). -/
theorem step_uop {u : Uop} {rest : List Uop} (hr : Running s) (hm : nextMove s = .main) (hp : s.pendingCall = none)
    (hu : s.uops = u :: rest) (hd : ∀ k p, u ≠ .dispatch k p) : step s = performUop u rest (takeMove s) := by
  rw [step_of_running hr, hm]
  exact mainStep_uop (s := takeMove s) hp hu hd

/-- One micro-operation of a run whose next move is MAIN's (43_service_timeout.md R201). -/
theorem runSteps_uop {u : Uop} {rest : List Uop} (n : Nat) (hr : Running s) (hp : s.pendingCall = none)
    (hu : s.uops = u :: rest) (hm : s.moves = .main :: ms) (hd : ∀ k p, u ≠ .dispatch k p)
    (h : performUop u rest { s with moves := ms } = .next t) : runSteps (n + 1) s = runSteps n t :=
  runSteps_cons n hr hm ((mainStep_uop (s := { s with moves := ms }) hp hu hd).trans h)

end

/-- Settles O48: it holds; the step is the micro-operation's rule. -/
theorem enqueueAndRejectMicroOperations : Obligations.EnqueueAndRejectMicroOperations := by
  intro s b r rest hr hm hp
  refine ⟨fun hu => ?_, fun hu => ?_⟩
  · exact (step_uop hr hm hp hu nofun).trans (performUop_enqueue b rest (takeMove s))
  · exact step_uop hr hm hp hu nofun

section

variable {s : State} {ms : List Move}

/-! ### The readiness test and the snapshot -/

/-- With nothing left to do in the FLUSH phase MAIN tests `isWriteReady()` (41_egress.md R163). -/
theorem mainStep_flushPhase (hp : s.pendingCall = none) (hu : s.uops = []) (hph : s.mainPhase = .flush) :
    mainStep s = .next
      (if s.writeReady then { s with uops := [.tryFlush] } else { s with mainPhase := .waitConn }) := by
  have hfetch : fetch s = none := by simp [fetch, hp, hu, fetchRejected, hph]
  cases hw : s.writeReady <;> simp [mainStep, hfetch, mainMicroStep, hp, hu, phaseStep, hph, hw]

/-- The selection does not read the schedule (41_egress.md R164). -/
theorem tryFlush_moves (ms : List Move) (s : State) :
    tryFlush { s with moves := ms } = { tryFlush s with moves := ms } := by
  have hcommute := apply_ite fun t : State => { t with moves := ms }
  simp only [tryFlush, hcommute]
  rfl

/-- With a ready host two moves reach the outcome of `tryFlush` (41_egress.md R163, R164; log 7). -/
theorem runSteps_tryFlush (n : Nat) (hr : Running s) (hp : s.pendingCall = none) (hu : s.uops = [])
    (hph : s.mainPhase = .flush) (hw : s.writeReady = true) (hm : s.moves = mains 2 ++ ms) :
    runSteps (n + 2) s = runSteps n { tryFlush s with moves := ms } := by
  let ready : State := { s with moves := mains 1 ++ ms, uops := [.tryFlush] }
  have htest : runMove .main { s with moves := mains 1 ++ ms } = .next ready := by
    refine (mainStep_flushPhase (s := { s with moves := mains 1 ++ ms }) hp hu hph).trans ?_
    simp [ready, hw]
  have hsnapshot : performUop .tryFlush [] { ready with moves := ms } = .next { tryFlush s with moves := ms } := by
    rw [← tryFlush_moves]
    simp [performUop, ready, ← hu]
  calc runSteps (n + 2) s
    _ = runSteps (n + 1) ready := runSteps_cons (n + 1) hr hm htest
    _ = _ := runSteps_uop n hr hp rfl rfl nofun hsnapshot

end

/-! ### The work of a flush -/

/-- The micro-operations of which the flushes are made (41_egress.md R166 to R168). -/
def isFlushWork : Uop → Bool
  | .flushByte | .hostCommit | .resetSendTimer | .oweEmptyFrame | .clearEmptyFrame | .enterPhase _ => true
  | _ => false

/-- What a micro-operation of a flush does besides being taken off (41_egress.md R166 to R168). -/
def flushUop : Uop → State → State
  | .flushByte, s => { s with egress := s.egress.tail, hostFrame := s.hostFrame ++ s.egress.take 1 }
  | .hostCommit, s => hostCommit s
  | .resetSendTimer, s => { s with sendTimer := 0 }
  | .oweEmptyFrame, s => { s with zlpOwed := true }
  | .clearEmptyFrame, s => { s with zlpOwed := false }
  | .enterPhase p, s => { s with mainPhase := p }
  | _, s => s

/-- What the micro-operations of a flush do, one after another. -/
def flushAll : List Uop → State → State
  | [], s => s
  | u :: us, s => flushAll us (flushUop u s)

/-- The state `s` with the micro-operations `us` left to perform and the moves `ms` fixed. -/
def atWork (us : List Uop) (ms : List Move) (s : State) : State := { s with uops := us, moves := ms }

/-- What BUSRX does to a queue with room, byte by byte (42_arbiter.md R189). -/
def queueAll : List Byte → State → State
  | [], s => s
  | b :: bs, s => queueAll bs (pushEgress b s)

/-- The block runs, MAIN holds in no call, and BUSRX may queue `n` more bytes (42_arbiter.md R186, R189;
41_egress.md R161). -/
structure Accepts (n : Nat) (s : State) : Prop where
  running : Running s
  call : s.pendingCall = none
  room : n = 0 ∨ s.dir = .rx ∧ s.passthrough = true ∧ s.egress.length + n ≤ s.cfg.egressCap

section

variable {s : State} {u : Uop} {us : List Uop} {b : Byte} {n : Nat} {ms sched : List Move}

/-- MAIN performs a micro-operation of a flush as `flushUop` says, a flushed byte being in the queue (41_egress.md
R162). -/
theorem performUop_flushWork (hk : isFlushWork u = true) (hq : flushesPending (u :: us) ≤ s.egress.length) :
    performUop u us (atWork (u :: us) ms s) = .next (atWork us ms (flushUop u s)) := by
  cases u with
  | flushByte =>
    cases he : s.egress with
    | nil => simp [he, flushesPending] at hq
    | cons c q => simp [performUop, flushOne, flushUop, atWork, he]
  | hostCommit | resetSendTimer | oweEmptyFrame | clearEmptyFrame | enterPhase p => rfl
  | busWrite | enqueue | reject | dispatch | countInput | tryFlush | restart => cases hk

/-- A micro-operation of a flush leaves the bytes of the later ones in the queue. -/
theorem flushesPending_flushUop (hq : flushesPending (u :: us) ≤ s.egress.length) :
    flushesPending us ≤ (flushUop u s).egress.length := by
  cases u with
  | flushByte =>
    simp only [flushesPending] at hq
    simp only [flushUop, List.length_tail]
    omega
  | _ => exact hq

/-- A flush takes from the front of the queue and BUSRX adds at its end, and both reset the send timer to the same
value, so the two commute (41_egress.md R160, R162). -/
theorem flushUop_pushEgress (hq : flushesPending (u :: us) ≤ s.egress.length) :
    flushUop u (pushEgress b s) = pushEgress b (flushUop u s) := by
  cases u with
  | flushByte =>
    cases he : s.egress with
    | nil => simp [he, flushesPending] at hq
    | cons c q => simp [flushUop, pushEgress, he]
  | _ => rfl

theorem flushAll_pushEgress : ∀ {us : List Uop} {s : State}, flushesPending us ≤ s.egress.length →
    flushAll us (pushEgress b s) = pushEgress b (flushAll us s)
  | [], _, _ => rfl
  | u :: us, s, hq => by
    rw [flushAll, flushUop_pushEgress hq]
    exact flushAll_pushEgress (flushesPending_flushUop hq)

theorem accepts_flushUop (h : Accepts n s) (u : Uop) : Accepts n (flushUop u s) := by
  cases u with
  | flushByte =>
    refine { h with room := h.room.imp_right fun ⟨hdir, hmode, hroom⟩ => ⟨hdir, hmode, ?_⟩ }
    simp only [flushUop, List.length_tail]
    omega
  | _ => exact { h with }

theorem accepts_pushEgress (h : Accepts (n + 1) s) (b : Byte) : Accepts n (pushEgress b s) := by
  obtain ⟨hdir, hmode, hroom⟩ := h.room.resolve_left (Nat.succ_ne_zero n)
  refine { h with room := .inr ⟨hdir, hmode, ?_⟩ }
  simp only [pushEgress_egress, pushEgress_cfg, List.length_append, List.length_singleton]
  omega

/-- A bus byte that BUSRX may queue joins the queue (42_arbiter.md R189). -/
theorem busRx_of_accepts (h : Accepts (n + 1) s) (b : Byte) :
    busRx b (atWork us ms s) = atWork us ms (pushEgress b s) := by
  obtain ⟨hdir, hmode, hroom⟩ := h.room.resolve_left (Nat.succ_ne_zero n)
  have hfull : ¬ s.cfg.egressCap ≤ s.egress.length := by omega
  simp [busRx, atWork, hdir, hmode, enqueue, egressFull, hfull, pushEgress]

/-- The run of a flush's work, with BUSRX steps among MAIN's moves: the bytes of BUSRX join the queue as if they all
came after the flush (41_egress.md R162, R167). -/
theorem runSteps_flushWork (hsched : ∀ m ∈ sched, m = .main ∨ ∃ b, m = .busRx b)
    (hcount : sched.count .main = us.length) (hwork : ∀ u ∈ us, isFlushWork u = true)
    (hq : flushesPending us ≤ s.egress.length) (ha : Accepts (offered sched).length s) :
    runSteps sched.length (atWork us (sched ++ ms) s) =
      .next (atWork [] ms (queueAll (offered sched) (flushAll us s))) := by
  induction sched generalizing us s with
  | nil =>
    obtain rfl : us = [] := List.eq_nil_of_length_eq_zero hcount.symm
    rfl
  | cons m sched ih =>
    obtain ⟨hm, htail⟩ := List.forall_mem_cons.1 hsched
    rcases hm with rfl | ⟨b, rfl⟩
    · cases us with
      | nil => simp at hcount
      | cons u us =>
        obtain ⟨hk, hrest⟩ := List.forall_mem_cons.1 hwork
        have hstep : runSteps (sched.length + 1) (atWork (u :: us) (.main :: sched ++ ms) s) =
            runSteps sched.length (atWork us (sched ++ ms) (flushUop u s)) := by
          refine runSteps_uop _ ha.running ha.call rfl rfl ?_ (performUop_flushWork hk hq)
          rintro k p rfl
          cases hk
        exact hstep.trans
          (ih htail (by simpa using hcount) hrest (flushesPending_flushUop hq) (accepts_flushUop ha u))
    · have hq' : flushesPending us ≤ (pushEgress b s).egress.length := hq.trans (by simp)
      calc runSteps (sched.length + 1) (atWork us (.busRx b :: sched ++ ms) s)
        _ = runSteps sched.length (atWork us (sched ++ ms) (pushEgress b s)) :=
          runSteps_cons _ ha.running rfl (congrArg _ (busRx_of_accepts ha b))
        _ = .next (atWork [] ms (queueAll (offered sched) (flushAll us (pushEgress b s)))) :=
          ih htail (by simpa using hcount) hwork hq' (accepts_pushEgress ha b)
        _ = _ := by rw [flushAll_pushEgress hq]; rfl

/-! ### What a flush does -/

/-- The first `n` bytes of the queue are written, in order (41_egress.md R166, R167). -/
theorem flushAll_flushBytes (n : Nat) (us : List Uop) (s : State) :
    flushAll (List.replicate n .flushByte ++ us) s = flushAll us
      { s with egress := s.egress.drop n, hostFrame := s.hostFrame ++ s.egress.take n } := by
  induction n generalizing s with
  | zero => simp
  | succ n ih =>
    rw [List.replicate_succ, List.cons_append, flushAll, ih]
    cases he : s.egress <;> simp [flushUop, he]

/-- Bytes that BUSRX queues after a reset of the send timer leave it reset (41_egress.md R161). -/
theorem queueAll_of_timer_reset (bs : List Byte) (h : s.sendTimer = 0) :
    queueAll bs s = { s with egress := s.egress ++ bs } := by
  induction bs generalizing s with
  | nil => simp [queueAll]
  | cons b bs ih =>
    rw [queueAll, ih (pushEgress_sendTimer b s)]
    simp [pushEgress, h]

/-- MAIN's moves alone queue nothing. -/
theorem offered_mains (n : Nat) : offered (mains n) = [] := by
  induction n with
  | zero => rfl
  | succ n ih => simp [mains_succ, offered, ih]

theorem isFlushWork_flushBytes (n : Nat) : ∀ u ∈ List.replicate n Uop.flushByte, isFlushWork u = true :=
  fun _ hu => List.eq_of_mem_replicate hu ▸ rfl

/-! ### The FLUSH phase -/

theorem tryFlush_full (hu : s.uops = []) (h : s.cfg.egressFrame ≤ s.egress.length) :
    tryFlush s = { s with uops := flushFullUops s.cfg.egressFrame } := by
  simp [tryFlush, h, hu]

theorem tryFlush_partial (hu : s.uops = []) (hne : s.egress ≠ []) (hlen : s.egress.length < s.cfg.egressFrame)
    (hlate : s.sendTimeout < s.sendTimer) : tryFlush s = { s with uops := flushPartialUops s.egress.length } := by
  simp [tryFlush, not_le.2 hlen, hne, sendTimedOut, hlate, hu]

theorem tryFlush_early (hne : s.egress ≠ []) (hlen : s.egress.length < s.cfg.egressFrame)
    (hearly : s.sendTimer ≤ s.sendTimeout) : tryFlush s = { s with mainPhase := .waitConn } := by
  simp [tryFlush, not_le.2 hlen, hne, sendTimedOut, not_lt.2 hearly]

/-- From an empty queue the owed empty frame is sent, or nothing (41_egress.md R168, R169). -/
theorem tryFlush_empty (hw : s.cfg.wf = true) (hu : s.uops = []) (he : s.egress = []) :
    tryFlush s = if s.zlpOwed then { s with uops := flushEmptyUops } else { s with mainPhase := .waitConn } := by
  obtain ⟨-, -, -, -, -, -, ⟨hframe, -⟩, -⟩ := s.cfg.wf_iff.1 hw
  simp [tryFlush, he, Nat.ne_of_gt hframe, hu]

/-- A flush phase whose selection is the work `us`, run to its end under any schedule of MAIN and BUSRX that fits the
queue (41_egress.md R163, R164, R167). -/
theorem runSteps_flushPhase (hr : Running s) (hp : s.pendingCall = none) (hu : s.uops = [])
    (hph : s.mainPhase = .flush) (hw : s.writeReady = true) (hm : s.moves = mains 2 ++ sched ++ ms)
    (htry : tryFlush s = { s with uops := us })
    (hsched : ∀ m ∈ sched, m = .main ∨ ∃ b, m = .busRx b)
    (hcount : sched.count .main = us.length) (hwork : ∀ u ∈ us, isFlushWork u = true)
    (hq : flushesPending us ≤ s.egress.length) (ha : Accepts (offered sched).length s) :
    runSteps (2 + sched.length) s = .next (atWork [] ms (queueAll (offered sched) (flushAll us s))) := by
  calc runSteps (2 + sched.length) s
    _ = runSteps (sched.length + 2) s := by rw [Nat.add_comm]
    _ = runSteps sched.length { tryFlush s with moves := sched ++ ms } :=
      runSteps_tryFlush _ hr hp hu hph hw (by simpa using hm)
    _ = runSteps sched.length (atWork us (sched ++ ms) s) := by rw [htry]; rfl
    _ = _ := runSteps_flushWork hsched hcount hwork hq ha

/-- The same with MAIN alone moving (41_egress.md R163, R164). -/
theorem runSteps_flushPhase_mains (hr : Running s) (hp : s.pendingCall = none) (hu : s.uops = [])
    (hph : s.mainPhase = .flush) (hw : s.writeReady = true) (hm : s.moves = mains (us.length + 2) ++ ms)
    (htry : tryFlush s = { s with uops := us })
    (hwork : ∀ u ∈ us, isFlushWork u = true) (hq : flushesPending us ≤ s.egress.length) :
    runSteps (us.length + 2) s = .next (atWork [] ms (flushAll us s)) := by
  have hsched : ∀ m ∈ mains us.length, m = .main ∨ ∃ b, m = .busRx b :=
    fun _ hmem => .inl (List.eq_of_mem_replicate hmem)
  have hm' : s.moves = mains 2 ++ mains us.length ++ ms := by rw [hm, Nat.add_comm, mains_add]
  have ha : Accepts (offered (mains us.length)).length s := ⟨hr, hp, .inl (by rw [offered_mains]; rfl)⟩
  have hrun := runSteps_flushPhase hr hp hu hph hw hm' htry hsched (by simp [mains]) hwork hq ha
  rwa [offered_mains, show (mains us.length).length = us.length by simp [mains], Nat.add_comm] at hrun

end

/-- Settles O55: it holds; the selection is the full flush, whose first `EGRESS_FRAME` micro-operations write the front
of the queue. -/
theorem fullFlushSendsOneFrame : Obligations.FullFlushSendsOneFrame := by
  intro s ms hr hp hu hph hw hframe hfull hm
  have hlen : (flushFullUops s.cfg.egressFrame).length + 2 = s.cfg.egressFrame + 6 := by simp [flushFullUops]
  have hwork : ∀ u ∈ flushFullUops s.cfg.egressFrame, isFlushWork u = true :=
    List.forall_mem_append.2 ⟨isFlushWork_flushBytes _, by simp [isFlushWork]⟩
  have hq : flushesPending (flushFullUops s.cfg.egressFrame) ≤ s.egress.length := by
    simpa [flushFullUops, flushesPending_append, flushesPending] using hfull
  rw [← hlen] at hm ⊢
  rw [runSteps_flushPhase_mains hr hp hu hph hw hm (tryFlush_full hu hfull) hwork hq, flushFullUops,
    flushAll_flushBytes]
  simp [flushAll, flushUop, atWork, hostCommit, hframe, hu]

/-- Settles O54: it holds, case by case of the selection. -/
theorem flushSendsNothingOrTheOwedEmptyFrame : Obligations.FlushSendsNothingOrTheOwedEmptyFrame := by
  intro s ms hr hp hu hph
  have hempty := tryFlush_empty (configOk_wf hr.2) hu
  refine ⟨fun hw hm => ?_, fun hw hlen hne hearly hm => ?_, fun hw he hz hm => ?_, fun hw he hz hframe hm => ?_⟩
  · refine runSteps_cons 0 hr hm ((mainStep_flushPhase (s := { s with moves := ms }) hp hu hph).trans ?_)
    simp [hw]
  · rw [runSteps_tryFlush 0 hr hp hu hph hw hm, tryFlush_early hne hlen hearly]
    rfl
  · rw [runSteps_tryFlush 0 hr hp hu hph hw hm, hempty he, hz]
    rfl
  · have htry : tryFlush s = { s with uops := flushEmptyUops } := by simpa [hz] using hempty he
    have hwork : ∀ u ∈ flushEmptyUops, isFlushWork u = true := by simp [flushEmptyUops, isFlushWork]
    refine (runSteps_flushPhase_mains hr hp hu hph hw hm htry hwork (Nat.zero_le _)).trans ?_
    simp [flushEmptyUops, flushAll, flushUop, atWork, hostCommit, hframe, hu]

/-- Settles O56: it holds; BUSRX's bytes join the queue as if they all came after the flush, which takes the bytes of
the snapshot and leaves the send timer reset. -/
theorem partialFlushSendsExactlyTheSnapshot : Obligations.PartialFlushSendsExactlyTheSnapshot := by
  intro s sched ms hr hp hu hph hw hframe hne hlen hlate hsched hcount hlisten hroom hm
  have hwork : ∀ u ∈ flushPartialUops s.egress.length, isFlushWork u = true :=
    List.forall_mem_append.2 ⟨isFlushWork_flushBytes _, by simp [isFlushWork]⟩
  have hq : flushesPending (flushPartialUops s.egress.length) ≤ s.egress.length := by
    simp [flushPartialUops, flushesPending_append, flushesPending]
  have hcount' : sched.count .main = (flushPartialUops s.egress.length).length := by simp [hcount, flushPartialUops]
  have ha : Accepts (offered sched).length s :=
    ⟨hr, hp, hlisten.imp (congrArg List.length) fun ⟨hdir, hmode⟩ => ⟨hdir, hmode, hroom⟩⟩
  have hflushed : flushAll (flushPartialUops s.egress.length) s =
      { s with egress := [], hostOut := s.hostOut ++ [s.egress], sendTimer := 0, mainPhase := .waitConn } := by
    rw [flushPartialUops, flushAll_flushBytes]
    simp [flushAll, flushUop, hostCommit, hframe]
  rw [runSteps_flushPhase hr hp hu hph hw hm (tryFlush_partial hu hne hlen hlate) hsched hcount' hwork hq ha, hflushed,
    queueAll_of_timer_reset _ rfl]
  simp [atWork, hu]

section

/-! ### A short queue along a fair run -/

variable {s : State} {sched : Nat → Move} {tr : Nat → State} {n : Nat} {q : List Byte} {H : List (List Byte)}

/-- The invariant holds all along a run that starts with it. -/
theorem IsRun.inv (h : IsRun sched tr) (h0 : Inv (tr 0)) (n : Nat) : Inv (tr n) := by
  induction n with
  | zero => exact h0
  | succ n ih => exact inv_step (s := { tr n with moves := [sched n] }) { ih with } (h n)

/-- Every micro-operation left is one that may stand in the phase (43_service_timeout.md R201). -/
theorem mayStand_of_mem {p : MainPhase} {u : Uop} {us : List Uop} (h : workOk p us = true) (hmem : u ∈ us) :
    mayPrecede p u = true ∨ mayEnd p u = true := by
  induction us with
  | nil => cases hmem
  | cons v us ih =>
    rcases List.mem_cons.1 hmem with rfl | hmem
    · by_cases hpre : mayPrecede p u = true
      · exact .inl hpre
      · exact .inr (workOk_last h (Bool.eq_false_iff.2 hpre)).2
    · exact ih (workOk_tail h) hmem

/-- Outside the FLUSH phase nothing is written and uncommitted (41_egress.md R163). -/
theorem hostFrame_of_phase (h : Inv s) (hph : s.mainPhase ≠ .flush) : s.hostFrame = [] := by
  refine h.uncommitted.resolve_left fun hmem => ?_
  have hstand := mayStand_of_mem h.work hmem
  cases hp : s.mainPhase <;> simp_all [mayPrecede, mayEnd]

/-- The send threshold lies below the top of the timer (00_scope.md R12). -/
theorem sendTimeout_lt_top (h : Inv s) : s.sendTimeout + 1 < 2 ^ s.cfg.timerWidth := by
  have := h.config
  simp only [configOk, Config.thresholdOk, Bool.and_eq_true, decide_eq_true_eq] at this
  omega

/-- Where only ticks write it, a saturating send timer passes the threshold for good: each tick takes it towards its
top (60_exceptions.md R262; 41_egress.md R165). -/
theorem IsRun.sendTimer_passes (h : IsRun sched tr) (hi : ∀ n, Inv (tr n)) (hsat : (tr 0).cfg.timerOvf = .saturate)
    (htick : FairTick sched) (htimer : ∀ k, n ≤ k → (tr (k + 1)).sendTimer =
      if sched k = .tick then countTimer (tr k).cfg (tr k).sendTimer else (tr k).sendTimer) :
    ∃ m, n ≤ m ∧ ∀ k, m ≤ k → (tr k).sendTimeout < (tr k).sendTimer := by
  have hsat (k : Nat) : (tr k).cfg.timerOvf = .saturate := by rwa [h.cfg_eq k]
  have hmono (k : Nat) (hk : n ≤ k) : (tr k).sendTimer ≤ (tr (k + 1)).sendTimer := by
    rw [htimer k hk]
    split
    · exact countTimer_le (hsat k) (hi k).sendTimer
    · exact Nat.le_refl _
  have hrise (k : Nat) (hk : n ≤ k) (hs : sched k = .tick) :
      min ((tr k).sendTimer + 1) (2 ^ (tr 0).cfg.timerWidth - 1) ≤ (tr (k + 1)).sendTimer := by
    rw [htimer k hk, if_pos hs, countTimer, hsat k, h.cfg_eq k]
  obtain ⟨m, hm, htop⟩ := timer_reaches_top htick hmono hrise
  refine ⟨m, hm, fun k hk => ?_⟩
  have hfull := htop k hk
  have hbelow := sendTimeout_lt_top (hi k)
  rw [h.cfg_eq k] at hbelow
  omega

/-- Under FairMain a condition that lasts while MAIN does not move holds at a later move of MAIN
(70_reset_and_hazards.md R297). -/
theorem FairMain.exists_main {P : Nat → Prop} (hmain : FairMain sched) (h0 : P n)
    (hkeep : ∀ k, n ≤ k → sched k ≠ .main → P k → P (k + 1)) : ∃ m, n ≤ m ∧ sched m = .main ∧ P m := by
  by_contra hcon
  have hall : ∀ k, n ≤ k → P k := fun k hk => by
    induction k, hk using Nat.le_induction with
    | base => exact h0
    | succ k hk ih => exact hkeep k hk (fun hs => hcon ⟨k, hk, hs, ih⟩) ih
  obtain ⟨m, hm, hs⟩ := hmain n
  exact hcon ⟨m, hm, hs, hall m hm⟩

/-- MAIN's step of a run. -/
theorem IsRun.main_step (h : IsRun sched tr) (hs : sched n = .main) :
    mainStep { tr n with moves := [] } = .next (tr (n + 1)) := by
  have hstep := h n
  rwa [step_of_running (step_next hstep).1, nextMove_cons rfl, takeMove_cons rfl, hs] at hstep

/-- A step that is not MAIN's and queues nothing leaves waiting bytes waiting. -/
theorem IsRun.waiting_of_ne_main (h : IsRun sched tr) (hi : Inv (tr n)) (hs : sched n ≠ .main)
    (hst : hostStream (tr (n + 1)) = hostStream (tr n)) (hw : Waiting q H (tr n)) : Waiting q H (tr (n + 1)) := by
  obtain ⟨heg, hout, hfr, hph, hu, -⟩ := h.out_of_ne_main hi hs hst
  exact ⟨heg.trans hw.egress, hout.trans hw.hostOut, hfr.trans hw.hostFrame, fun hfl =>
    hu (hph ▸ hfl) ▸ hw.flush (hph ▸ hfl)⟩

/-- A step that is not MAIN's and queues nothing leaves a partial flush where it is. -/
theorem IsRun.leaving_of_ne_main (h : IsRun sched tr) (hi : Inv (tr n)) (hs : sched n ≠ .main)
    (hst : hostStream (tr (n + 1)) = hostStream (tr n)) (hl : Leaving q H (tr n)) :
    Leaving q H (tr (n + 1)) ∧ (tr (n + 1)).uops.length = (tr n).uops.length := by
  obtain ⟨heg, hout, hfr, hph, hu, -⟩ := h.out_of_ne_main hi hs hst
  have hu := hu hl.phase
  have hl' : Leaving q H (tr (n + 1)) :=
    ⟨hph.trans hl.phase, by rw [hu, heg, hl.uops], by rw [hfr, heg, hl.bytes], hout.trans hl.hostOut⟩
  exact ⟨hl', by rw [hu]⟩

/-- MAIN's step leaves waiting bytes waiting or begins their partial flush (41_egress.md R164, R167, R169). -/
theorem IsRun.waitsOn_or_leaving (h : IsRun sched tr) (hi : Inv (tr n)) (hs : sched n = .main)
    (hst : hostStream (tr (n + 1)) = hostStream (tr n)) (hq : q ≠ []) (hlen : q.length < (tr n).cfg.egressFrame)
    (hw : Waiting q H (tr n)) : WaitsOn q H (tr n) (tr (n + 1)) ∨ Leaving q H (tr (n + 1)) := by
  have hnext := main_waiting (s := { tr n with moves := [] }) hq { hi with } hlen { hw with }
    (h.not_stopped (n + 1)) hst (h.main_step hs)
  exact hnext.imp_left fun hon => { hon with }

section

variable (h : IsRun sched tr) (hi : ∀ n, Inv (tr n)) (hmain : FairMain sched)
  (hst : ∀ k, n ≤ k → hostStream (tr (k + 1)) = hostStream (tr k))

include h hi hmain hst

/-- Under FairReady and FairMain MAIN comes to a snapshot again and again (41_egress.md R163, R164). -/
theorem IsRun.reaches_tryFlush (hready : FairReady sched tr) :
    ∃ m, n ≤ m ∧ sched m = .main ∧ (tr m).mainPhase = .flush ∧ (tr m).uops = [.tryFlush] := by
  obtain ⟨k, hk, hph, hu, hs, hw⟩ := hready n
  have hp : (tr k).pendingCall = none := by
    by_contra hne
    exact ((hi k).callPhase hne).2 hu
  have htest : mainStep { tr k with moves := [] } = .next { tr k with moves := [], uops := [.tryFlush] } := by
    rw [mainStep_flushPhase (s := { tr k with moves := [] }) hp hu hph]
    simp [hw]
  have hnext : tr (k + 1) = { tr k with moves := [], uops := [.tryFlush] } := by
    simpa [h.main_step hs] using htest
  obtain ⟨m, hm, hsm, hsnap⟩ := hmain.exists_main (n := k + 1)
    (P := fun j => (tr j).mainPhase = .flush ∧ (tr j).uops = [.tryFlush]) (by simp [hnext, hph])
    fun j hj hsj ⟨hphj, huj⟩ => by
      obtain ⟨-, -, -, hph', hu', -⟩ := h.out_of_ne_main (hi j) hsj (hst j (by omega))
      exact ⟨hph'.trans hphj, (hu' hphj).trans huj⟩
  exact ⟨m, by omega, hsm, hsnap⟩

/-- Waiting bytes are chosen for their partial flush in the end: else the send timer, which nothing resets any more,
comes to its top, past every threshold, and the next snapshot chooses them (41_egress.md R164, R165). -/
theorem IsRun.starts_leaving (hsat : (tr 0).cfg.timerOvf = .saturate) (htick : FairTick sched)
    (hready : FairReady sched tr) (hq : q ≠ []) (hlen : q.length < (tr n).cfg.egressFrame)
    (hw : Waiting q H (tr n)) : ∃ m, n ≤ m ∧ Leaving q H (tr m) := by
  by_contra hno
  have hon {k : Nat} (hk : n ≤ k) (hs : sched k = .main) (hwk : Waiting q H (tr k)) :
      WaitsOn q H (tr k) (tr (k + 1)) :=
    (h.waitsOn_or_leaving (hi k) hs (hst k hk) hq (by rwa [h.cfg_eq k, ← h.cfg_eq n]) hwk).resolve_right fun hl =>
      hno ⟨k + 1, by omega, hl⟩
  have hwait (k : Nat) (hk : n ≤ k) : Waiting q H (tr k) := by
    induction k, hk using Nat.le_induction with
    | base => exact hw
    | succ k hk ih =>
      by_cases hs : sched k = .main
      · exact (hon hk hs ih).waiting
      · exact h.waiting_of_ne_main (hi k) hs (hst k hk) ih
  have htimer (k : Nat) (hk : n ≤ k) : (tr (k + 1)).sendTimer =
      if sched k = .tick then countTimer (tr k).cfg (tr k).sendTimer else (tr k).sendTimer := by
    by_cases hs : sched k = .main
    · rw [(hon hk hs (hwait k hk)).timer, if_neg (by simp [hs])]
    · obtain ⟨-, -, -, -, -, ht⟩ := h.out_of_ne_main (hi k) hs (hst k hk)
      exact ht
  obtain ⟨m, hm, hlate⟩ := h.sendTimer_passes hi hsat htick htimer
  obtain ⟨k, hk, hs, hph, hu⟩ := h.reaches_tryFlush (n := m) hi hmain (fun j hj => hst j (hm.trans hj)) hready
  have hearly := (hon (hm.trans hk) hs (hwait k (hm.trans hk))).early hph hu
  exact absurd (hlate k hk) hearly.not_gt

/-- A partial flush comes to its commit (41_egress.md R167). -/
theorem IsRun.leaving_sent (hl : Leaving q H (tr n)) : ∃ m, n ≤ m ∧ Sent q H (tr m) := by
  generalize hlen : (tr n).uops.length = l
  induction l using Nat.strong_induction_on generalizing n with
  | _ l ih =>
    obtain ⟨k, hk, hs, hlk, hlenk⟩ := hmain.exists_main (n := n)
      (P := fun j => Leaving q H (tr j) ∧ (tr j).uops.length = l) ⟨hl, hlen⟩
      fun j hj hsj ⟨hlj, hlenj⟩ => by
        obtain ⟨hl', hlen'⟩ := h.leaving_of_ne_main (hi j) hsj (hst j hj) hlj
        exact ⟨hl', hlen'.trans hlenj⟩
    rcases main_leaving (s := { tr k with moves := [] }) { hi k with } { hlk with } (h.main_step hs) with
      ⟨hnext, hshort⟩ | hsent
    · obtain ⟨m, hm, hsent⟩ := ih _ (hlenk ▸ hshort) (fun j hj => hst j (by omega)) hnext rfl
      exact ⟨m, by omega, hsent⟩
    · exact ⟨k + 1, by omega, hsent⟩

end

end

/-- Settles O60: it holds; the bytes wait, are chosen for their partial flush in the end, and leave in one frame. -/
theorem shortQueueIsSentInTheEnd : Obligations.ShortQueueIsSentInTheEnd := by
  intro sched tr n h h0 hsat hmain htick hready hph hne hlen hstream
  have hi := h.inv h0
  have hst (k : Nat) (hk : n ≤ k) : hostStream (tr (k + 1)) = hostStream (tr k) :=
    (hstream (k + 1) (by omega)).trans (hstream k hk).symm
  have hw : Waiting (tr n).egress (tr n).hostOut (tr n) :=
    ⟨rfl, rfl, hostFrame_of_phase (hi n) hph, fun hfl => absurd hfl hph⟩
  obtain ⟨k, hk, hl⟩ := h.starts_leaving hi hmain hst hsat htick hready hne hlen hw
  obtain ⟨m, hm, hsent⟩ := h.leaving_sent hi hmain (fun j hj => hst j (by omega)) hl
  exact ⟨m, by omega, hsent⟩

end Sys2Proof.Machine

/-! The proofs of 42_arbiter.md's family. A bus byte, MAIN's `BusWrite` and the return to receive are equations with
their next states (O47, O49), and `tx_done` tests the executor's held request again on the drained transmitter (O51).
Only ENV, and only during an aggregated read, writes the mode flag or empties the capture buffer (O38). -/

namespace Sys2Proof.Machine

open Sys2Proof

section

variable {s t : State} {b : Byte}

/-! ### The mode flag and the capture buffer -/

/-- The mode flag stands, and the capture buffer keeps its contents: what it may gain comes after them. -/
structure ModeKept (s t : State) : Prop where
  passthrough : t.passthrough = s.passthrough
  cap : s.cap <+: t.cap

theorem ModeKept.refl (s : State) : ModeKept s s := ⟨rfl, List.prefix_rfl⟩

theorem ExecEffect.modeKept {i : Instr} (he : ExecEffect s i t) : ModeKept s t := by
  cases he <;> exact { ModeKept.refl s with }

theorem UopEffect.modeKept {u : Uop} {rest : List Uop} (he : UopEffect s rest u t) : ModeKept s t := by
  cases he with
  | tryFlush =>
    rw [tryFlush_writes]
    exact { ModeKept.refl s with }
  | _ => exact { ModeKept.refl s with }

theorem PhaseEffect.modeKept (he : PhaseEffect s t) : ModeKept s t := by
  cases he with
  | rxReturn _ =>
    rcases returnToReceive_cases s with h | ⟨-, -, h⟩ <;> rw [h] <;> exact { ModeKept.refl s with }
  | consume _ _ b q _ hc =>
    rcases consume_next hc with ⟨-, rfl⟩ | hframe
    · exact { ModeKept.refl s with }
    · rw [hframe.eq]
      exact { ModeKept.refl s with }
  | _ => exact { ModeKept.refl s with }

/-- MAIN writes neither the mode flag nor the capture buffer (42_arbiter.md R192; 10_state.md R33). -/
theorem mainStep_modeKept (hm : mainStep s = .next t) : ModeKept s t := by
  rcases mainStep_next hm with ⟨i, -, -, hi⟩ | ⟨-, rfl⟩ | ⟨u, rest, -, -, hu⟩ | ⟨-, -, hp⟩
  · exact hi.modeKept
  · exact .refl _
  · exact hu.modeKept
  · exact hp.modeKept

/-- BUSRX only adds to the capture buffer, at its end (42_arbiter.md R190). -/
theorem busRx_modeKept (b : Byte) (s : State) : ModeKept s (busRx b s) := by
  rcases busRx_cases b s with ⟨-, h⟩ | ⟨-, -, h⟩ | ⟨-, -, -, h⟩ | ⟨-, -, -, h⟩ <;> rw [h]
  · exact .refl s
  · rcases enqueue_cases b s with ⟨-, h'⟩ | ⟨-, h'⟩ <;> rw [h'] <;> exact { ModeKept.refl s with }
  · exact { ModeKept.refl s with }
  · exact { ModeKept.refl s with cap := List.prefix_append s.cap [b] }

/-- A bus request writes neither (42_arbiter.md R182, R183). -/
theorem RequestEffect.modeKept {r : BusRequest} (h : RequestEffect s r t) : ModeKept s t := by
  rw [h.writes]
  exact { ModeKept.refl s with }

/-- Of ENV's moves two write the mode flag or the capture buffer, one of them each, and both are liberties of the
executor (42_arbiter.md R192; 44_dispatch.md R222). -/
theorem EnvEffect.modeKept_or {e : EnvMove} (he : EnvEffect s e t) :
    ModeKept s t
      ∨ (inAggregatedRead s = true ∧ e = .modeSet t.passthrough ∧ t.cap = s.cap)
      ∨ (inAggregatedRead s = true ∧ e = .clearCapture ∧ t.passthrough = s.passthrough) := by
  cases he with
  | modeSet v hf => exact .inr (.inl ⟨(executorFree_iff.1 hf).1, rfl, rfl⟩)
  | clearCapture hf => exact .inr (.inr ⟨(executorFree_iff.1 hf).1, rfl, rfl⟩)
  | release r _ _ hr => exact .inl { hr.modeKept with }
  | dirReceive _ hr => exact .inl hr.modeKept
  | executorWrite _ b hr => exact .inl hr.modeKept
  | _ => exact .inl { ModeKept.refl s with }

/-- Every agent's step keeps the mode flag and the captured bytes, but for the executor's two liberties. -/
theorem step_modeKept_or (h : step s = .next t) :
    ModeKept s t
      ∨ (inAggregatedRead s = true ∧ nextMove s = .env (.modeSet t.passthrough) ∧ t.cap = s.cap)
      ∨ (inAggregatedRead s = true ∧ nextMove s = .env .clearCapture ∧ t.passthrough = s.passthrough) := by
  obtain ⟨-, ⟨-, hm⟩ | ⟨-, rfl⟩ | ⟨b, -, rfl⟩ | ⟨e, hmove, he⟩⟩ := step_next h
  · exact .inl { mainStep_modeKept hm with }
  · exact .inl { ModeKept.refl s with }
  · exact .inl { busRx_modeKept b (takeMove s) with }
  · rcases he.modeKept_or with hkept | ⟨hread, rfl, hcap⟩ | ⟨hread, rfl, hmode⟩
    · exact .inl { hkept with }
    · exact .inr (.inl ⟨hread, hmove, hcap⟩)
    · exact .inr (.inr ⟨hread, hmove, hmode⟩)

/-! ### Bus bytes -/

/-- `Enqueue` on a queue with room, and on a full one (41_egress.md R161). -/
theorem enqueue_eq (b : Byte) (s : State) : enqueue b s =
    if s.egress.length < s.cfg.egressCap then { s with egress := s.egress ++ [b], sendTimer := 0 }
    else { s with fault := some .egressOverflow } := by
  split_ifs with hroom
  · have hfull : egressFull s = false := by simpa [egressFull] using hroom
    simp [enqueue, hfull, pushEgress]
  · have hfull : egressFull s = true := by simpa [egressFull] using hroom
    simp [enqueue, hfull, raise]

/-- What becomes of an offered bus byte, by direction, mode and room (42_arbiter.md R186, R189, R190). -/
theorem busRx_eq (b : Byte) (s : State) : busRx b s =
    if s.dir = .tx then s
    else if s.passthrough = true then
      if s.egress.length < s.cfg.egressCap then { s with egress := s.egress ++ [b], sendTimer := 0 }
      else { s with fault := some .egressOverflow }
    else if s.cap.length < s.cfg.captureCap then { s with cap := s.cap ++ [b], busTimer := 0 }
    else { s with fault := some .captureOverflow } := by
  rcases busRx_cases b s with ⟨hd, h⟩ | ⟨hd, hp, h⟩ | ⟨hd, hp, hf, h⟩ | ⟨hd, hp, hf, h⟩ <;> rw [h]
  · simp [hd]
  · simp [hd, hp, enqueue_eq]
  · have hroom : ¬ s.cap.length < s.cfg.captureCap := by simpa [captureFull] using hf
    simp [hd, hp, hroom, raise]
  · have hroom : s.cap.length < s.cfg.captureCap := by simpa [captureFull] using hf
    simp [hd, hp, hroom, pushCapture]

/-- MAIN's `BusWrite` into a transmitter with room, and into a full one (42_arbiter.md R183). -/
theorem performUop_busWrite (b : Byte) (rest : List Uop) (s : State) : performUop (.busWrite b) rest s = .next
    (if s.busTxPending < s.cfg.busTxDepth then
      { s with uops := rest, dir := .tx, busTxPending := s.busTxPending + 1, busOut := s.busOut ++ [b] }
    else s) := by
  rcases busWrite_getD b { s with uops := rest } s with ⟨hf, h⟩ | ⟨hf, h⟩
  · have hroom : ¬ s.busTxPending < s.cfg.busTxDepth := by simpa [busTxFull] using hf
    simp [performUop, h, hroom]
  · have hroom : s.busTxPending < s.cfg.busTxDepth := by simpa [busTxFull] using hf
    simp [performUop, h, hroom, sendBus]

/-! ### The return to receive -/

/-- With nothing left to do MAIN takes its phase step; only in CONSUME may it fetch a rejected byte instead
(43_service_timeout.md R200; 40_classifier.md R122). -/
theorem mainStep_phase (hp : s.pendingCall = none) (hu : s.uops = []) (hph : s.mainPhase ≠ .consume) :
    mainStep s = phaseStep s := by
  have hfetch : fetch s = none := by
    cases hm : s.mainPhase with
    | consume => exact absurd hm hph
    | _ => simp [fetch, hp, hu, fetchRejected, hm]
  simp [mainStep, hfetch, mainMicroStep, hp, hu]

/-- A bus that listens already stays as it is, so the return writes the direction exactly when nothing is pending
(42_arbiter.md R185). -/
theorem returnToReceive_eq (s : State) :
    returnToReceive s = { s with dir := if s.busTxPending = 0 then .rx else s.dir } := by
  unfold returnToReceive
  split_ifs with h hzero hzero
  · rfl
  · exact absurd h.2 hzero
  · have hd : s.dir = .rx := by_contra fun hne => h ⟨dir_tx_of_ne_rx hne, hzero⟩
    rw [← hd]
  · rfl

theorem mainStep_rxReturn (hp : s.pendingCall = none) (hu : s.uops = []) (hph : s.mainPhase = .rxReturn) :
    mainStep s = .next { s with
      mainPhase := .consume
      uops := [.countInput]
      dir := if s.busTxPending = 0 then .rx else s.dir } := by
  rw [mainStep_phase hp hu (by simp [hph])]
  simp [phaseStep, hph, returnToReceive_eq]

/-! ### `tx_done` -/

/-- With nothing pending there is no `tx_done` (42_arbiter.md R184). -/
theorem envMove_txDone_idle (h0 : s.busTxPending = 0) : envMove .txDone s = .refused .noSuchMove := by
  simp [envMove, h0]

/-- While the executor holds, `tx_done` tests its request again on the transmitter without its oldest byte
(42_arbiter.md R182, R184). -/
theorem envMove_txDone_held {r : BusRequest} (hpend : 1 ≤ s.busTxPending) (hh : s.executorHold = some r) :
    envMove .txDone s = .next (requestBus r { s with busTxPending := s.busTxPending - 1 }) := by
  simp [envMove, hpend, txDone, retryHeld, hh]

/-- In transmit, `switchToReceive` completes on a drained transmitter and holds on any other (42_arbiter.md R182). -/
theorem requestBus_switchToReceive (hd : s.dir = .tx) : requestBus .switchToReceive s =
    if s.busTxPending = 0 then { s with dir := .rx, executorHold := none }
    else { s with executorHold := some .switchToReceive } := by
  by_cases h0 : s.busTxPending = 0 <;> simp [requestBus, attempt, switchToReceive, hd, h0]

/-- The executor's `BusWrite` into a transmitter with room hands its byte over (42_arbiter.md R183). -/
theorem requestBus_busWrite (hroom : s.busTxPending < s.cfg.busTxDepth) : requestBus (.busWrite b) s =
    { s with dir := .tx, busTxPending := s.busTxPending + 1, busOut := s.busOut ++ [b], executorHold := none } := by
  have hf : busTxFull s = false := by simpa [busTxFull] using hroom
  simp [requestBus, attempt, busWrite, hf, sendBus]

/-- The last pending byte leaves, and an executor holding in `switchToReceive` is released into receive
(42_arbiter.md R182, R187). -/
theorem envMove_txDone_drained (hd : s.dir = .tx) (h1 : s.busTxPending = 1)
    (hh : s.executorHold = some .switchToReceive) :
    envMove .txDone s = .next { s with busTxPending := 0, dir := .rx, executorHold := none } := by
  rw [envMove_txDone_held h1.ge hh]
  simp [requestBus_switchToReceive, hd, h1]

/-- A byte that leaves with another behind it does not release the executor (42_arbiter.md R182, R187). -/
theorem envMove_txDone_undrained (hd : s.dir = .tx) (h2 : 2 ≤ s.busTxPending)
    (hh : s.executorHold = some .switchToReceive) :
    envMove .txDone s = .next { s with busTxPending := s.busTxPending - 1 } := by
  have hleft : s.busTxPending - 1 ≠ 0 := by omega
  rw [envMove_txDone_held (by omega) hh]
  simp [requestBus_switchToReceive, hd, hleft, ← hh]

/-- The place of the byte that leaves is taken by the byte the executor holds, so as many are pending as before
(42_arbiter.md R183, R187). -/
theorem envMove_txDone_handsOver (h1 : 1 ≤ s.busTxPending) (hdepth : s.busTxPending ≤ s.cfg.busTxDepth)
    (hh : s.executorHold = some (.busWrite b)) :
    envMove .txDone s = .next { s with dir := .tx, busOut := s.busOut ++ [b], executorHold := none } := by
  have hroom : s.busTxPending - 1 < s.cfg.busTxDepth := by omega
  rw [envMove_txDone_held h1 hh]
  simp [requestBus_busWrite, hroom, Nat.sub_add_cancel h1]

end

/-- Settles O38: it holds; a step that keeps neither is one of the executor's two liberties, and each of these
leaves what the other writes. -/
theorem modeFlagChangesOnlyDuringAnAggregatedRead : Obligations.ModeFlagChangesOnlyDuringAnAggregatedRead := by
  intro s t h
  rcases step_modeKept_or h with ⟨hmode, hcap⟩ | ⟨hread, hmove, hcap⟩ | ⟨hread, hmove, hmode⟩
  · exact ⟨fun hne => absurd hmode hne, fun hlost => absurd hcap hlost⟩
  · exact ⟨fun _ => ⟨hread, hmove⟩, fun hlost => absurd (hcap ▸ List.prefix_rfl) hlost⟩
  · exact ⟨fun hne => absurd hmode hne, fun _ => ⟨hread, hmove⟩⟩

/-- Settles O47: it holds; the step is BUSRX's rule. -/
theorem busByteGoesWhereTheModeSays : Obligations.BusByteGoesWhereTheModeSays := by
  intro s b hr hm
  rw [step_of_running hr, hm]
  exact congrArg Host.Outcome.next (busRx_eq b (takeMove s))

/-- Settles O49: it holds; the step is the micro-operation's rule. -/
theorem busWriteSwitchesToTransmitOrHolds : Obligations.BusWriteSwitchesToTransmitOrHolds := by
  intro s b rest hr hm hp hu
  exact (step_uop hr hm hp hu nofun).trans (performUop_busWrite b rest (takeMove s))

/-- Settles O51: it holds, clause by clause: MAIN's RX_RETURN, then `tx_done` with nothing pending, with a free
executor, and with one holding in each of its requests. -/
theorem returnToReceiveNeedsADrainedBus : Obligations.ReturnToReceiveNeedsADrainedBus := by
  intro s b hr
  have hmain (hm : nextMove s = .main) : step s = mainStep (takeMove s) := by
    rw [step_of_running hr, hm]
    rfl
  have hdone (hm : nextMove s = .env .txDone) : step s = envMove .txDone (takeMove s) := by
    rw [step_of_running hr, hm]
    rfl
  refine ⟨fun hm hp hu hph => ?_, fun hm h0 => ?_, fun hm h1 hh => ?_, fun hm hd h1 hh => ?_,
    fun hm hd h2 hh => ?_, fun hm h1 hdepth hh => ?_⟩
  · exact (hmain hm).trans (mainStep_rxReturn (s := takeMove s) hp hu hph)
  · exact (hdone hm).trans (envMove_txDone_idle (s := takeMove s) h0)
  · exact (hdone hm).trans (envMove_txDone (s := takeMove s) h1 hh)
  · exact (hdone hm).trans (envMove_txDone_drained (s := takeMove s) hd h1 hh)
  · exact (hdone hm).trans (envMove_txDone_undrained (s := takeMove s) hd h2 hh)
  · exact (hdone hm).trans (envMove_txDone_handsOver (s := takeMove s) h1 hdepth hh)

end Sys2Proof.Machine

/-! The proofs of 43_service_timeout.md's family. Where MAIN has nothing left to do, its step in WAIT_CONN, CONSUME and
TIMEOUT is an equation with its next state (O53, O57). Four moves lead from WAIT_CONN to the timeout check when no byte
waits, and past the threshold the check abandons the frame (O58). Along a fair run the host bytes run out, `rx_timer`
stands at its top from then on, and the timeout check of a later cycle finds the classifier idle or abandons the frame
(O59). -/

namespace Sys2Proof.Machine

open Sys2Proof

section

variable {s : State}

/-! ### The picked agent's step -/

theorem step_main (hr : Running s) (hm : nextMove s = .main) : step s = mainStep (takeMove s) := by
  rw [step_of_running hr, hm]
  rfl

theorem step_env {e : EnvMove} (hr : Running s) (hm : nextMove s = .env e) : step s = envMove e (takeMove s) := by
  rw [step_of_running hr, hm]
  rfl

/-- At a `DISPATCH` micro-operation MAIN runs the instruction its packet decodes to (44_dispatch.md R220). -/
theorem mainStep_dispatch {k : Kind} {p : Packet} {rest : List Uop} {i : Instr} (hp : s.pendingCall = none)
    (hu : s.uops = .dispatch k p :: rest) (hi : decodeDispatch s.cfg k p = some i) : mainStep s = exec i s := by
  have hfetch : fetch s = some i := by simp [fetch, hp, hu, hi]
  simp [mainStep, hfetch]

/-! ### The phases around the bytes -/

/-- In WAIT_CONN MAIN goes on exactly when the host is connected (43_service_timeout.md R204). -/
theorem mainStep_waitConn (hp : s.pendingCall = none) (hu : s.uops = []) (hph : s.mainPhase = .waitConn) :
    mainStep s = .next { s with mainPhase := if s.hostConnected = true then .rxReturn else .waitConn } := by
  rw [mainStep_phase hp hu (by simp [hph])]
  simp only [phaseStep, hph]
  split_ifs
  · rfl
  · rw [← hph]

/-- With no counted byte left CONSUME goes on to TIMEOUT (43_service_timeout.md R203). -/
theorem mainStep_consumed (hp : s.pendingCall = none) (hu : s.uops = []) (hph : s.mainPhase = .consume)
    (h0 : s.consumeLeft = 0) : mainStep s = .next { s with mainPhase := .timeout } := by
  have hfetch : fetch s = none := by simp [fetch, hp, hu, fetchRejected, h0]
  simp [mainStep, hfetch, mainMicroStep, hp, hu, phaseStep, hph, h0]

/-- From a state with the invariant a transition takes the byte and nothing else off the input, and stays in CONSUME
(40_classifier.md R110; 43_service_timeout.md R203). -/
theorem consume_takesByte (h : Inv s) (hph : s.mainPhase = .consume) (b : Byte) :
    ∃ t, consume b s = .next t ∧ t.hostIn = s.hostIn.tail ∧ t.consumeLeft = s.consumeLeft - 1
      ∧ t.mainPhase = .consume := by
  obtain ⟨t, ht, -⟩ := consume_spec (configOk_wf h.config) (classifierOk_shape h.classifier) b
  rcases consume_next ht with ⟨hfull, -⟩ | hframe
  · simp [scratchFull_of_inv h] at hfull
  · refine ⟨t, ht, ?_⟩
    rw [hframe.eq]
    exact ⟨rfl, rfl, hph⟩

/-- While a counted byte is left, MAIN's step takes the oldest waiting one (43_service_timeout.md R203). -/
theorem mainStep_countedByte (h : Inv s) (hp : s.pendingCall = none) (hu : s.uops = [])
    (hph : s.mainPhase = .consume) (hleft : 1 ≤ s.consumeLeft) :
    ∃ c t, mainStep s = .next t ∧ s.hostIn = c :: t.hostIn ∧ s.consumeLeft = t.consumeLeft + 1
      ∧ t.mainPhase = .consume := by
  have hthere : 1 ≤ s.hostIn.length := hleft.trans h.counted
  obtain ⟨c, q, hin⟩ := List.exists_cons_of_length_pos hthere
  obtain ⟨t, ht, htail, hcount, hph'⟩ := consume_takesByte h hph c
  refine ⟨c, t, (mainStep_consume hp hu hph hleft hin).trans ht, ?_, by omega, hph'⟩
  rw [htail, hin, List.tail_cons]

/-- Both thresholds change together, and stay within their bounds (00_scope.md R12; 10_state.md R34). -/
theorem envMove_setTimeouts (receive send : Nat) (s : State) : envMove (.setTimeouts receive send) s =
    if receive + 2 ≤ 2 ^ s.cfg.timerWidth ∧ send + 2 ≤ 2 ^ s.cfg.timerWidth then
      .next { s with receiveTimeout := receive, sendTimeout := send }
    else .refused .noSuchMove := by
  simp only [envMove, Config.thresholdOk, Bool.and_eq_true, decide_eq_true_eq]

/-! ### The timeout check -/

theorem rxTimedOut_iff : rxTimedOut s = true ↔ s.cstate ≠ .seekSync1 ∧ s.receiveTimeout < s.rxTimer := by
  simp [rxTimedOut]

/-- The timeout check (43_service_timeout.md R205, R206). -/
theorem mainStep_timeout (hp : s.pendingCall = none) (hu : s.uops = []) (hph : s.mainPhase = .timeout) :
    mainStep s = .next (if s.cstate ≠ .seekSync1 ∧ s.receiveTimeout < s.rxTimer then abandon s
      else { s with mainPhase := .flush }) := by
  rw [mainStep_phase hp hu (by simp [hph])]
  simp only [phaseStep, hph, rxTimedOut_iff]
  split_ifs <;> rfl

/-- An idle classifier holds no byte (40_classifier.md R112). -/
theorem scratch_of_idle (hcl : classifierOk s = true) (hc : s.cstate = .seekSync1) : s.scratch = [] := by
  simp only [classifierOk, hc, Bool.and_eq_true, beq_iff_eq] at hcl
  obtain ⟨⟨hempty, -⟩, -⟩ := hcl
  exact hempty

/-- What MAIN has left to do after an abandonment relays exactly the buffered bytes (43_service_timeout.md R206). -/
theorem relayed_abandon (s : State) : relayed (abandon s).uops = s.scratch := by
  simp [abandon, relayed, relayed_append]

/-- Past the threshold the timeout check leaves the classifier idle, and the bytes it held are still to be relayed
(43_service_timeout.md R208). -/
theorem mainStep_timeout_idle (hcl : classifierOk s = true) (hp : s.pendingCall = none) (hu : s.uops = [])
    (hph : s.mainPhase = .timeout) (hlate : s.receiveTimeout < s.rxTimer) :
    ∃ t, mainStep s = .next t ∧ t.cstate = .seekSync1 ∧ t.scratch = [] ∧ relayed t.uops = s.scratch
      ∧ t.moves = s.moves := by
  rw [mainStep_timeout hp hu hph]
  split_ifs with hto
  · exact ⟨abandon s, rfl, rfl, rfl, relayed_abandon s, rfl⟩
  · have hidle : s.cstate = .seekSync1 := by_contra fun hne => hto ⟨hne, hlate⟩
    have hempty := scratch_of_idle hcl hidle
    exact ⟨{ s with mainPhase := .flush }, rfl, hidle, hempty, by simp [hu, hempty, relayed], rfl⟩

/-- The receive threshold lies below the top of the timer (00_scope.md R12). -/
theorem receiveTimeout_lt_top (h : Inv s) : s.receiveTimeout + 1 < 2 ^ s.cfg.timerWidth := by
  have := h.config
  simp only [configOk, Config.thresholdOk, Bool.and_eq_true, decide_eq_true_eq] at this
  omega

/-! ### From WAIT_CONN to the timeout check -/

/-- The state in which MAIN makes the timeout check of a cycle that counted no host byte, `ms` being the moves after
it (43_service_timeout.md R200; 42_arbiter.md R185). -/
def atTimeoutCheck (ms : List Move) (s : State) : State :=
  { s with
    moves := ms
    mainPhase := .timeout
    uops := []
    consumeLeft := 0
    dir := if s.busTxPending = 0 then .rx else s.dir }

section

variable {ms : List Move} (hr : Running s) (hp : s.pendingCall = none) (hu : s.uops = [])
  (hph : s.mainPhase = .waitConn) (hc : s.hostConnected = true) (hin : s.hostIn = [])

include hr hp hu hph hc hin

/-- With a connected host and no host byte, four moves of MAIN lead from WAIT_CONN to the timeout check
(43_service_timeout.md R200, R203, R204; the number of moves is log 7). -/
theorem runSteps_toTimeoutCheck (n : Nat) (hm : s.moves = mains 4 ++ ms) :
    runSteps (n + 4) s = runSteps n (atTimeoutCheck ms s) := by
  have hconnected : mainStep { s with moves := mains 3 ++ ms } =
      .next { s with moves := mains 3 ++ ms, mainPhase := .rxReturn } := by
    simpa [hc] using mainStep_waitConn (s := { s with moves := mains 3 ++ ms }) hp hu hph
  unfold atTimeoutCheck
  generalize hd : (if s.busTxPending = 0 then Dir.rx else s.dir) = d
  calc runSteps (n + 4) s
    _ = runSteps (n + 3) { s with moves := mains 3 ++ ms, mainPhase := .rxReturn } :=
      runSteps_cons (n + 3) hr hm hconnected
    _ = runSteps (n + 2) { s with moves := mains 2 ++ ms, mainPhase := .consume, uops := [.countInput], dir := d } :=
      runSteps_cons (n + 2) hr rfl (hd ▸ mainStep_rxReturn hp hu rfl)
    _ = runSteps (n + 1) { s with
          moves := mains 1 ++ ms, mainPhase := .consume, uops := [], consumeLeft := 0, dir := d } :=
      runSteps_uop (ms := mains 1 ++ ms) (n + 1) hr hp rfl rfl nofun (by simp [performUop, hin])
    _ = _ := runSteps_cons n hr rfl (mainStep_consumed hp rfl rfl rfl)

/-- With `rx_timer` past the threshold the fifth move leaves the classifier idle (43_service_timeout.md R206, R208). -/
theorem runSteps_pastTimeoutCheck (hcl : classifierOk s = true) (hlate : s.receiveTimeout < s.rxTimer)
    (hm : s.moves = mains 5 ++ ms) :
    ∃ t, runSteps 5 s = .next t ∧ t.cstate = .seekSync1 ∧ t.scratch = [] ∧ relayed t.uops = s.scratch
      ∧ t.moves = ms := by
  obtain ⟨t, hcheck, hidle⟩ := mainStep_timeout_idle (s := atTimeoutCheck ms s) hcl hp rfl rfl hlate
  refine ⟨t, ?_, hidle⟩
  calc runSteps 5 s
    _ = runSteps 1 (atTimeoutCheck (.main :: ms) s) := runSteps_toTimeoutCheck hr hp hu hph hc hin 1 hm
    _ = .next t := runSteps_cons 0 hr rfl hcheck

end

end

/-- Settles O58: it holds; the ticks take `rx_timer` past the threshold, four moves lead to the timeout check, and the
fifth is the check. -/
theorem partialFrameNeverWedges : Obligations.PartialFrameNeverWedges := by
  intro s ms h hs hsat hp hu hph hc hin hm
  have hr : Running s := ⟨hs, h.config⟩
  rw [List.append_assoc] at hm
  obtain ⟨rx, sd, bs, hticks, hrx⟩ := runSteps_ticks (s.receiveTimeout + 1) (mains 5 ++ ms) hr hsat hm
  have hlate : s.receiveTimeout < rx := by
    have := receiveTimeout_lt_top h
    omega
  obtain ⟨t, hcycle, hidle⟩ := runSteps_pastTimeoutCheck
    (s := { s with moves := mains 5 ++ ms, rxTimer := rx, sendTimer := sd, busTimer := bs })
    hr hp hu hph hc hin h.classifier hlate rfl
  exact ⟨t, (runSteps_add (s.receiveTimeout + 1) 5 hticks).trans hcycle, hidle⟩

/-- Settles O6: it holds; MAIN fetches the instruction at the head of `uops`, and taking the move off the schedule
writes only the schedule. -/
theorem stepRunsTheDispatchedInstruction : Obligations.StepRunsTheDispatchedInstruction := by
  intro s k p rest i hr hm hp hu hi
  exact ⟨(step_main hr hm).trans (mainStep_dispatch (s := takeMove s) hp hu hi), rfl⟩

/-- Settles O53: it holds, clause by clause; the step is the rule of the phase, the micro-operation or the port
event. -/
theorem serviceCycleWaitsAndCounts : Obligations.ServiceCycleWaitsAndCounts := by
  intro s b v receive send rest hr
  refine ⟨fun hm hp hu hph => ?_, fun hm hp hu => ?_, fun h hm hp hu hph hleft => ?_, fun hm hp hu hph h0 => ?_,
    fun hm => ?_, fun hm => ?_, fun hm => ?_, fun hm => ?_⟩
  · exact (step_main hr hm).trans (mainStep_waitConn (s := takeMove s) hp hu hph)
  · exact step_uop hr hm hp hu nofun
  · rw [step_main hr hm]
    exact mainStep_countedByte (s := takeMove s) (inv_takeMove h) hp hu hph hleft
  · exact (step_main hr hm).trans (mainStep_consumed (s := takeMove s) hp hu hph h0)
  · exact step_env hr hm
  · exact step_env hr hm
  · exact step_env hr hm
  · rw [step_env hr hm]
    exact envMove_setTimeouts receive send (takeMove s)

/-- Settles O57: it holds; the step is the timeout check's rule. -/
theorem timeoutAbandonsThePartialFrame : Obligations.TimeoutAbandonsThePartialFrame := by
  intro s hr hm hp hu hph
  exact (step_main hr hm).trans (mainStep_timeout (s := takeMove s) hp hu hph)

section

/-! ### The classifier along a fair run -/

variable {sched : Nat → Move} {tr : Nat → State} {n : Nat}

/-- A saturating timer that fits its width, and that only ticks write, stands at its top in the end
(60_exceptions.md R262; 70_reset_and_hazards.md R297). -/
theorem IsRun.timer_fills (h : IsRun sched tr) (hsat : (tr 0).cfg.timerOvf = .saturate) (htick : FairTick sched)
    {timer : State → Nat} (hfits : ∀ k, timer (tr k) < 2 ^ (tr k).cfg.timerWidth)
    (hcounts : ∀ k, n ≤ k → timer (tr (k + 1)) =
      if sched k = .tick then countTimer (tr k).cfg (timer (tr k)) else timer (tr k)) :
    ∃ m, n ≤ m ∧ ∀ k, m ≤ k → 2 ^ (tr k).cfg.timerWidth - 1 ≤ timer (tr k) := by
  have hsat (k : Nat) : (tr k).cfg.timerOvf = .saturate := by rwa [h.cfg_eq k]
  have hmono (k : Nat) (hk : n ≤ k) : timer (tr k) ≤ timer (tr (k + 1)) := by
    rw [hcounts k hk]
    split
    · exact countTimer_le (hsat k) (hfits k)
    · exact Nat.le_refl _
  have hrise (k : Nat) (hk : n ≤ k) (hs : sched k = .tick) :
      min (timer (tr k) + 1) (2 ^ (tr 0).cfg.timerWidth - 1) ≤ timer (tr (k + 1)) := by
    rw [hcounts k hk, if_pos hs, countTimer, hsat k, h.cfg_eq k]
  obtain ⟨m, hm, htop⟩ := timer_reaches_top (f := fun k => timer (tr k)) htick hmono hrise
  exact ⟨m, hm, fun k hk => by rw [h.cfg_eq k]; exact htop k hk⟩

/-- Once no host byte arrives, the waiting ones are consumed or stay for ever: from some step on no step feeds the
classifier, and only ticks write `rx_timer` (40_classifier.md R110). -/
theorem IsRun.unfed_in_the_end (h : IsRun sched tr) (hi : ∀ n, Inv (tr n))
    (hb : ∀ k, n ≤ k → ∀ b, sched k ≠ .env (.hostByte b)) :
    ∃ m, n ≤ m ∧ ∀ k, m ≤ k → Unfed (tr k) (tr (k + 1)) ∧
      (tr (k + 1)).rxTimer = if sched k = .tick then countTimer (tr k).cfg (tr k).rxTimer else (tr k).rxTimer := by
  have hfalls (k : Nat) (hk : n ≤ k) : (tr (k + 1)).hostIn.length ≤ (tr k).hostIn.length := by
    rcases h.unfed (hi k) (hb k hk) with hless | ⟨hunfed, -⟩
    · exact hless.le
    · rw [hunfed.input]
  obtain ⟨m, hm, hconst⟩ := constant_in_the_end (f := fun k => (tr k).hostIn.length) hfalls
  exact ⟨m, hm, fun k hk => (h.unfed (hi k) (hb k (hm.trans hk))).resolve_left (hconst k hk).not_lt⟩

/-- Once no host byte arrives, `rx_timer` is past the threshold in the end, whatever the threshold becomes
(43_service_timeout.md R205; 00_scope.md R12), and the classifier is fed no more. -/
theorem IsRun.late_in_the_end (h : IsRun sched tr) (hi : ∀ n, Inv (tr n)) (hsat : (tr 0).cfg.timerOvf = .saturate)
    (htick : FairTick sched) (hb : ∀ k, n ≤ k → ∀ b, sched k ≠ .env (.hostByte b)) :
    ∃ m, n ≤ m ∧ ∀ k, m ≤ k → Unfed (tr k) (tr (k + 1)) ∧ (tr k).receiveTimeout < (tr k).rxTimer := by
  obtain ⟨i, hni, hunfed⟩ := h.unfed_in_the_end hi hb
  obtain ⟨m, him, hfull⟩ := h.timer_fills hsat htick (fun k => (hi k).rxTimer) fun k hk => (hunfed k hk).2
  refine ⟨m, hni.trans him, fun k hk => ⟨(hunfed k (him.trans hk)).1, ?_⟩⟩
  have hbelow := receiveTimeout_lt_top (hi k)
  have htop := hfull k hk
  omega

/-- A cycle in which no byte is consumed and `rx_timer` stands past the threshold ends with the classifier idle: its
timeout check finds it idle or abandons the frame (43_service_timeout.md R205, R206). -/
theorem CycleDone.idle {k : Nat} (hcycle : CycleDone tr n k)
    (hlate : ∀ k, n ≤ k → Unfed (tr k) (tr (k + 1)) ∧ (tr k).receiveTimeout < (tr k).rxTimer) :
    ∃ j, n ≤ j ∧ (tr j).cstate = .seekSync1 := by
  obtain ⟨i, j, hni, hij, -, -, hstart, hend⟩ := hcycle
  have hchecked : IdleOrUnchecked (tr j) :=
    Nat.le_induction (P := fun k _ => IdleOrUnchecked (tr k)) (.inr (.inl hstart))
      (fun k hk hidle => (hlate k (by omega)).1.check (hlate k (by omega)).2 hidle) j hij
  refine ⟨j, by omega, ?_⟩
  simpa [IdleOrUnchecked, hend] using hchecked

end

/-- Settles O59: it holds; in the end the classifier is fed no more and every timeout check is late, so the next whole
cycle ends with it idle, and unfed it stays so. -/
theorem classifierIsIdleInTheEnd : Obligations.ClassifierIsIdleInTheEnd := by
  intro sched tr n h h0 hsat hmain htick hdrain hcall hconn hb
  have hi := h.inv h0
  obtain ⟨m, hnm, hlate⟩ := h.late_in_the_end hi hsat htick hb
  obtain ⟨k, hcycle⟩ := h.completes_cycle hi hmain hdrain hcall hconn fun j hj => hb j (hnm.trans hj)
  obtain ⟨j, hmj, hidle⟩ := hcycle.idle hlate
  have hstays : ∀ k, j ≤ k → (tr k).cstate = .seekSync1 :=
    Nat.le_induction hidle fun k hk => (hlate k (hmj.trans hk)).1.idle
  exact ⟨j, hnm.trans hmj, fun k hk => ⟨hstays k hk, scratch_of_idle (hi k).classifier (hstays k hk)⟩⟩

end Sys2Proof.Machine

/-! The proofs of 44_dispatch.md's family. Each instruction's dispatch step is an equation with its next state (O11 to
O16, O18); its inversion lemma gives the frame (O19), the relays (O20) and the halts (O36). While a call is outstanding
MAIN holds, and only the answer of its own kind returns (O24); what it owes is queued byte by byte (O21 to O23), or the
run ends (O25). The executor's liberties all pass one gate (O52). -/

namespace Sys2Proof.Machine

open Sys2Proof

section

variable {s t : State} {params : List Byte}

/-! ### Operand layouts -/

theorem readOperands_of_length_ne (h : params.length ≠ 2) : readOperands params = none := by
  unfold readOperands
  split
  · exact absurd rfl h
  · rfl

theorem writeOperands_of_length_lt (h : params.length < 2) : writeOperands params = none := by
  unfold writeOperands
  split
  · exact absurd h (by simp)
  · rfl

theorem aggOperands_of_length_lt (h : params.length < 2) : aggOperands params = none := by
  unfold aggOperands
  split
  · exact absurd h (by simp)
  · rfl

/-! ### The dispatch step -/

/-- A dispatch that is one status without data puts its six `Enqueue`s and the return to CONSUME before what MAIN had
still to do (44_dispatch.md R230, R236). -/
theorem dispatchStatus_eq (err : Byte) (s : State) : dispatchStatus err [] s = { s with
    mainPhase := .dispatch
    uops := [.enqueue syncByte, .enqueue syncByte, .enqueue s.cfg.localId, .enqueue 0x02#8, .enqueue err,
      .enqueue (~~~ (s.cfg.localId + 0x02#8 + err)), .enterPhase .consume] ++ s.uops.tail } := by
  rw [dispatchStatus_nil, emitStatus_nil]
  rfl

theorem aggregateFits_iff {c : Config} {m : Byte} {n : Nat} : aggregateFits c m n = true ↔
    1 ≤ m.toNat ∧ m.toNat ≤ c.captureCap ∧ m.toNat * n ≤ c.maxOutFrame := by
  simp only [aggregateFits, decide_eq_true_eq]

/-- What a dispatched instruction leaves to do relays what stood behind its `DISPATCH`, whether that was taken off or,
by a fault, was not (44_dispatch.md R224). -/
theorem ExecEffect.relayed_uops {i : Instr} {k : Kind} {p : Packet} {rest : List Uop} (he : ExecEffect s i t)
    (hi : ∀ id len code, i ≠ .reject id len code) (hu : s.uops = .dispatch k p :: rest) :
    relayed t.uops = relayed rest := by
  cases he with
  | shape _ => simp [hu, relayed]
  | status _ err => simp [hu, emitStatus, relayed_append, relayed]
  | call _ c => simp [hu, relayed]
  | erase len => simp [hu, relayed]
  | restart len => simp [hu]
  | rejectFull id len code _ => exact absurd rfl (hi id len code)
  | reject id len code => exact absurd rfl (hi id len code)

/-! ### The restart call -/

/-- The step records one `restart` call and halts the block as the call's argument says (44_dispatch.md R233). -/
def Restarts (s t : State) : Prop :=
  ∃ b : Bool, t.calls = s.calls ++ [.restart b] ∧ t.halted = some (if b then .bootload else .reset)

theorem ExecEffect.halted_or_restarts {i : Instr} (he : ExecEffect s i t) : t.halted = s.halted ∨ Restarts s t := by
  cases he with
  | restart len => exact .inr ⟨true, rfl, rfl⟩
  | _ => exact .inl rfl

theorem UopEffect.halted_or_restarts {u : Uop} {rest : List Uop} (he : UopEffect s rest u t) :
    t.halted = s.halted ∨ Restarts s t := by
  cases he with
  | restart b => exact .inr ⟨b, rfl, rfl⟩
  | tryFlush =>
    rw [tryFlush_writes]
    exact .inl rfl
  | _ => exact .inl rfl

theorem PhaseEffect.halted_eq (he : PhaseEffect s t) : t.halted = s.halted := by
  cases he with
  | rxReturn _ => rw [returnToReceive_eq]
  | consume _ _ b q _ hc =>
    rcases consume_next hc with ⟨-, rfl⟩ | hframe
    · rfl
    · rw [hframe.eq]
  | _ => rfl

theorem mainStep_halted_or_restarts (hm : mainStep s = .next t) : t.halted = s.halted ∨ Restarts s t := by
  rcases mainStep_next hm with ⟨i, -, -, hi⟩ | ⟨-, rfl⟩ | ⟨u, rest, -, -, hu⟩ | ⟨-, -, hp⟩
  · exact hi.halted_or_restarts
  · exact .inl rfl
  · exact hu.halted_or_restarts
  · exact .inl hp.halted_eq

/-! ### Calls and their answers -/

/-- While a call is outstanding MAIN runs nothing (44_dispatch.md R221). -/
theorem mainStep_holds (hp : s.pendingCall ≠ none) : mainStep s = .next s := by
  obtain ⟨c, hc⟩ := Option.ne_none_iff_exists'.1 hp
  simp [mainStep, fetch, mainMicroStep, hc]

/-- An answer that belongs to no outstanding call does not return (44_dispatch.md R223). -/
theorem returnCall_refused {r : CallResult} (h : ∀ c, s.pendingCall = some c → answers c r = false) :
    returnCall r s = .refused .noSuchMove := by
  unfold returnCall
  split
  case h_5 => rfl
  all_goals exact absurd (h _ (by assumption)) (by simp [answers])

/-- A READ's answer is laid out as its status frame, if that frame's length byte can count it (44_dispatch.md R227;
30_encoding.md R95). -/
theorem returnCall_read {a n : Byte} (err : Byte) (data : List Byte) (hp : s.pendingCall = some (.localRead a n)) :
    returnCall (.read err data) s = .next (if data.length ≤ maxPayload then
      { s with pendingCall := none, uops := emitStatus s.cfg err data ++ s.uops }
      else raise .dispatchShape s) := by
  simp only [returnCall, hp]
  split_ifs <;> rfl

/-- A WRITE's answer releases MAIN, whatever its status byte (44_dispatch.md R228). -/
theorem returnCall_status {a n : Byte} {d : List Byte} (st : Byte) (hp : s.pendingCall = some (.localWrite a d n)) :
    returnCall (.status st) s = .next { s with pendingCall := none } := by
  simp only [returnCall, hp]

/-- The return of `eraseConfiguration` releases MAIN (44_dispatch.md R231). -/
theorem returnCall_done (hp : s.pendingCall = some .eraseConfiguration) :
    returnCall .done s = .next { s with pendingCall := none } := by
  simp only [returnCall, hp]

/-- An AGG_READ's answer is laid out unchanged, in pass-through mode and with no request of the executor held
(44_dispatch.md R223, R237; 42_arbiter.md R187). -/
theorem returnCall_bytes {a m n : Byte} {ids : List Byte} (r : List Byte)
    (hp : s.pendingCall = some (.aggregatedRead a m n ids)) :
    returnCall (.bytes r) s = if s.passthrough = true ∧ s.executorHold = none then
      .next { s with pendingCall := none, uops := r.map .enqueue ++ s.uops }
      else .refused .noSuchMove := by
  simp only [returnCall, hp, Bool.and_eq_true, Option.isNone_iff_eq_none]

/-! ### From the dispatch to the queued bytes -/

/-- A retained packet decodes to the instruction of its kind (44_dispatch.md R220). -/
theorem decodeDispatch_of_retained {c : Config} {p : Packet} (k : Kind) (h : (c.targetOf p.id).isSome = true) :
    ∃ tgt, decodeDispatch c k p = some (k.instr tgt p.len p.params) := by
  obtain ⟨tgt, ht⟩ := Option.isSome_iff_exists.1 h
  exact ⟨tgt, congrArg (Option.map _) ht⟩

/-- One dispatch of a run whose next move is MAIN's. -/
theorem runSteps_dispatch {k : Kind} {p : Packet} {rest : List Uop} {i : Instr} {ms : List Move} (n : Nat)
    (hr : Running s) (hp : s.pendingCall = none) (hu : s.uops = .dispatch k p :: rest)
    (hi : decodeDispatch s.cfg k p = some i) (hm : s.moves = .main :: ms)
    (hx : exec i { s with moves := ms } = .next t) : runSteps (n + 1) s = runSteps n t :=
  runSteps_cons n hr hm ((mainStep_dispatch (s := { s with moves := ms }) hp hu hi).trans hx)

/-- A dispatch that owes the bytes `bs` queues them, one a move of MAIN, and then goes on in its next phase
(41_egress.md R161; 43_service_timeout.md R210). -/
theorem runSteps_queueThenEnter (bs : List Byte) {ph : MainPhase} {rest : List Uop} {ms : List Move} (hr : Running s)
    (hp : s.pendingCall = none) (hu : s.uops = bs.map .enqueue ++ .enterPhase ph :: rest)
    (hroom : s.egress.length + bs.length ≤ s.cfg.egressCap) (hm : s.moves = mains (bs.length + 1) ++ ms) :
    runSteps (bs.length + 1) s = .next { s with
      moves := ms
      uops := rest
      mainPhase := ph
      sendTimer := if bs = [] then s.sendTimer else 0
      egress := s.egress ++ bs } := by
  rw [mains_add, List.append_assoc] at hm
  exact (runSteps_add bs.length 1 (runSteps_enqueues bs _ _ hr hp hu hroom hm)).trans
    (runSteps_uop 0 hr hp rfl rfl nofun rfl)

/-- The return of a call that owes the bytes `bs`, and a move of MAIN for each of them, queue exactly `bs`
(44_dispatch.md R227, R237; 41_egress.md R161). -/
theorem runSteps_answer {r : CallResult} {bs : List Byte} {ms : List Move} (hr : Running s)
    (hroom : s.egress.length + bs.length ≤ s.cfg.egressCap) (hm : s.moves = .env (.ret r) :: mains bs.length ++ ms)
    (hret : returnCall r { s with moves := mains bs.length ++ ms } = .next { s with
      moves := mains bs.length ++ ms, pendingCall := none, uops := bs.map .enqueue ++ s.uops }) :
    runSteps (bs.length + 1) s = .next { s with
      moves := ms
      pendingCall := none
      sendTimer := if bs = [] then s.sendTimer else 0
      egress := s.egress ++ bs } :=
  (runSteps_cons bs.length hr hm hret).trans (runSteps_enqueues bs s.uops ms hr rfl rfl hroom rfl)

/-! ### The executor's liberties -/

/-- Every liberty of the executor is granted only while MAIN holds in an aggregated read and the executor does not
hold itself (44_dispatch.md R222; 42_arbiter.md R187). -/
theorem executorMove_eq (s t : State) : executorMove s t =
    if inAggregatedRead s = false ∨ s.executorHold ≠ none then .refused .noSuchMove else .next t := by
  unfold executorMove executorFree
  cases inAggregatedRead s <;> cases s.executorHold <;> simp

/-- A step of the executor, whose effect is `t` where the executor does not hold. -/
theorem step_executorMove {e : EnvMove} {u : State} (hr : Running s) (hm : nextMove s = .env e)
    (he : envMove e (takeMove s) = executorMove (takeMove s) u) (hfree : s.executorHold = none → u = t) : step s =
      if inAggregatedRead s = false ∨ s.executorHold ≠ none then .refused .noSuchMove else .next t := by
  rw [step_env hr hm, he, executorMove_eq]
  refine if_ctx_congr .rfl (fun _ => rfl) fun hgate => ?_
  obtain ⟨-, hh⟩ := not_or.1 hgate
  rw [hfree (not_ne_iff.1 hh)]

theorem requestBus_switchToReceive_of_free (hh : s.executorHold = none) : requestBus .switchToReceive s =
    if s.dir = .rx ∨ s.busTxPending = 0 then { s with dir := .rx }
    else { s with executorHold := some .switchToReceive } := by
  by_cases hd : s.dir = .rx
  · simp [requestBus, attempt, switchToReceive_eq, hd, ← hh]
  · simp [requestBus_switchToReceive (dir_tx_of_ne_rx hd), hd, ← hh]

theorem requestBus_busWrite_of_free {b : Byte} (hh : s.executorHold = none) : requestBus (.busWrite b) s =
    if s.busTxPending < s.cfg.busTxDepth then
      { s with dir := .tx, busTxPending := s.busTxPending + 1, busOut := s.busOut ++ [b] }
    else { s with executorHold := some (.busWrite b) } := by
  split_ifs with hroom
  · rw [requestBus_busWrite hroom, ← hh]
  · have hf : busTxFull s = true := by simpa [busTxFull] using hroom
    simp [requestBus, attempt, busWrite, hf]

end

/-- Settles O11: it holds; the status has no data, and its checksum is taken over a zero error byte. -/
theorem pingDispatchesItsStatus : Obligations.PingDispatchesItsStatus := by
  intro s len
  simpa [exec, execPing] using dispatchStatus_eq 0x00#8 s

/-- Settles O12: it holds, by the instruction's meaning. -/
theorem resetDispatchErasesFirst : Obligations.ResetDispatchErasesFirst := fun _ _ => rfl

/-- Settles O13: it holds, by the instruction's meaning. -/
theorem bootloadDispatchHalts : Obligations.BootloadDispatchHalts := fun _ _ => rfl

/-- Settles O14: it holds, by the instruction's meaning on its two operands. -/
theorem readDispatchCallsTheStore : Obligations.ReadDispatchCallsTheStore := fun _ _ _ _ => rfl

/-- Settles O15: it holds; a data list that is not empty has a first byte, which is the shape `WRITE` asks for. -/
theorem writeDispatchCallsTheStore : Obligations.WriteDispatchCallsTheStore := by
  intro s tgt a ds hlen
  obtain ⟨d, ds, rfl⟩ := List.exists_cons_of_length_pos hlen
  rfl

/-- Settles O16: it holds; the bounds check decides between the call and the status. -/
theorem aggReadDispatchChecksItsBounds : Obligations.AggReadDispatchChecksItsBounds := by
  intro s tgt a m ids
  simp only [exec, execAggRead, aggOperands, aggregateFits_iff]
  split_ifs
  · rfl
  · rw [dispatchStatus_eq]

/-- Settles O18: it holds; the operand layout of each of the three excludes the count. -/
theorem wrongShapeRaisesDispatchShape : Obligations.WrongShapeRaisesDispatchShape := by
  intro s tgt params
  refine ⟨fun h => ?_, fun h => ?_, fun h => ?_⟩
  · simp only [exec, execRead, readOperands_of_length_ne h, raise]
  · simp only [exec, execWrite, writeOperands_of_length_lt h, raise]
  · simp only [exec, execAggRead, aggOperands_of_length_lt h, raise]

/-- Settles O19: it holds, effect by effect; only BOOTLOAD's restart halts, and only a shape without meaning faults. -/
theorem dispatchLeavesTheRestAlone : Obligations.DispatchLeavesTheRestAlone := by
  intro i s t hi h
  cases exec_next h with
  | shape hshape => exact ⟨rfl, fun hne => absurd rfl hne, fun _ => hshape⟩
  | restart len => exact ⟨rfl, fun _ => ⟨len, rfl⟩, fun hne => absurd rfl hne⟩
  | rejectFull id len code _ => exact absurd rfl (hi id len code)
  | reject id len code => exact absurd rfl (hi id len code)
  | _ => exact ⟨rfl, fun hne => absurd rfl hne, fun hne => absurd rfl hne⟩

/-- Settles O20: it holds; `bus_out` is in the frame of O19, and no effect adds a bus write to `uops`. -/
theorem dispatchNeverRelays : Obligations.DispatchNeverRelays := by
  intro i s t k p rest hi hu h
  obtain ⟨hframe, -, -⟩ := dispatchLeavesTheRestAlone i s t hi h
  refine ⟨?_, (exec_next h).relayed_uops hi hu⟩
  rw [hframe]

/-- Settles O36: it holds; a running block is not halted, TICK, BUSRX and ENV do not write the record, and of MAIN's
effects only the two restarts do. -/
theorem onlyARestartHalts : Obligations.OnlyARestartHalts := by
  intro s t reason h ht
  obtain ⟨hr, -⟩ := step_next_iff.1 h
  obtain ⟨-, hnot⟩ := stopReason_eq_none_iff.1 hr.1
  have hchanged : t.halted ≠ s.halted := by simp [ht, hnot]
  have hmain : nextMove s = .main := by
    by_contra hne
    rw [step_writes_of_ne_main h hne] at hchanged
    exact hchanged rfl
  rw [step_main hr hmain] at h
  rcases mainStep_halted_or_restarts h with hkept | ⟨b, hcalls, hhalted⟩
  · exact absurd hkept hchanged
  · exact ⟨hmain, b, hcalls, Option.some.inj (ht.symm.trans hhalted)⟩

/-- Settles O21: it holds; one move dispatches the ping, six queue its status, and the eighth goes back to CONSUME. -/
theorem pingRunQueuesExactlyItsStatus : Obligations.PingRunQueuesExactlyItsStatus := by
  intro s p rest ms hr hp hu hid hroom hm
  obtain ⟨tgt, hi⟩ := decodeDispatch_of_retained .ping hid
  refine (runSteps_dispatch 7 hr hp hu hi hm (pingDispatchesItsStatus _ _)).trans ?_
  exact runSteps_queueThenEnter [0xFF#8, 0xFF#8, s.cfg.localId, 0x02#8, 0x00#8, ~~~ (s.cfg.localId + 0x02#8)]
    hr hp (by simp [hu]) hroom rfl

/-- Settles O22: it holds; the answer owes its status frame, which has six bytes beside the data. -/
theorem readAnswerIsQueuedAsAStatus : Obligations.ReadAnswerIsQueuedAsAStatus := by
  intro s a n err data ms hr hp hlen hroom hm
  have hframe : (statusFrame s.cfg err data).length = data.length + 6 := frameBytes_length _ _ _ _
  have hret := returnCall_read (s := { s with moves := mains (data.length + 6) ++ ms }) err data hp
  rw [if_pos (show data.length ≤ maxPayload from hlen), ← hframe] at hret
  rw [← hframe] at hm
  have hrun := runSteps_answer hr (by omega) hm hret
  rw [hframe] at hrun
  rw [hrun]
  simp [statusFrame, frameBytes, checksumOf]

/-- Settles O23: it holds; the answer owes its own bytes, and the call returns exactly in pass-through with no request
held. -/
theorem aggregateAnswerIsQueuedUnchanged : Obligations.AggregateAnswerIsQueuedUnchanged := by
  intro s a m n ids r ms hr hp hroom hm
  refine ⟨fun hmode hfree => ?_, fun hnot => ?_⟩
  · exact runSteps_answer hr hroom hm
      ((returnCall_bytes (s := { s with moves := mains r.length ++ ms }) r hp).trans (if_pos ⟨hmode, hfree⟩))
  · refine (step_env hr (nextMove_cons hm)).trans ((returnCall_bytes (s := takeMove s) r hp).trans (if_neg ?_))
    rintro ⟨hmode, hfree⟩
    rcases hnot with hoff | hheld
    · simp [hoff] at hmode
    · exact hheld hfree

/-- Settles O24: it holds, clause by clause; the step is MAIN's hold or the return's rule. -/
theorem callsHoldMainUntilTheMatchingAnswer : Obligations.CallsHoldMainUntilTheMatchingAnswer := by
  intro s r a n st err d data hr
  refine ⟨fun hp hm => ?_, fun hm hno => ?_, fun hp hm => ?_, fun hp hm => ?_, fun hp hm hlong => ?_⟩
  · exact (step_main hr hm).trans (mainStep_holds (s := takeMove s) hp)
  · exact (step_env hr hm).trans (returnCall_refused (s := takeMove s) hno)
  · exact (step_env hr hm).trans (returnCall_status (s := takeMove s) st hp)
  · exact (step_env hr hm).trans (returnCall_done (s := takeMove s) hp)
  · have hover : ¬ data.length ≤ maxPayload := not_le.2 hlong
    exact (step_env hr hm).trans
      ((returnCall_read (s := takeMove s) err data hp).trans (congrArg Host.Outcome.next (if_neg hover)))

/-- Settles O25: it holds; RESET's dispatch calls out, the return releases MAIN, and the micro-operation left is the
restart, which BOOTLOAD's dispatch makes at once. -/
theorem restartInstructionsEndTheRun : Obligations.RestartInstructionsEndTheRun := by
  intro s p rest ms hr hp hid
  refine ⟨fun hu hm => ?_, fun hu hm => ?_⟩
  · obtain ⟨tgt, hi⟩ := decodeDispatch_of_retained .reset hid
    let erasing : State := { s with
      moves := .env (.ret .done) :: .main :: ms, mainPhase := .dispatch, uops := .restart false :: rest
      calls := s.calls ++ [.eraseConfiguration], pendingCall := some .eraseConfiguration }
    have hexec : exec (.reset p.len) { s with moves := .env (.ret .done) :: .main :: ms } = .next erasing := by
      rw [resetDispatchErasesFirst, hu]
      rfl
    let erased : State := { erasing with moves := .main :: ms, pendingCall := none }
    calc runSteps 3 s
      _ = runSteps 2 erasing := runSteps_dispatch 2 hr hp hu hi hm hexec
      _ = runSteps 1 erased := runSteps_cons 1 hr rfl (returnCall_done (s := { erasing with moves := .main :: ms }) rfl)
      _ = .next (restartBlock false { erased with moves := ms, uops := rest }) :=
        runSteps_uop 0 hr rfl rfl rfl nofun rfl
      _ = _ := by simp [restartBlock, erased, erasing, hp]
  · obtain ⟨tgt, hi⟩ := decodeDispatch_of_retained .bootload hid
    refine (runSteps_dispatch 0 hr hp hu hi hm (bootloadDispatchHalts _ _)).trans ?_
    simp [runSteps, hu]

/-- Settles O52: it holds; each liberty passes the executor's gate, and the two bus requests of a free executor
complete or make it hold. -/
theorem executorActsOnlyDuringAnAggregatedRead : Obligations.ExecutorActsOnlyDuringAnAggregatedRead := by
  intro s e v b hr hm he
  simp only [List.mem_cons, List.not_mem_nil, or_false] at he
  rcases he with rfl | rfl | rfl | rfl | rfl
  · exact step_executorMove hr hm rfl fun _ => by simp
  · exact step_executorMove hr hm rfl fun _ => by simp [switchToTransmit]
  · exact step_executorMove hr hm rfl fun hh => by simp [requestBus_switchToReceive_of_free (s := takeMove s) hh]
  · exact step_executorMove hr hm rfl fun hh => by simp [requestBus_busWrite_of_free (s := takeMove s) hh]
  · exact step_executorMove hr hm rfl fun _ => by simp

end Sys2Proof.Machine

/-! The proofs of 60_exceptions.md's family. Every effect of every agent keeps the fault record or is `raise` and
nothing else (O37). The step asks why the block stopped, then for its configuration, and only then for the move (O35);
of a TICK it takes the handler, whose count of a timer is one equation for each overflow rule (O46). -/

namespace Sys2Proof.Machine

open Sys2Proof

section

variable {s t : State}

/-! ### Faults -/

/-- The step keeps the fault record, or it raises a fault and writes nothing else (60_exceptions.md R255). -/
def KeepsFaultOrRaises (s t : State) : Prop := t.fault = s.fault ∨ ∃ code, t = raise code s

/-- From a state without a fault, the record the next state shows is the one that was raised. -/
theorem KeepsFaultOrRaises.eq_raise {code : FaultCode} (h : KeepsFaultOrRaises s t) (hs : s.fault = none)
    (ht : t.fault = some code) : t = raise code s := by
  rcases h with hkept | ⟨code', rfl⟩
  · simp [hkept, hs] at ht
  · cases ht
    rfl

theorem ExecEffect.keepsFaultOrRaises {i : Instr} (he : ExecEffect s i t) : KeepsFaultOrRaises s t := by
  cases he with
  | shape _ => exact .inr ⟨_, rfl⟩
  | rejectFull _ _ _ _ => exact .inr ⟨_, rfl⟩
  | _ => exact .inl rfl

theorem UopEffect.keepsFaultOrRaises {u : Uop} {rest : List Uop} (he : UopEffect s rest u t) :
    KeepsFaultOrRaises s t := by
  cases he with
  | overflow _ _ => exact .inr ⟨_, rfl⟩
  | tryFlush => exact .inl (by rw [tryFlush_writes])
  | _ => exact .inl rfl

theorem PhaseEffect.keepsFaultOrRaises (he : PhaseEffect s t) : KeepsFaultOrRaises s t := by
  cases he with
  | rxReturn _ => exact .inl (by rw [returnToReceive_eq])
  | consume _ _ _ _ _ hc =>
    rcases consume_next hc with ⟨-, hraised⟩ | hframe
    · exact .inr ⟨_, hraised⟩
    · exact .inl (by rw [hframe.eq])
  | _ => exact .inl rfl

theorem mainStep_keepsFaultOrRaises (hm : mainStep s = .next t) : KeepsFaultOrRaises s t := by
  rcases mainStep_next hm with ⟨i, -, -, hi⟩ | ⟨-, rfl⟩ | ⟨u, rest, -, -, hu⟩ | ⟨-, -, hp⟩
  · exact hi.keepsFaultOrRaises
  · exact .inl rfl
  · exact hu.keepsFaultOrRaises
  · exact hp.keepsFaultOrRaises

theorem enqueue_keepsFaultOrRaises (b : Byte) (s : State) : KeepsFaultOrRaises s (enqueue b s) := by
  rcases enqueue_cases b s with ⟨-, h⟩ | ⟨-, h⟩ <;> rw [h]
  · exact .inr ⟨_, rfl⟩
  · exact .inl rfl

theorem busRx_keepsFaultOrRaises (b : Byte) (s : State) : KeepsFaultOrRaises s (busRx b s) := by
  rcases busRx_cases b s with ⟨-, h⟩ | ⟨-, -, h⟩ | ⟨-, -, -, h⟩ | ⟨-, -, -, h⟩ <;> rw [h]
  · exact .inl rfl
  · exact enqueue_keepsFaultOrRaises b s
  · exact .inr ⟨_, rfl⟩
  · exact .inl rfl

theorem RequestEffect.fault_eq {r : BusRequest} (h : RequestEffect s r t) : t.fault = s.fault := by rw [h.writes]

/-- Of ENV's moves only the return of an answer too long for its frame raises a fault (30_encoding.md R95). -/
theorem EnvEffect.keepsFaultOrRaises {e : EnvMove} (he : EnvEffect s e t) : KeepsFaultOrRaises s t := by
  cases he with
  | release _ _ _ hr => exact .inl hr.fault_eq
  | dirReceive _ hr => exact .inl hr.fault_eq
  | executorWrite _ _ hr => exact .inl hr.fault_eq
  | oversize _ => exact .inr ⟨_, rfl⟩
  | _ => exact .inl rfl

/-- Apart from the move taken off the schedule, every agent's step keeps the fault record or only raises. -/
theorem step_keepsFaultOrRaises (h : step s = .next t) : KeepsFaultOrRaises (takeMove s) t := by
  obtain ⟨-, ⟨-, hm⟩ | ⟨-, rfl⟩ | ⟨b, -, rfl⟩ | ⟨e, -, he⟩⟩ := step_next h
  · exact mainStep_keepsFaultOrRaises hm
  · exact .inl rfl
  · exact busRx_keepsFaultOrRaises b _
  · exact he.keepsFaultOrRaises

/-! ### Stopped blocks -/

/-- A fault stops the block even where it has also halted (60_exceptions.md R256). -/
theorem stopReason_of_fault {code : FaultCode} (h : s.fault = some code) : stopReason s = some (.stopped code) := by
  simp [stopReason, h]

theorem stopReason_of_halted {reason : HaltReason} (hf : s.fault = none) (hh : s.halted = some reason) :
    stopReason s = some (.halted reason) := by
  simp [stopReason, hf, hh]

/-- The step asks for no move where the block has stopped. -/
theorem step_of_stopped {reason : Fault} (h : stopReason s = some reason) : step s = .fault reason := by
  simp [step, h]

theorem step_of_illFormed (h : stopReason s = none) (hc : configOk s = false) :
    step s = .refused .illFormedConfig := by
  simp [step, h, hc]

/-! ### Timers -/

theorem step_tick (hr : Running s) (hm : nextMove s = .tick) : step s = .next (tick (takeMove s)) := by
  rw [step_of_running hr, hm]
  rfl

theorem countTimer_saturate {c : Config} (h : c.timerOvf = .saturate) (n : Nat) :
    countTimer c n = min (n + 1) (2 ^ c.timerWidth - 1) := by
  simp [countTimer, h]

theorem countTimer_wrap {c : Config} (h : c.timerOvf = .wrap) (n : Nat) :
    countTimer c n = (n + 1) % 2 ^ c.timerWidth := by
  simp [countTimer, h]

end

/-- Settles O37: it holds; a block that takes a step has no fault, so the record the next state shows was raised in this
step. -/
theorem faultStepWritesOnlyTheRecord : Obligations.FaultStepWritesOnlyTheRecord := by
  intro s t code h ht
  obtain ⟨hr, -⟩ := step_next_iff.1 h
  obtain ⟨hnofault, -⟩ := stopReason_eq_none_iff.1 hr.1
  exact (step_keepsFaultOrRaises h).eq_raise hnofault ht

/-- Settles O35: it holds; the step's tests stand in that order, before the move is read. -/
theorem stoppedBlockTakesNoStep : Obligations.StoppedBlockTakesNoStep := by
  intro s
  refine ⟨fun code hf => ?_, fun reason hf hh => ?_, fun hf hh hc => ?_⟩
  · exact step_of_stopped (stopReason_of_fault hf)
  · exact step_of_stopped (stopReason_of_halted hf hh)
  · exact step_of_illFormed (stopReason_eq_none_iff.2 ⟨hf, hh⟩) hc

/-- Settles O46: it holds; all three timers count by the one rule of the configuration. -/
theorem tickAdvancesEveryTimer : Obligations.TickAdvancesEveryTimer := fun s hr hm =>
  ⟨countTimer s.cfg, countTimer_saturate, countTimer_wrap, step_tick hr hm⟩

end Sys2Proof.Machine

/-! The proofs of 70_reset_and_hazards.md's family. Of all the effects two take the bus from transmit to receive,
MAIN's opportunistic return and the executor's request, and both ask that nothing is pending (O33). The reset state has
the values of its table (O28), and from them the invariant (O29). -/

namespace Sys2Proof.Machine

open Sys2Proof

section

variable {s t : State}

/-! ### The direction of the bus -/

/-- What a step may do to the direction: keep it, set transmit, or set it with nothing pending before or after
(70_reset_and_hazards.md R284). -/
inductive DirEffect (s t : State) : Prop
  | kept (h : t.dir = s.dir)
  | transmit (h : t.dir = .tx)
  | drained (hs : s.busTxPending = 0) (ht : t.busTxPending = 0)

theorem DirEffect.drained_of_switch (h : DirEffect s t) (hs : s.dir = .tx) (ht : t.dir = .rx) :
    s.busTxPending = 0 ∧ t.busTxPending = 0 := by
  cases h with
  | kept h => simp [hs, ht] at h
  | transmit h => simp [ht] at h
  | drained hpend hpend' => exact ⟨hpend, hpend'⟩

theorem ExecEffect.dirEffect {i : Instr} (he : ExecEffect s i t) : DirEffect s t := by
  cases he <;> exact .kept rfl

/-- Of the micro-operations only `BusWrite` writes the direction (42_arbiter.md R183). -/
theorem UopEffect.dirEffect {u : Uop} {rest : List Uop} (he : UopEffect s rest u t) : DirEffect s t := by
  cases he with
  | busWrite b _ => exact .transmit rfl
  | tryFlush => exact .kept (by rw [tryFlush_writes])
  | _ => exact .kept rfl

/-- Of the phase steps only the opportunistic return writes the direction, under its guard (42_arbiter.md R185). -/
theorem PhaseEffect.dirEffect (he : PhaseEffect s t) : DirEffect s t := by
  cases he with
  | rxReturn _ =>
    rcases returnToReceive_cases s with h | ⟨-, hpend, h⟩ <;> rw [h]
    · exact .kept rfl
    · exact .drained hpend hpend
  | consume _ _ _ _ _ hc =>
    rcases consume_next hc with ⟨-, rfl⟩ | hframe
    · exact .kept rfl
    · exact .kept (by rw [hframe.eq])
  | _ => exact .kept rfl

theorem mainStep_dirEffect (hm : mainStep s = .next t) : DirEffect s t := by
  rcases mainStep_next hm with ⟨i, -, -, hi⟩ | ⟨-, rfl⟩ | ⟨u, rest, -, -, hu⟩ | ⟨-, -, hp⟩
  · exact hi.dirEffect
  · exact .kept rfl
  · exact hu.dirEffect
  · exact hp.dirEffect

/-- A bus request that sets receive is `switchToReceive` on a drained transmitter (42_arbiter.md R182). -/
theorem RequestEffect.dir_cases {r : BusRequest} (h : RequestEffect s r t) :
    t.dir = s.dir ∨ t.dir = .tx ∨ (r = .switchToReceive ∧ s.busTxPending = 0 ∧ t.busTxPending = 0) := by
  cases h with
  | switched _ hpend => exact .inr (.inr ⟨rfl, hpend, hpend⟩)
  | sent _ _ => exact .inr (.inl rfl)
  | _ => exact .inl rfl

theorem RequestEffect.dirEffect {r : BusRequest} (h : RequestEffect s r t) : DirEffect s t := by
  rcases h.dir_cases with hkept | htx | ⟨-, hpend, hpend'⟩
  · exact .kept hkept
  · exact .transmit htx
  · exact .drained hpend hpend'

/-- The `tx_done` that takes off the last pending byte and releases an executor holding in `switchToReceive`
(42_arbiter.md R182, R184, R187). -/
def ReleasesIntoReceive (s : State) (e : EnvMove) (t : State) : Prop :=
  e = .txDone ∧ s.busTxPending = 1 ∧ s.executorHold = some .switchToReceive ∧ t.busTxPending = 0

/-- Only that `tx_done` sets receive where a byte was pending before the step. -/
theorem EnvEffect.dirEffect_or_release {e : EnvMove} (he : EnvEffect s e t) :
    DirEffect s t ∨ ReleasesIntoReceive s e t := by
  cases he with
  | release r hpend hhold hr =>
    rcases hr.dir_cases with hkept | htx | ⟨rfl, hleft, hdone⟩
    · exact .inl (.kept hkept)
    · exact .inl (.transmit htx)
    · have hlast : s.busTxPending = 1 := Nat.le_antisymm (Nat.sub_eq_zero_iff_le.1 hleft) hpend
      exact .inr ⟨rfl, hlast, hhold, hdone⟩
  | dirTransmit _ => exact .inl (.transmit rfl)
  | dirReceive _ hr => exact .inl hr.dirEffect
  | executorWrite _ _ hr => exact .inl hr.dirEffect
  | _ => exact .inl (.kept rfl)

/-- Apart from the move taken off the schedule, every agent's step treats the direction so. -/
theorem step_dirEffect_or_release (h : step s = .next t) :
    DirEffect (takeMove s) t ∨ ∃ e, nextMove s = .env e ∧ ReleasesIntoReceive (takeMove s) e t := by
  obtain ⟨-, ⟨-, hm⟩ | ⟨-, rfl⟩ | ⟨b, -, rfl⟩ | ⟨e, hmove, he⟩⟩ := step_next h
  · exact .inl (mainStep_dirEffect hm)
  · exact .inl (.kept rfl)
  · exact .inl (.kept (by rw [busRx_writes]))
  · exact he.dirEffect_or_release.imp_right fun hrelease => ⟨e, hmove, hrelease⟩

end

/-- Settles O33: it holds; a step that switches to receive either finds nothing pending, or is the `tx_done` that takes
off the last byte. -/
theorem noSwitchToReceiveBeforeDrain : Obligations.NoSwitchToReceiveBeforeDrain := by
  intro s t h hs ht
  rcases step_dirEffect_or_release h with hdir | ⟨e, hmove, rfl, hlast, hhold, hdone⟩
  · obtain ⟨hpend, hpend'⟩ := hdir.drained_of_switch hs ht
    exact ⟨hpend', .inl hpend⟩
  · exact ⟨hdone, .inr ⟨hlast, hmove, hhold⟩⟩

/-- Settles O28: it holds; the reset state is written with the values of the table. -/
theorem resetStateHasTheTableValues : Obligations.ResetStateHasTheTableValues :=
  ⟨rfl, rfl, rfl, rfl, rfl, rfl, rfl, rfl, rfl, rfl, rfl, rfl, rfl, rfl, rfl, rfl, rfl, rfl, rfl, rfl, rfl, rfl, rfl⟩

/-- Settles O29: it holds; what is counted, queued or pending is empty at reset, nothing is called or held, and RC is
well-formed with both thresholds in range. -/
theorem resetStateHasTheInvariant : Obligations.ResetStateHasTheInvariant where
  config := by decide
  classifier := by decide
  rxTimer := Nat.two_pow_pos _
  sendTimer := Nat.two_pow_pos _
  busTimer := Nat.two_pow_pos _
  egress := Nat.zero_le _
  cap := Nat.zero_le _
  busTx := Nat.zero_le _
  listening _ := rfl
  flushes := Nat.zero_le _
  commits := rfl
  uncommitted := .inr rfl
  packets _ _ hwork := absurd hwork List.not_mem_nil
  counted := Nat.zero_le _
  work := rfl
  callPhase hcall := absurd rfl hcall
  held hhold := absurd rfl hhold
  modeFlag hcapture := absurd hcapture (by decide)
  oneEnd := .inl rfl

end Sys2Proof.Machine
